-- ==== Sys2Proof/Word.lean ====
section
/-! DEFINITION. Word types of HUFFCORE: bits, bytes, 32-bit words, weights (spec/00_scope.md R8, R9). -/

namespace Sys2Proof

/-- A bit sequence, first bit first (R9). -/
abbrev Bits := List Bool

/-- A byte of IN or OUT: `BYTE_W = 8` bits (R8). -/
abbrev Byte := BitVec 8

/-- A register of the host window, a command word or a marker: 32 bits (R8, R18). -/
abbrev Word := BitVec 32

end Sys2Proof
end

