-- ==== Sys2Proof/Config.lean ====
section
/-! DEFINITION. The implementation parameters of spec/00_scope.md R8: the fixed numbers, and the two OPEN parameters as opaque constants. -/

namespace Sys2Proof.Config

/-- `ALPH`: 256 byte values and the sentinel (R8). -/
abbrev alph : Nat := 257

/-- `SENTINEL`: the end-of-stream symbol (R8). -/
abbrev sentinel : Nat := 256

/-- `WEIGHT_W`, at the spec's default value (R8, D13; log 3). -/
abbrev weightW : Nat := 32

/-- `MAX_LEN = 2^WEIGHT_W - 2`, the longest input COMPRESS accepts (R8). -/
abbrev maxLen : Nat := 2 ^ weightW - 2

/-- `INT_CAP`: most internal nodes of a header HDES accepts (R8). -/
abbrev intCap : Nat := 256

/-- `NODE_CAP`: entries of the node arena (R8). -/
abbrev nodeCap : Nat := 513

/-- `MAX_CODE_LEN`: longest code, and the width of CBITS (R8, R26). -/
abbrev maxCodeLen : Nat := 256

/-- `HUFF_MAGIC`, the 32-bit marker: OPEN in the spec (R8, D6), so nothing is known of its value (log 1). -/
opaque huffMagic : Word

/-- `REG_BASE`, the host-bus address of the register window: OPEN in the spec (R8, D2; log 2). -/
opaque regBase : Nat

end Sys2Proof.Config
end

