-- ==== Sys2Proof/Syntax.lean ====
section
/-! DEFINITION. The instructions: one constructor per row of spec/opcode_table.json (30_encoding.md R62). -/

namespace Sys2Proof

/-- The 13 rows of the opcode table. The first five are command words the HOST writes to CMD; the others are
tokens of the input, output and compressed streams. -/
inductive Instr where
  /-- NOP, command word 0x00000000 (R88). -/
  | nop
  /-- COMPRESS, command word 0x00000001 (R91). -/
  | compress
  /-- DECOMPRESS, command word 0x00000002 (R99). -/
  | decompress
  /-- CMD_ILLEGAL_OP, command word 0x00000003 (R89). -/
  | cmdIllegalOp
  /-- CMD_ILLEGAL_RSV, a command word with reserved bits `r` = [31:2] not all 0 and OP field `o` (R89). -/
  | cmdIllegalRsv (r : BitVec 30) (o : BitVec 2)
  /-- MAGIC, the 32-bit marker field of the wire, holding `m` (R55, R93, R101; log 17). -/
  | magic (m : Word)
  /-- HDR_INTERNAL, header token `0` (R56). -/
  | hdrInternal
  /-- HDR_LEAF, header token `1` and a 9-bit symbol of 0 to 256 (R56, R58). -/
  | hdrLeaf (sym : BitVec 9)
  /-- HDR_LEAF_BADSYM, header token `1` and a 9-bit symbol of 257 to 511 (R58, R63). -/
  | hdrLeafBadsym (sym : BitVec 9)
  /-- CODE_BIT_LEFT, payload bit `0` (R102). -/
  | codeBitLeft
  /-- CODE_BIT_RIGHT, payload bit `1` (R102). -/
  | codeBitRight
  /-- IN_BYTE, a byte of the COMPRESS input (R60, R68, R95). -/
  | inByte (b : Byte)
  /-- OUT_SYMBOL, a byte of the DECOMPRESS output (R60, R104). -/
  | outSymbol (b : Byte)
deriving DecidableEq, Repr

end Sys2Proof
end

