-- ==== Sys2Proof/WellFormed.lean ====
section
/-! DEFINITION. Which instructions the encodings of spec/30_encoding.md can spell. -/

namespace Sys2Proof

/-- The operand limits the opcode table's notes give: reserved bits non-zero in CMD_ILLEGAL_RSV (R54), SYM at most
256 in HDR_LEAF and at least 257 in HDR_LEAF_BADSYM (R58). Every other operand may take every value of its field. -/
def Instr.wf : Instr → Bool
  | .nop => true
  | .compress => true
  | .decompress => true
  | .cmdIllegalOp => true
  | .cmdIllegalRsv r _ => r ≠ 0
  | .magic _ => true
  | .hdrInternal => true
  | .hdrLeaf sym => sym.toNat ≤ Config.sentinel
  | .hdrLeafBadsym sym => Config.sentinel < sym.toNat
  | .codeBitLeft => true
  | .codeBitRight => true
  | .inByte _ => true
  | .outSymbol _ => true

end Sys2Proof
end

