-- ==== Sys2Proof/Decode.lean ====
section
/-! DEFINITION. Bit order, the decoder in each context of spec/30_encoding.md R62, the encoder, and decoding by the
opcode table's own numbering. -/

namespace Sys2Proof

/-- `bits_n(v)`: the n bits of `v`, most significant first (R9, R33). -/
def bitsOf {n : Nat} (v : BitVec n) : Bits :=
  (List.range n).map fun i => v.getMsbD i

/-- `val(p)`: the unsigned value of `p` read most significant bit first (R9). -/
def bitsVal (p : Bits) : Nat :=
  p.foldl (fun acc b => 2 * acc + b.toNat) 0

/-- `val(p)` as an n-bit field (R9, R35). -/
def fieldOf (n : Nat) (p : Bits) : BitVec n :=
  BitVec.ofNat n (bitsVal p)

/-! ## One token of each context -/

/-- F-CMD: every 32-bit word is one of the five command rows; reserved bits are looked at first (R54, R87). -/
def decodeCmd (w : Word) : Instr :=
  if w.extractLsb' 2 30 ≠ 0 then .cmdIllegalRsv (w.extractLsb' 2 30) (w.extractLsb' 0 2)
  else if w.extractLsb' 0 2 = 0 then .nop
  else if w.extractLsb' 0 2 = 1 then .compress
  else if w.extractLsb' 0 2 = 2 then .decompress
  else .cmdIllegalOp

/-- F-MAGIC: the 32-bit marker field, whatever it holds; R101 compares it (log 17). -/
def decodeMagic (m : Word) : Instr := .magic m

/-- F-HL after its tag: the 9-bit symbol decides the row (R58). -/
def decodeLeafSym (sym : BitVec 9) : Instr :=
  if sym.toNat ≤ Config.sentinel then .hdrLeaf sym else .hdrLeafBadsym sym

/-- F-CODE: `0` is left, `1` is right (R10, R62). -/
def decodeCodeBit (t : Bool) : Instr :=
  if t then .codeBitRight else .codeBitLeft

/-! ## Contexts -/

/-- Where a token stands. The bits alone do not name the row: the reader's position does (R62; log 15). -/
inductive Ctx where
  /-- A word written to CMD. -/
  | cmd
  /-- The first 32 bits of a compressed stream. -/
  | magic
  /-- The header of a compressed stream. -/
  | header
  /-- The payload of a compressed stream. -/
  | code
  /-- The bytes COMPRESS reads. -/
  | inByte
  /-- The bytes DECOMPRESS writes. -/
  | outByte
deriving DecidableEq, Repr

/-- Why a decoder answers no token. -/
inductive Reject where
  /-- The bits end before the token does; the caller decides what that means (R35). -/
  | truncated (c : Ctx)
deriving DecidableEq, Repr

/-- What a decoder answers: a token and the bits after it, or a rejection by name. -/
inductive Decoded where
  | token (i : Instr) (rest : Bits)
  | reject (r : Reject)
deriving DecidableEq, Repr

/-- A field of `n` bits at the front of `p`, read by `f`; rejected when fewer bits remain (R35). -/
def decodeField (c : Ctx) (n : Nat) (f : BitVec n → Instr) (p : Bits) : Decoded :=
  if n ≤ p.length then .token (f (fieldOf n (p.take n))) (p.drop n) else .reject (.truncated c)

/-- The token at the front of a bit sequence, in each context (R62, R65). Total on every bit sequence. -/
def decode : Ctx → Bits → Decoded
  | .cmd, p => decodeField .cmd 32 decodeCmd p
  | .magic, p => decodeField .magic 32 decodeMagic p
  | .header, [] => .reject (.truncated .header)
  | .header, false :: rest => .token .hdrInternal rest
  | .header, true :: rest => decodeField .header 9 decodeLeafSym rest
  | .code, [] => .reject (.truncated .code)
  | .code, t :: rest => .token (decodeCodeBit t) rest
  | .inByte, p => decodeField .inByte 8 .inByte p
  | .outByte, p => decodeField .outByte 8 .outSymbol p

/-! ## The encoder -/

/-- The bits of an instruction, first bit first (R53 to R60). -/
def encode : Instr → Bits
  | .nop => bitsOf (0x00000000 : Word)
  | .compress => bitsOf (0x00000001 : Word)
  | .decompress => bitsOf (0x00000002 : Word)
  | .cmdIllegalOp => bitsOf (0x00000003 : Word)
  | .cmdIllegalRsv r o => bitsOf (r ++ o : BitVec 32)
  | .magic m => bitsOf m
  | .hdrInternal => [false]
  | .hdrLeaf sym => true :: bitsOf sym
  | .hdrLeafBadsym sym => true :: bitsOf sym
  | .codeBitLeft => [false]
  | .codeBitRight => [true]
  | .inByte b => bitsOf b
  | .outSymbol b => bitsOf b

/-- The context in which a row's bits are read (R62). -/
def Instr.ctx : Instr → Ctx
  | .nop => .cmd
  | .compress => .cmd
  | .decompress => .cmd
  | .cmdIllegalOp => .cmd
  | .cmdIllegalRsv _ _ => .cmd
  | .magic _ => .magic
  | .hdrInternal => .header
  | .hdrLeaf _ => .header
  | .hdrLeafBadsym _ => .header
  | .codeBitLeft => .code
  | .codeBitRight => .code
  | .inByte _ => .inByte
  | .outSymbol _ => .outByte

/-- A row's length in bits: the opcode table's "width" (R53). -/
def Instr.width : Instr → Nat
  | .nop => 32
  | .compress => 32
  | .decompress => 32
  | .cmdIllegalOp => 32
  | .cmdIllegalRsv _ _ => 32
  | .magic _ => 32
  | .hdrInternal => 1
  | .hdrLeaf _ => 10
  | .hdrLeafBadsym _ => 10
  | .codeBitLeft => 1
  | .codeBitRight => 1
  | .inByte _ => 8
  | .outSymbol _ => 8

/-! ## Decoding by the table's numbering -/

/-- The contexts and widths of the rows of the opcode table, in the table's order. -/
def tableRows : List (Ctx × Nat) :=
  [(.cmd, 32), (.magic, 32), (.header, 1), (.header, 10), (.code, 1), (.inByte, 8), (.outByte, 8)]

/-- What the decoder reads from the word `w` as a row of context `c` and width `k`, when `nbits` is that width or that
width in whole bytes and the token takes all of the row's bits. -/
def decodeAsRow (nbits w : Nat) (c : Ctx) (k : Nat) : Option Instr :=
  if (nbits = k ∨ nbits = 8 * ((k + 7) / 8)) ∧ w < 2 ^ k then
    match decode c (bitsOf (BitVec.ofNat k w)) with
    | .token i [] => some i
    | _ => none
  else none

/-- The instruction of the FIRST row of the opcode table that the word can be (log 15). MAGIC, CODE_BIT_LEFT and
OUT_SYMBOL share their bits with an earlier row (a command word, HDR_INTERNAL, IN_BYTE): only their context names them. -/
def decodeTableWord (nbits w : Nat) : Option Instr :=
  tableRows.findSome? fun row => decodeAsRow nbits w row.1 row.2

end Sys2Proof
end

