-- ==== Sys2Proof/Machine/State.lean ====
section
/-! DEFINITION. The state of HUFFCORE and its HOST (spec/10_state.md, spec/20_memory.md, spec/30_encoding.md R66), the
reasons a step can stop, and the state after reset (R30). -/

namespace Sys2Proof.Machine

/-! ## Names -/

/-- A symbol: a byte value or the sentinel 256 (R8, R22). -/
abbrev Sym := Fin Config.alph

/-- An index of the node arena, `NODE[0]` to `NODE[512]` (R23; log 4). -/
abbrev NodeIdx := Fin Config.nodeCap

/-- A counter or a node weight: `WEIGHT_W` bits unsigned (R8, R22, R23). -/
abbrev Weight := BitVec Config.weightW

/-- The error conditions of R107. The code 7 is never produced, so no value stands for it (U19). -/
inductive ErrCode where
  | none
  | badMagic
  | truncatedStream
  | malformedHeader
  | inputTooLong
  | inputMismatch
  | illegalCommand
deriving DecidableEq, Repr

/-- The decoder's DSTATE (R27). -/
inductive DState where
  | atRoot
  | descending
  | terminal
deriving DecidableEq, Repr

/-- The values of PHASE (R17). -/
inductive Phase where
  | idle
  | cCount
  | cBuild
  | cCodes
  | cMagic
  | cHeader
  | cRewind
  | cEncode
  | cSentinel
  | dMagic
  | dHeader
  | dDecode
  | closing
deriving DecidableEq, Repr

/-- Where the ENGINE stands: PHASE, refined to the places of its pseudocode between two ENGINE steps, each of which is one
port event or one table operation (R130; log 5, log 6). The arguments are the pseudocode's own local variables there: a
loop's symbol, a field just read, a node, a path. `Seq.phase` gives PHASE back. -/
inductive Seq where
  /-- IDLE. -/
  | idle
  /-- C_COUNT, `FREQ[s]` is cleared next (R68). -/
  | countClear (s : Sym)
  /-- C_COUNT, at the loop's read (R68). -/
  | count
  /-- C_COUNT, byte `b` is read and is counted next (R68). -/
  | countByte (b : Byte)
  /-- C_COUNT, the input is exhausted and the sentinel's count is set next (R69). -/
  | countEnd
  /-- C_BUILD, before PQ is emptied (R71). -/
  | buildClear
  /-- C_BUILD, at symbol `s` of BUILD_LEAVES (R71). -/
  | buildLeaf (s : Sym)
  /-- C_BUILD, the leaf of symbol `s` is made and is inserted next (R71). -/
  | buildInsert (s : Sym)
  /-- C_BUILD, at the test of MERGE's loop, before the first removal (R73). -/
  | merge
  /-- C_BUILD, `a` is removed and the second removal is next (R73). -/
  | mergeSecond (a : NodeIdx)
  /-- C_BUILD, `a` and `b` are removed and `NODE[NEXT]` is made next (R73). -/
  | mergeNode (a b : NodeIdx)
  /-- C_BUILD, `NODE[i]` is made, `i` = NEXT, and is inserted next (R73). -/
  | mergeInsert (i : NodeIdx)
  /-- C_CODES, entry `s` of the code table is cleared next (R78). -/
  | codesClear (s : Sym)
  /-- C_CODES, the code table is clear; at the test of ROOT (R78). -/
  | codesStart
  /-- C_CODES, `walk(i, p)` is called (R78). -/
  | codesNode (i : NodeIdx) (p : Bits)
  /-- C_CODES, a call of `walk` has returned (R78). -/
  | codesPop
  /-- C_MAGIC (R93). -/
  | magicWrite
  /-- C_HEADER, before `ser(ROOT)` (R82). -/
  | headerStart
  /-- C_HEADER, `ser(i)` is called (R82). -/
  | headerNode (i : NodeIdx)
  /-- C_HEADER, the tag of the internal node `NODE[i]` is written (R82). -/
  | headerPush (i : NodeIdx)
  /-- C_HEADER, the tag of the leaf `NODE[i]` is written and its symbol is next (R82). -/
  | headerSym (i : NodeIdx)
  /-- C_HEADER, a call of `ser` has returned (R82). -/
  | headerPop
  /-- C_REWIND (R94). -/
  | rewind
  /-- C_ENCODE, at the loop's read (R95). -/
  | encodeRead
  /-- C_ENCODE, byte `b` is read and is looked up next (R95). -/
  | encodeByte (b : Byte)
  /-- C_ENCODE, the code of byte `b` is written next (R95). -/
  | encodeWrite (b : Byte)
  /-- C_SENTINEL (R96). -/
  | sentinel
  /-- D_MAGIC (R101). -/
  | magicRead
  /-- D_MAGIC, the field `m` is read and is compared next (R101). -/
  | magicField (m : Word)
  /-- D_HEADER, before NINT and NEXT are cleared (R83). -/
  | treeClear
  /-- D_HEADER, at the read of a tag (R83). -/
  | treeTag
  /-- D_HEADER, the tag `t` is read and a node is allocated next (R83). -/
  | treeBit (t : Bool)
  /-- D_HEADER, at the read of the symbol of the leaf `NODE[i]` (R83). -/
  | treeSym (i : NodeIdx)
  /-- D_HEADER, the symbol `v` of the leaf `NODE[i]` is read and is checked next (R83). -/
  | treeLeaf (i : NodeIdx) (v : BitVec 9)
  /-- D_HEADER, a call of readTree has returned `j` (R83). -/
  | treeReturn (j : NodeIdx)
  /-- D_HEADER, both subtrees of `NODE[i]` are read and it is made next (R83). -/
  | treeBuild (i l r : NodeIdx)
  /-- D_DECODE, before a DECODE_STEP (R102). -/
  | decodeBit
  /-- D_DECODE, the bit `t` is read and CUR moves next (R102). -/
  | decodeStep (t : Bool)
  /-- D_DECODE, a leaf of byte `b` is reached and its output is next (R104). -/
  | decodeEmit (b : Byte)
  /-- D_DECODE, the byte is written and CUR goes back to the root next (R104). -/
  | decodeReset
  /-- CLOSING, before `OUT.close()`; the command ends with error `e`, or with success (R97, R110). -/
  | close (e : ErrCode)
  /-- CLOSING, after `OUT.close()`, before STATUS is written (R50, R97, R110). -/
  | finish (e : ErrCode)
deriving DecidableEq, Repr

/-! ## Registers and tables -/

/-- The fields of STATUS (R20). Its other bits are hard-wired 0 and have no storage. -/
structure Status where
  busy : Bool
  done : Bool
  err : Bool
  errCode : ErrCode
  lastOp : BitVec 2
deriving DecidableEq, Repr

/-- An entry of the node arena (R11, R23; log 20). -/
inductive Node where
  /-- `Leaf(s, w)`: KIND 1. -/
  | leaf (sym : Sym) (weight : Weight)
  /-- `Internal(w, l, r)`: KIND 0, SYM 0. -/
  | internal (weight : Weight) (left right : NodeIdx)
deriving DecidableEq, Repr

/-- An entry of the code table (R26): CVALID, CLEN, CBITS. -/
structure Code where
  valid : Bool
  len : BitVec 9
  bits : BitVec Config.maxCodeLen
deriving DecidableEq, Repr

/-- An entry of the walk stack (R28): a right child still to be visited, and the path to it (R78; log 20). -/
structure WalkEntry where
  node : NodeIdx
  path : Bits
deriving DecidableEq, Repr

/-- An entry of the HDES stack (R28): an internal node whose readTree calls are not both back; `left` is the left
subtree's index once it is (R83; log 20). -/
structure HdesFrame where
  node : NodeIdx
  left : Option NodeIdx
deriving DecidableEq, Repr

/-! ## Ports -/

/-- IN (R34, R36): the bytes supplied first, the bytes supplied after the rewind, which of the two is being read, and
the bit position. -/
structure InPort where
  first : List Byte
  second : List Byte
  rewound : Bool
  pos : Nat
deriving DecidableEq, Repr

/-- OUT (R37, R40): the bits written since it was connected, and whether the ENGINE has ended it. -/
structure OutPort where
  bits : Bits
  closed : Bool
deriving DecidableEq, Repr

/-! ## The HOST -/

/-- The registers of the window (R18). -/
inductive Reg where
  | cmd
  | status
  | reserved8
  | reservedC
deriving DecidableEq, Repr

/-- The two agents (R7). -/
inductive Agent where
  | host
  | engine
deriving DecidableEq, Repr

/-- One action of the HOST: the host assembly of R66 and R67, a raw bus access (R45), or the reset line (R121). -/
inductive HostAction where
  /-- `WRITE <reg>, <imm32>`. -/
  | write (r : Reg) (v : Word)
  /-- `READ <reg>`. -/
  | read (r : Reg)
  /-- A bus write of `bytes` bytes at address `addr` (R45). -/
  | busWrite (addr bytes : Nat) (v : Word)
  /-- A bus read of `bytes` bytes at address `addr` (R45). -/
  | busRead (addr bytes : Nat)
  /-- `CONNECT IN, [b], REWIND [b2]`. -/
  | connectIn (b b2 : List Byte)
  /-- `CONNECT OUT`. -/
  | connectOut
  /-- `TAKE OUT`. -/
  | takeOut
  /-- `WAIT`: `READ STATUS`, again while BUSY = 1 (R67). -/
  | wait
  /-- RESET (R121). -/
  | reset
deriving DecidableEq, Repr

/-- A value a HOST action bound to a name (R66). -/
inductive HostValue where
  /-- The 32 bits of a READ. -/
  | word (v : Word)
  /-- The bytes of a TAKE OUT. -/
  | bytes (b : List Byte)
deriving DecidableEq, Repr

/-- The HOST: the actions it has still to do, which agent moves in each of the next steps, and the values it has bound,
oldest first (log 10, log 21). -/
structure HostState where
  program : List HostAction
  turns : List Agent
  seen : List HostValue
deriving DecidableEq, Repr

/-! ## The state -/

/-- HUFFCORE and its HOST. -/
structure State where
  /-- PHASE, refined (R17; log 5). -/
  seq : Seq
  /-- STATUS (R20). -/
  status : Status
  /-- FREQ (R22). -/
  freq : Vector Weight Config.alph
  /-- NODE (R23). -/
  nodes : Vector Node Config.nodeCap
  /-- ROOT (R23). -/
  root : NodeIdx
  /-- PQ, as the arena indices it holds, in the order they were inserted (R24). -/
  pq : List NodeIdx
  /-- NBYTES (R25). -/
  nbytes : BitVec Config.weightW
  /-- NLEAF (R25). -/
  nleaf : BitVec 9
  /-- NEXT (R25). -/
  next : BitVec 10
  /-- NINT (R25). -/
  nint : BitVec 9
  /-- The code table CVALID, CLEN, CBITS (R26). -/
  codes : Vector Code Config.alph
  /-- DSTATE (R27). -/
  dstate : DState
  /-- CUR (R27). -/
  cur : NodeIdx
  /-- The walk stack of CGEN and HSER, top first (R28). -/
  walk : List WalkEntry
  /-- The HDES stack, top first (R28). -/
  hdes : List HdesFrame
  /-- IN (R34). -/
  inp : InPort
  /-- OUT (R37). -/
  out : OutPort
  /-- The HOST (R7). -/
  host : HostState
deriving DecidableEq, Repr

/-! ## Why a step can stop -/

/-- Faults: each is raised only in states that no run from reset reaches (log 19). All are safe: the model stops where
the spec, which rules the state out, says nothing. -/
inductive Fault where
  /-- Raised by MERGE (R73) and by readTree (R83) when NEXT names no arena entry. Safe. -/
  | arenaFull
  /-- Raised by MERGE (R73) when PQ is empty. Safe. -/
  | emptyQueue
  /-- Raised by DECODE_STEP (R102) and by HSER (R82) when a child of a leaf is asked for. Safe. -/
  | noChild
deriving DecidableEq, Repr

/-- Refusals: what the spec gives no meaning to. All are safe: the model stops. -/
inductive Refusal where
  /-- An instruction that has no meaning yet, by its mnemonic. Raised by exec's arms only. Safe. -/
  | notModelled (mnemonic : String)
  /-- A wire token presented to the ENGINE where it neither reads nor writes that token. Raised by the meanings of the
  wire tokens, never by a step (log 18). Safe. -/
  | tokenNotOffered
  /-- A register access that is not an aligned 32-bit access to the window (R45, R127, U16). Raised by the HOST's bus
  accesses. Safe. -/
  | badRegisterAccess
  /-- A CONNECT while BUSY = 1 (R124; log 11). Raised by the HOST's CONNECT. Safe. -/
  | connectWhileBusy
  /-- A TAKE OUT while DONE = 0 (R66, R128; log 12). Raised by the HOST's TAKE OUT. Safe. -/
  | takeBeforeDone
deriving DecidableEq, Repr

/-! ## Reset -/

/-- STATUS after reset: 0x00000000 (R20, R30). -/
def Status.reset : Status :=
  { busy := false, done := false, err := false, errCode := .none, lastOp := 0 }

/-- The state after reset (R30, R121): PHASE = IDLE and STATUS = 0 are the spec's. Every table's value is a DESIGN
CHOICE where the spec says "unspecified" (log 7), as are the streams before the HOST connects them (log 8) and the
HOST's empty program (log 10). -/
def State.reset : State :=
  { seq := .idle
    status := Status.reset
    freq := Vector.replicate _ 0
    nodes := Vector.replicate _ (.leaf 0 0)
    root := 0
    pq := []
    nbytes := 0
    nleaf := 0
    next := 0
    nint := 0
    codes := Vector.replicate _ { valid := false, len := 0, bits := 0 }
    dstate := .atRoot
    cur := 0
    walk := []
    hdes := []
    inp := { first := [], second := [], rewound := false, pos := 0 }
    out := { bits := [], closed := false }
    host := { program := [], turns := [], seen := [] } }

end Sys2Proof.Machine
end

