-- ==== Sys2Proof/Machine/Operands.lean ====
section
/-! DEFINITION. Operand forms and views: PHASE, register offsets, symbols, nodes, codes, stream bits and bytes. -/

namespace Sys2Proof.Machine

/-! ## PHASE -/

/-- PHASE as R17 names it, from the ENGINE's place in its pseudocode. -/
def Seq.phase : Seq → Phase
  | .idle => .idle
  | .countClear _ => .cCount
  | .count => .cCount
  | .countByte _ => .cCount
  | .countEnd => .cCount
  | .buildClear => .cBuild
  | .buildLeaf _ => .cBuild
  | .buildInsert _ => .cBuild
  | .merge => .cBuild
  | .mergeSecond _ => .cBuild
  | .mergeNode _ _ => .cBuild
  | .mergeInsert _ => .cBuild
  | .codesClear _ => .cCodes
  | .codesStart => .cCodes
  | .codesNode _ _ => .cCodes
  | .codesPop => .cCodes
  | .magicWrite => .cMagic
  | .headerStart => .cHeader
  | .headerNode _ => .cHeader
  | .headerPush _ => .cHeader
  | .headerSym _ => .cHeader
  | .headerPop => .cHeader
  | .rewind => .cRewind
  | .encodeRead => .cEncode
  | .encodeByte _ => .cEncode
  | .encodeWrite _ => .cEncode
  | .sentinel => .cSentinel
  | .magicRead => .dMagic
  | .magicField _ => .dMagic
  | .treeClear => .dHeader
  | .treeTag => .dHeader
  | .treeBit _ => .dHeader
  | .treeSym _ => .dHeader
  | .treeLeaf _ _ => .dHeader
  | .treeReturn _ => .dHeader
  | .treeBuild _ _ _ => .dHeader
  | .decodeBit => .dDecode
  | .decodeStep _ => .dDecode
  | .decodeEmit _ => .dDecode
  | .decodeReset => .dDecode
  | .close _ => .closing
  | .finish _ => .closing

/-- The 4-bit value PHASE holds (R17). -/
def Phase.code : Phase → BitVec 4
  | .idle => 0
  | .cCount => 1
  | .cBuild => 2
  | .cCodes => 3
  | .cMagic => 4
  | .cHeader => 5
  | .cRewind => 6
  | .cEncode => 7
  | .cSentinel => 8
  | .dMagic => 9
  | .dHeader => 10
  | .dDecode => 11
  | .closing => 12

/-! ## The register window -/

/-- A register's byte offset from REG_BASE (R18). -/
def Reg.offset : Reg → Nat
  | .cmd => 0x00
  | .status => 0x04
  | .reserved8 => 0x08
  | .reservedC => 0x0C

/-- The register at a byte offset; none where no aligned 32-bit register stands (R18, R45). -/
def regAtOffset (off : Nat) : Option Reg :=
  [Reg.cmd, .status, .reserved8, .reservedC].find? fun r => r.offset = off

/-- The register a bus access of `bytes` bytes at `addr` reaches: an aligned 32-bit access inside the window, or none
(R45, R47). -/
def regAtBus (addr bytes : Nat) : Option Reg :=
  if bytes = 4 ∧ Config.regBase ≤ addr then regAtOffset (addr - Config.regBase) else none

/-! ## Symbols -/

/-- The sentinel, symbol 256 (R8). -/
def sentinelSym : Sym := ⟨Config.sentinel, by decide⟩

/-- The symbol of a byte value (R60). -/
def symOfByte (b : Byte) : Sym := ⟨b.toNat, Nat.lt_of_lt_of_le b.isLt (by decide)⟩

/-- The symbol a 9-bit header field holds; none for 257 to 511 (R58). -/
def symOfField (v : BitVec 9) : Option Sym :=
  if h : v.toNat < Config.alph then some ⟨v.toNat, h⟩ else none

/-- The 9-bit header field of a symbol (R58). -/
def symField (s : Sym) : BitVec 9 := BitVec.ofNat 9 s.val

/-- `bits_8` of a symbol below 256: the byte R104 writes. -/
def symByte (s : Sym) : Byte := BitVec.ofNat 8 s.val

/-- The next symbol in ascending order, none after the sentinel (R71). -/
def nextSym (s : Sym) : Option Sym :=
  if h : s.val + 1 < Config.alph then some ⟨s.val + 1, h⟩ else none

/-! ## Nodes -/

/-- `isLeaf(n)`, KIND = 1 (R11). -/
def Node.isLeaf : Node → Bool
  | .leaf _ _ => true
  | .internal _ _ _ => false

/-- WEIGHT (R23). -/
def Node.weight : Node → Weight
  | .leaf _ w => w
  | .internal w _ _ => w

/-- SYM: a leaf's symbol, 0 in an internal node (R23). -/
def Node.sym : Node → Sym
  | .leaf s _ => s
  | .internal _ _ _ => 0

/-- The child a path bit chooses: 0 left, 1 right; a leaf has none (R10, R23). -/
def Node.child (t : Bool) : Node → Option NodeIdx
  | .leaf _ _ => none
  | .internal _ l r => some (if t then r else l)

/-- The arena index NEXT names, none past the last entry (R23, R25). -/
def arenaSlot (n : BitVec 10) : Option NodeIdx :=
  if h : n.toNat < Config.nodeCap then some ⟨n.toNat, h⟩ else none

/-- The arena index of leaf number NLEAF (R71): a 9-bit number is always one. -/
def leafSlot (n : BitVec 9) : NodeIdx :=
  ⟨n.toNat, Nat.lt_of_lt_of_le n.isLt (by decide)⟩

/-! ## Codes -/

/-- A path as CBITS holds it: bit `i` of the path is bit `i` of the word (R26). -/
def pathWord : Bits → Nat
  | [] => 0
  | b :: p => b.toNat + 2 * pathWord p

/-- `assign`'s effect on an entry: CVALID, CLEN, and the first `len(p)` bits of CBITS; its other bits stay (R78). -/
def Code.assign (c : Code) (p : Bits) : Code :=
  { valid := true
    len := BitVec.ofNat 9 p.length
    bits := ((c.bits >>> p.length) <<< p.length) ||| BitVec.ofNat Config.maxCodeLen (pathWord p) }

/-- `CBITS[s][0 .. CLEN[s]-1]`, first bit first (R59). -/
def Code.path (c : Code) : Bits :=
  (List.range c.len.toNat).map fun i => c.bits.getLsbD i

/-- An entry of the cleared code table (R78). -/
def Code.empty : Code := { valid := false, len := 0, bits := 0 }

/-! ## Streams -/

/-- The bit sequence of a byte stream: bit 7 of byte 0 first (R33). -/
def streamBits (b : List Byte) : Bits := b.flatMap bitsOf

/-- Bytes from bits, eight at a time; a last piece of fewer than eight is no byte (R41). -/
def bytesOf : Bits → List Byte
  | b7 :: b6 :: b5 :: b4 :: b3 :: b2 :: b1 :: b0 :: rest =>
      fieldOf 8 [b7, b6, b5, b4, b3, b2, b1, b0] :: bytesOf rest
  | _ => []

/-- How many 0 bits bring a length to whole bytes (R40, R61). -/
def padLen (n : Nat) : Nat := (8 - n % 8) % 8

end Sys2Proof.Machine
end

