-- ==== Sys2Proof/Machine/Flags.lean ====
section
/-! DEFINITION. STATUS: its word, and every way its fields change (spec/10_state.md R20, R21). Nothing else writes them. -/

namespace Sys2Proof.Machine

/-- STATUS.ERRCODE's number of each error (R107). -/
def ErrCode.code : ErrCode → BitVec 3
  | .none => 0
  | .badMagic => 1
  | .truncatedStream => 2
  | .malformedHeader => 3
  | .inputTooLong => 4
  | .inputMismatch => 5
  | .illegalCommand => 6

/-- The word a read of STATUS returns: [9:8] LASTOP, [6:4] ERRCODE, [2] ERR, [1] DONE, [0] BUSY, every other bit 0 (R20). -/
def Status.word (st : Status) : Word :=
  0#22 ++ st.lastOp ++ 0#1 ++ st.errCode.code ++ 0#1 ++
    BitVec.ofBool st.err ++ BitVec.ofBool st.done ++ BitVec.ofBool st.busy

/-- A legal COMPRESS or DECOMPRESS is accepted (R21, R87). -/
def Status.accept (op : BitVec 2) (_ : Status) : Status :=
  { busy := true, done := false, err := false, errCode := .none, lastOp := op }

/-- An illegal command word is written while idle (R21, R89). -/
def Status.illegal (op : BitVec 2) (_ : Status) : Status :=
  { busy := false, done := true, err := true, errCode := .illegalCommand, lastOp := op }

/-- A command ends: with success when `e` is `none`, else with the error `e`; LASTOP stays (R21, R97, R110). -/
def Status.ended (e : ErrCode) (st : Status) : Status :=
  { st with busy := false, done := true, err := e ≠ .none, errCode := e }

end Sys2Proof.Machine
end

