-- ==== Sys2Proof/Machine/Ops.lean ====
section
/-! DEFINITION. The shared operations: the port primitives (spec/20_memory.md R35 to R40), command acceptance and error
entry (44_compress.md R87, R89, 60_exceptions.md R110), the priority queue (41_tree_builder.md R72), the walk
stack (10_state.md R28), and the two header walks' steps (43_header_codec.md R82, R83). -/

namespace Sys2Proof.Machine

/-- What a step answers. -/
abbrev StepOutcome := Host.Outcome State Fault Refusal

/-! ## IN -/

/-- The bytes IN supplies now: B before the rewind, B2 after it (R34, R36). -/
def InPort.bytes (p : InPort) : List Byte := if p.rewound then p.second else p.first

/-- The bit sequence of IN (R33, R34). -/
def InPort.bits (p : InPort) : Bits := streamBits p.bytes

/-- The bits of IN not consumed yet. -/
def InPort.remaining (p : InPort) : Bits := p.bits.drop p.pos

/-- What a read of IN gives: a field, or EOF, a distinct outcome (R12, R35). -/
inductive Read (n : Nat) where
  | value (v : BitVec n) (p : InPort)
  | eof (p : InPort)
deriving DecidableEq, Repr

/-- `IN.readBits(n)` (R35). -/
def InPort.readBits (n : Nat) (p : InPort) : Read n :=
  if p.pos + n ≤ p.bits.length then .value (fieldOf n (p.remaining.take n)) { p with pos := p.pos + n }
  else .eof { p with pos := p.bits.length }

/-- `IN.rewind()` (R36). -/
def InPort.rewind (p : InPort) : InPort := { p with rewound := true, pos := 0 }

/-- IN at its first bit, supplying what it supplies first (R32). -/
def InPort.restart (p : InPort) : InPort := { p with rewound := false, pos := 0 }

/-! ## OUT -/

/-- `OUT.writeCode(p)`: append a bit sequence, first bit first (R39). -/
def OutPort.append (p : Bits) (o : OutPort) : OutPort := { o with bits := o.bits ++ p }

/-- `OUT.writeBits(n, v)` (R38). -/
def OutPort.writeBits {n : Nat} (v : BitVec n) (o : OutPort) : OutPort := o.append (bitsOf v)

/-- `OUT.close()`: pad with 0 bits to whole bytes and end the stream (R40). -/
def OutPort.close (o : OutPort) : OutPort :=
  { bits := o.bits ++ List.replicate (padLen o.bits.length) false, closed := true }

/-- An empty OUT (R32, R37). -/
def OutPort.fresh : OutPort := { bits := [], closed := false }

/-- The bytes the HOST receives (R41). -/
def OutPort.bytes (o : OutPort) : List Byte := bytesOf o.bits

/-! ## Commands and errors -/

/-- A legal command accepted while idle: STATUS by R87, the ENGINE at the command's first phase, IN at its first bit and
OUT empty (R32; log 9). -/
def acceptCommand (op : BitVec 2) (entry : Seq) (s : State) : State :=
  { s with
    seq := entry
    status := s.status.accept op
    inp := s.inp.restart
    out := OutPort.fresh }

/-- `illegal(op)` (R89): STATUS only. PHASE stays and no port is touched. -/
def illegalCommand (op : BitVec 2) (s : State) : State := { s with status := s.status.illegal op }

/-- A CMD write takes effect only while STATUS.BUSY = 0; while BUSY it is ignored (R87, R90). -/
def whenIdle (f : State → State) (s : State) : StepOutcome :=
  .next (if s.status.busy then s else f s)

/-- `raise E`, the error entry (R110): PHASE becomes CLOSING, and closing will end the command with `E`. The ENGINE's next
two steps close OUT and write STATUS (`closeOut`, `finishCommand`). -/
def raise (e : ErrCode) (s : State) : State := { s with seq := .close e }

/-- The first statement of CLOSING: `OUT.close()` (R97, R110). -/
def closeOut (e : ErrCode) (s : State) : State := { s with out := s.out.close, seq := .finish e }

/-- The end of a command: STATUS, then PHASE = IDLE (R97, R110). There is nothing to return to (R112). -/
def finishCommand (e : ErrCode) (s : State) : State := { s with status := s.status.ended e, seq := .idle }

/-! ## The priority queue -/

/-- Whether arena node `a` comes before `b`: by WEIGHT, then by SEQ, the arena index (R72). -/
def keyLess (nodes : Vector Node Config.nodeCap) (a b : NodeIdx) : Bool :=
  nodes[a].weight < nodes[b].weight || (nodes[a].weight == nodes[b].weight && a < b)

/-- The entry with the smallest key (R72). -/
def pqMin (nodes : Vector Node Config.nodeCap) : List NodeIdx → Option NodeIdx
  | [] => none
  | a :: q =>
    match pqMin nodes q with
    | none => some a
    | some b => some (if keyLess nodes b a then b else a)

/-- `PQ.removeMin()`: the entry with the smallest key, and the queue without it (R72). -/
def pqRemoveMin (nodes : Vector Node Config.nodeCap) (q : List NodeIdx) : Option (NodeIdx × List NodeIdx) :=
  (pqMin nodes q).map fun a => (a, q.erase a)

/-- `PQ.insert(i)` (R71, R73). -/
def pqInsert (i : NodeIdx) (q : List NodeIdx) : List NodeIdx := q ++ [i]

/-! ## The walk stack -/

/-- A call's right subtree is put off: its entry goes on the walk stack, and the ENGINE goes on at `q` (R28, R78, R82). -/
def pushWalk (e : WalkEntry) (q : Seq) (s : State) : State := { s with walk := e :: s.walk, seq := q }

/-- A call has returned: the subtree put off last is next, or, with none left, `q` (R28, R78, R82). -/
def popWalk (visit : WalkEntry → Seq) (q : Seq) (s : State) : State :=
  match s.walk with
  | [] => { s with seq := q }
  | e :: rest => { s with walk := rest, seq := visit e }

/-! ## The header walks -/

/-- HSER at the internal node `NODE[i]`: the tag `0` (R82). -/
def serInternal (i : NodeIdx) (s : State) : State :=
  { s with out := s.out.writeBits (0 : BitVec 1), seq := .headerPush i }

/-- HSER at the leaf `NODE[i]`, first port event: the tag `1` (R82). -/
def serTag (i : NodeIdx) (s : State) : State :=
  { s with out := s.out.writeBits (1 : BitVec 1), seq := .headerSym i }

/-- HSER at a leaf, second port event: the 9-bit symbol; the call returns (R82). -/
def serSym (y : Sym) (s : State) : State := { s with out := s.out.writeBits (symField y), seq := .headerPop }

/-- readTree after a tag: `i <- NEXT; NEXT <- NEXT + 1` (R83). -/
def allocNode (k : NodeIdx → State → StepOutcome) (s : State) : StepOutcome :=
  match arenaSlot s.next with
  | none => .fault .arenaFull
  | some i => k i { s with next := s.next + 1 }

/-- readTree on a `0` tag, at the new node `i`: count it, refuse the 257th, and go on with its left subtree (R83). -/
def desInternal (i : NodeIdx) (s : State) : State :=
  let s' := { s with nint := s.nint + 1 }
  if Config.intCap < s'.nint.toNat then raise .malformedHeader s'
  else { s' with hdes := { node := i, left := none } :: s'.hdes, seq := .treeTag }

/-- readTree at a leaf's symbol: `NODE[i] <- Leaf(v, 0)`, then return `i` (R83). -/
def desLeaf (i : NodeIdx) (y : Sym) (s : State) : State :=
  { s with nodes := s.nodes.set i (.leaf y 0), seq := .treeReturn i }

/-! ## DECODE_STEP -/

/-- Where a payload bit moves CUR: to the root in a degenerate tree (R103), else to the child the bit chooses (R102). -/
def nextCur (t : Bool) (s : State) : Option NodeIdx :=
  if s.nodes[s.root].isLeaf then some s.root else s.nodes[s.cur].child t

/-- DECODE_STEP after CUR has moved: the sentinel's leaf ends decoding (R105), another leaf's byte is written next (R104),
an internal node is descended from (R102). -/
def arrive (c : NodeIdx) (s : State) : State :=
  match s.nodes[c] with
  | .leaf y _ =>
    if y = sentinelSym then { s with cur := c, dstate := .terminal, seq := .decodeBit }
    else { s with cur := c, seq := .decodeEmit (symByte y) }
  | .internal _ _ _ => { s with cur := c, dstate := .descending, seq := .decodeBit }

/-- The payload bit `t`, just read in D_DECODE (R102). -/
def codeBit (t : Bool) (s : State) : StepOutcome :=
  match s.seq with
  | .decodeStep u =>
    if t ≠ u ∨ s.dstate = .terminal then .refused .tokenNotOffered
    else
      match nextCur t s with
      | none => .fault .noChild
      | some c => .next (arrive c s)
  | _ => .refused .tokenNotOffered

end Sys2Proof.Machine
end

