-- ==== Sys2Proof/Machine/Command.lean ====
section
/-! DEFINITION. The command words written to CMD (spec/44_compress.md R87 to R91, 45_decompress.md R99). -/

namespace Sys2Proof.Machine

/-- NOP: no effect at all, idle or busy (R64, R88). -/
def execNop (s : State) : StepOutcome := .next s

/-- COMPRESS: while idle, enters C_COUNT with LASTOP = 01 (R87, R91). The phases that follow are the ENGINE's steps. -/
def execCompress (s : State) : StepOutcome := whenIdle (acceptCommand 1 (.countClear 0)) s

/-- DECOMPRESS: while idle, enters D_MAGIC with LASTOP = 10 (R87, R99). The phases that follow are the ENGINE's steps. -/
def execDecompress (s : State) : StepOutcome := whenIdle (acceptCommand 2 .magicRead) s

/-- CMD_ILLEGAL_OP: while idle, ILLEGAL_COMMAND with LASTOP = 11 (R89). -/
def execCmdIllegalOp (s : State) : StepOutcome := whenIdle (illegalCommand 3) s

/-- CMD_ILLEGAL_RSV: while idle, ILLEGAL_COMMAND with LASTOP = the word's OP field, whatever reserved bits are set (R89). -/
def execCmdIllegalRsv (_r : BitVec 30) (o : BitVec 2) (s : State) : StepOutcome := whenIdle (illegalCommand o) s

end Sys2Proof.Machine
end

