-- ==== Sys2Proof/Machine/Header.lean ====
section
/-! DEFINITION. The marker and the header tokens, written by COMPRESS and read by DECOMPRESS (spec/44_compress.md R93,
45_decompress.md R101, 43_header_codec.md R82, R83). A token presented anywhere else is `tokenNotOffered` (log 18). -/

namespace Sys2Proof.Machine

/-- MAGIC. In C_MAGIC the marker is written (R93); in D_MAGIC the field just read is compared with it, and another value
raises BAD_MAGIC (R101). -/
def execMagic (m : Word) (s : State) : StepOutcome :=
  match s.seq with
  | .magicWrite =>
    if m = Config.huffMagic then .next { s with out := s.out.writeBits m, seq := .headerStart }
    else .refused .tokenNotOffered
  | .magicField f =>
    if m ≠ f then .refused .tokenNotOffered
    else if m = Config.huffMagic then .next { s with seq := .treeClear }
    else .next (raise .badMagic s)
  | _ => .refused .tokenNotOffered

/-- HDR_INTERNAL. In C_HEADER the tag of an internal node is written (R82); in D_HEADER, its tag just read, an internal
node is allocated, and the 257th raises MALFORMED_HEADER (R83). -/
def execHdrInternal (s : State) : StepOutcome :=
  match s.seq with
  | .headerNode i =>
    match s.nodes[i] with
    | .leaf _ _ => .refused .tokenNotOffered
    | .internal _ _ _ => .next (serInternal i s)
  | .treeBit false => allocNode (fun i s' => .next (desInternal i s')) s
  | _ => .refused .tokenNotOffered

/-- HSER writing the token of the leaf `NODE[i]`, which must be the token given: `finish` gets the leaf's symbol (R82). -/
def serLeafToken (sym : BitVec 9) (i : NodeIdx) (finish : Sym → State → State) (s : State) : StepOutcome :=
  match s.nodes[i] with
  | .internal _ _ _ => .refused .tokenNotOffered
  | .leaf y _ => if symField y = sym then .next (finish y s) else .refused .tokenNotOffered

/-- HDES reading a leaf's symbol into `NODE[i]`; a symbol above 256 is not this row's (R83). -/
def desLeafToken (sym : BitVec 9) (i : NodeIdx) (s : State) : StepOutcome :=
  match symOfField sym with
  | none => .refused .tokenNotOffered
  | some y => .next (desLeaf i y s)

/-- HDR_LEAF. In C_HEADER the tag and the 9-bit symbol of a leaf are written (R82); in D_HEADER a leaf is built from them
(R83). The tag and the symbol are two port events, so a step runs the token when the tag is behind it (`headerSym`,
`treeLeaf`); where the token starts (`headerNode`, `treeBit true`) the meaning is the whole token's. -/
def execHdrLeaf (sym : BitVec 9) (s : State) : StepOutcome :=
  match s.seq with
  | .headerNode i => serLeafToken sym i (fun y s' => serSym y (serTag i s')) s
  | .headerSym i => serLeafToken sym i serSym s
  | .treeBit true => allocNode (desLeafToken sym) s
  | .treeLeaf i v => if sym = v then desLeafToken sym i s else .refused .tokenNotOffered
  | _ => .refused .tokenNotOffered

/-- HDR_LEAF_BADSYM: in D_HEADER a symbol above 256 raises MALFORMED_HEADER (R83). HSER never writes one. -/
def execHdrLeafBadsym (sym : BitVec 9) (s : State) : StepOutcome :=
  match symOfField sym with
  | some _ => .refused .tokenNotOffered
  | none =>
    match s.seq with
    | .treeBit true => allocNode (fun _ s' => .next (raise .malformedHeader s')) s
    | .treeLeaf _ v => if sym = v then .next (raise .malformedHeader s) else .refused .tokenNotOffered
    | _ => .refused .tokenNotOffered

end Sys2Proof.Machine
end

