-- ==== Sys2Proof/Machine/Payload.lean ====
section
/-! DEFINITION. Payload bits and the bytes of the two uncompressed streams (spec/40_frequency_counter.md R68,
44_compress.md R95, 45_decompress.md R102 to R105). A token presented anywhere else is `tokenNotOffered` (log 18). -/

namespace Sys2Proof.Machine

/-- CODE_BIT_LEFT: a DECODE_STEP on the bit `0` (R102). -/
def execCodeBitLeft (s : State) : StepOutcome := codeBit false s

/-- CODE_BIT_RIGHT: a DECODE_STEP on the bit `1` (R102). -/
def execCodeBitRight (s : State) : StepOutcome := codeBit true s

/-- COUNT's body for the byte read: NBYTES first, then the length check, then the byte's counter (R68, R111). -/
def countByte (b : Byte) (s : State) : State :=
  let s' := { s with nbytes := s.nbytes + 1 }
  if Config.maxLen < s'.nbytes.toNat then raise .inputTooLong s'
  else { s' with freq := s'.freq.set (symOfByte b) (s'.freq[symOfByte b] + 1), seq := .count }

/-- ENCODE's body for the byte read, up to the write: a byte without a code raises INPUT_MISMATCH, otherwise its code is
written next (R95). -/
def encodeByte (b : Byte) (s : State) : State :=
  if s.codes[symOfByte b].valid then { s with seq := .encodeWrite b } else raise .inputMismatch s

/-- IN_BYTE, just read: counted in C_COUNT (R68), encoded in C_ENCODE (R95). -/
def execInByte (b : Byte) (s : State) : StepOutcome :=
  match s.seq with
  | .countByte c => if b = c then .next (countByte b s) else .refused .tokenNotOffered
  | .encodeByte c => if b = c then .next (encodeByte b s) else .refused .tokenNotOffered
  | _ => .refused .tokenNotOffered

/-- OUT_SYMBOL: the byte of the leaf reached is written; CUR goes back to the root in the next step (`decodeReset`, R104). -/
def execOutSymbol (b : Byte) (s : State) : StepOutcome :=
  match s.seq with
  | .decodeEmit c =>
    if b = c then .next { s with out := s.out.writeBits b, seq := .decodeReset } else .refused .tokenNotOffered
  | _ => .refused .tokenNotOffered

end Sys2Proof.Machine
end

