-- ==== Sys2Proof/Machine/Dispatch.lean ====
section
/-! DEFINITION. One arm per instruction: the meaning of each row of spec/opcode_table.json. -/

namespace Sys2Proof.Machine

def exec (i : Instr) (s : State) : Host.Outcome State Fault Refusal :=
  match i with
  | .nop => Sys2Proof.Machine.execNop s
  | .compress => Sys2Proof.Machine.execCompress s
  | .decompress => Sys2Proof.Machine.execDecompress s
  | .cmdIllegalOp => Sys2Proof.Machine.execCmdIllegalOp s
  | .cmdIllegalRsv r o => Sys2Proof.Machine.execCmdIllegalRsv r o s
  | .magic m => Sys2Proof.Machine.execMagic m s
  | .hdrInternal => Sys2Proof.Machine.execHdrInternal s
  | .hdrLeaf sym => Sys2Proof.Machine.execHdrLeaf sym s
  | .hdrLeafBadsym sym => Sys2Proof.Machine.execHdrLeafBadsym sym s
  | .codeBitLeft => Sys2Proof.Machine.execCodeBitLeft s
  | .codeBitRight => Sys2Proof.Machine.execCodeBitRight s
  | .inByte b => Sys2Proof.Machine.execInByte b s
  | .outSymbol b => Sys2Proof.Machine.execOutSymbol b s

end Sys2Proof.Machine
end

