-- ==== Sys2Proof/Machine/Engine.lean ====
section
/-! DEFINITION. The ENGINE's steps that run no token: clearing tables, BUILD_LEAVES, MERGE, CODEGEN, the walks of HSER and
HDES, REWIND, codes, the way back to the root, and closing. Each is one port event or one table operation (R130; log 6). -/

namespace Sys2Proof.Machine

/-! ## C_COUNT -/

/-- COUNT's first lines: FREQ entry by entry, then NBYTES, to 0 (R68). -/
def countClear (y : Sym) (s : State) : State :=
  let s' := { s with freq := s.freq.set y 0 }
  match nextSym y with
  | some z => { s' with seq := .countClear z }
  | none => { s' with nbytes := 0, seq := .count }

/-- COUNT's end: the sentinel's count is 1 (R68, R69). -/
def countEnd (s : State) : State := { s with freq := s.freq.set sentinelSym 1, seq := .buildClear }

/-! ## C_BUILD -/

/-- BUILD_LEAVES' first lines: PQ empty, no leaf yet (R71). -/
def buildClear (s : State) : State := { s with pq := [], nleaf := 0, seq := .buildLeaf 0 }

/-- BUILD_LEAVES done with symbol `y`: on to the next symbol, or to MERGE with NEXT = L after the sentinel (R71). -/
def buildNext (y : Sym) (s : State) : State :=
  match nextSym y with
  | some z => { s with seq := .buildLeaf z }
  | none => { s with next := s.nleaf.setWidth 10, seq := .merge }

/-- BUILD_LEAVES at symbol `y`: a leaf for a non-zero count (R71). -/
def buildLeaf (y : Sym) (s : State) : State :=
  if 0 < s.freq[y] then
    { s with nodes := s.nodes.set (leafSlot s.nleaf) (.leaf y s.freq[y]), seq := .buildInsert y }
  else buildNext y s

/-- BUILD_LEAVES' `PQ.insert(L); L <- L + 1` for symbol `y` (R71). -/
def buildInsert (y : Sym) (s : State) : State :=
  buildNext y { s with pq := pqInsert (leafSlot s.nleaf) s.pq, nleaf := s.nleaf + 1 }

/-- `PQ.removeMin()`: `k` gets the entry removed and the state with the others (R72, R73). -/
def takeMin (k : NodeIdx → State → State) (s : State) : StepOutcome :=
  match pqRemoveMin s.nodes s.pq with
  | none => .fault .emptyQueue
  | some (a, q) => .next (k a { s with pq := q })

/-- MERGE's loop: the first removal gives `a` where another entry is left, and ROOT where it was the only one (R73). -/
def merge (s : State) : StepOutcome :=
  takeMin (fun a s' =>
    match s'.pq with
    | [] => { s' with root := a, seq := .codesClear 0 }
    | _ :: _ => { s' with seq := .mergeSecond a }) s

/-- MERGE's second removal (R73). -/
def mergeSecond (a : NodeIdx) (s : State) : StepOutcome := takeMin (fun b s' => { s' with seq := .mergeNode a b }) s

/-- MERGE's new node: `NODE[NEXT]`, with the sum of the weights, first removed on the left (R73). -/
def mergeNode (a b : NodeIdx) (s : State) : StepOutcome :=
  match arenaSlot s.next with
  | none => .fault .arenaFull
  | some i =>
    .next { s with
      nodes := s.nodes.set i (.internal (s.nodes[a].weight + s.nodes[b].weight) a b)
      seq := .mergeInsert i }

/-- MERGE's `PQ.insert(NEXT); NEXT <- NEXT + 1` (R73). -/
def mergeInsert (i : NodeIdx) (s : State) : State :=
  { s with pq := pqInsert i s.pq, next := s.next + 1, seq := .merge }

/-! ## C_CODES -/

/-- CODEGEN's first line: the code table to 0, entry by entry (R78). -/
def codesClear (y : Sym) (s : State) : State :=
  let s' := { s with codes := s.codes.set y Code.empty }
  match nextSym y with
  | some z => { s' with seq := .codesClear z }
  | none => { s' with seq := .codesStart }

/-- `assign(s, p)` (R78). -/
def assignCode (y : Sym) (p : Bits) (s : State) : State :=
  { s with codes := s.codes.set y (s.codes[y].assign p) }

/-- CODEGEN at ROOT: a leaf gets the code `0` (R79), another root is walked (R78). -/
def codesStart (s : State) : State :=
  match s.nodes[s.root] with
  | .leaf y _ => { assignCode y [false] s with seq := .magicWrite }
  | .internal _ _ _ => { s with walk := [], seq := .codesNode s.root [] }

/-- `walk(i, p)`: a leaf gets the path; of an internal node the left child is next and the right one is put off (R78). -/
def codesNode (i : NodeIdx) (p : Bits) (s : State) : State :=
  match s.nodes[i] with
  | .leaf y _ => { assignCode y p s with seq := .codesPop }
  | .internal _ l r => pushWalk { node := r, path := p ++ [true] } (.codesNode l (p ++ [false])) s

/-! ## C_HEADER to C_SENTINEL -/

/-- WRITE_HEADER's call `ser(ROOT)` (R82). -/
def headerStart (s : State) : State := { s with walk := [], seq := .headerNode s.root }

/-- HSER below an internal node: the left child is next and the right one is put off (R82). -/
def headerPush (i : NodeIdx) (s : State) : StepOutcome :=
  match s.nodes[i] with
  | .leaf _ _ => .fault .noChild
  | .internal _ l r => .next (pushWalk { node := r, path := [] } (.headerNode l) s)

/-- REWIND (R94). -/
def rewindInput (s : State) : State := { s with inp := s.inp.rewind, seq := .encodeRead }

/-- ENCODE's write of one byte's code (R39, R95). -/
def encodeWrite (b : Byte) (s : State) : State :=
  { s with out := s.out.append s.codes[symOfByte b].path, seq := .encodeRead }

/-- WRITE_SENTINEL, and on to FINISH (R96, R97). -/
def writeSentinel (s : State) : State :=
  { s with out := s.out.append s.codes[sentinelSym].path, seq := .close .none }

/-! ## D_HEADER and D_DECODE -/

/-- READ_HEADER's first lines: NINT and NEXT to 0, no call pending (R83). -/
def treeClear (s : State) : State := { s with nint := 0, next := 0, hdes := [], seq := .treeTag }

/-- A call of readTree returns `j`: to the left subtree of the node on top of the stack, to its right one, whose node is
made next, or, with none pending, as ROOT, where decoding starts (R83, R100). -/
def treeReturn (j : NodeIdx) (s : State) : State :=
  match s.hdes with
  | [] => { s with root := j, dstate := .atRoot, cur := j, seq := .decodeBit }
  | f :: rest =>
    match f.left with
    | none => { s with hdes := { f with left := some j } :: rest, seq := .treeTag }
    | some l => { s with hdes := rest, seq := .treeBuild f.node l j }

/-- readTree's `NODE[i] <- Internal(0, l, r)`, then return `i` (R83). -/
def treeBuild (i l r : NodeIdx) (s : State) : State :=
  { s with nodes := s.nodes.set i (.internal 0 l r), seq := .treeReturn i }

/-- After a byte's output: `CUR <- ROOT; DSTATE <- AT_ROOT` (R104). -/
def decodeReset (s : State) : State := { s with cur := s.root, dstate := .atRoot, seq := .decodeBit }

end Sys2Proof.Machine
end

