-- ==== Sys2Proof/Machine/Fetch.lean ====
section
/-! DEFINITION. Whose turn it is, and what that agent's next step does: a decoded instruction to run, or a step of its
own. -/

namespace Sys2Proof.Machine

/-- What a step does: run a decoded instruction at a state, or answer an outcome by itself. -/
inductive Fetched where
  | run (i : Instr) (s : State)
  | done (o : StepOutcome)

/-- One port event: the ENGINE reads a field of `n` bits of IN and holds it at `hold`; `eof` says what its absence means
(R35). Nothing but IN and the ENGINE's place changes. -/
def readField (n : Nat) (hold : BitVec n → Seq) (eof : State → State) (s : State) : Fetched :=
  match s.inp.readBits n with
  | .value v p => .done (.next { s with inp := p, seq := hold v })
  | .eof p => .done (.next (eof { s with inp := p }))

/-- HDES with a tag read (R83): `0` is the whole token HDR_INTERNAL; after `1` the new node's 9-bit symbol is next. -/
def treeBit (t : Bool) (s : State) : Fetched :=
  if t then .done (allocNode (fun i s' => .next { s' with seq := .treeSym i }) s) else .run .hdrInternal s

/-- HSER's call `ser(i)` (R82): an internal node's token; a leaf's tag, with its symbol next. -/
def serNode (i : NodeIdx) (s : State) : Fetched :=
  match s.nodes[i] with
  | .leaf _ _ => .done (.next (serTag i s))
  | .internal _ _ _ => .run .hdrInternal s

/-- The ENGINE's next step (R91, R99, R130): one port event or one table operation. IDLE does nothing (R120). -/
def engineFetch (s : State) : Fetched :=
  match s.seq with
  | .idle => .done (.next s)
  | .countClear y => .done (.next (countClear y s))
  | .count => readField 8 .countByte (fun s' => { s' with seq := .countEnd }) s
  | .countByte b => .run (.inByte b) s
  | .countEnd => .done (.next (countEnd s))
  | .buildClear => .done (.next (buildClear s))
  | .buildLeaf y => .done (.next (buildLeaf y s))
  | .buildInsert y => .done (.next (buildInsert y s))
  | .merge => .done (merge s)
  | .mergeSecond a => .done (mergeSecond a s)
  | .mergeNode a b => .done (mergeNode a b s)
  | .mergeInsert i => .done (.next (mergeInsert i s))
  | .codesClear y => .done (.next (codesClear y s))
  | .codesStart => .done (.next (codesStart s))
  | .codesNode i p => .done (.next (codesNode i p s))
  | .codesPop => .done (.next (popWalk (fun e => .codesNode e.node e.path) .magicWrite s))
  | .magicWrite => .run (.magic Config.huffMagic) s
  | .headerStart => .done (.next (headerStart s))
  | .headerNode i => serNode i s
  | .headerPush i => .done (headerPush i s)
  | .headerSym i => .run (.hdrLeaf (symField s.nodes[i].sym)) s
  | .headerPop => .done (.next (popWalk (fun e => .headerNode e.node) .rewind s))
  | .rewind => .done (.next (rewindInput s))
  | .encodeRead => readField 8 .encodeByte (fun s' => { s' with seq := .sentinel }) s
  | .encodeByte b => .run (.inByte b) s
  | .encodeWrite b => .done (.next (encodeWrite b s))
  | .sentinel => .done (.next (writeSentinel s))
  | .magicRead => readField 32 .magicField (raise .badMagic) s
  | .magicField m => .run (decodeMagic m) s
  | .treeClear => .done (.next (treeClear s))
  | .treeTag => readField 1 (fun t => .treeBit (t = 1)) (raise .malformedHeader) s
  | .treeBit t => treeBit t s
  | .treeSym i => readField 9 (.treeLeaf i) (raise .malformedHeader) s
  | .treeLeaf _ v => .run (decodeLeafSym v) s
  | .treeReturn j => .done (.next (treeReturn j s))
  | .treeBuild i l r => .done (.next (treeBuild i l r s))
  | .decodeBit =>
    if s.dstate = .terminal then .done (.next { s with seq := .close .none })
    else readField 1 (fun t => .decodeStep (t = 1)) (raise .truncatedStream) s
  | .decodeStep t => .run (decodeCodeBit t) s
  | .decodeEmit b => .run (.outSymbol b) s
  | .decodeReset => .done (.next (decodeReset s))
  | .close e => .done (.next (closeOut e s))
  | .finish e => .done (.next (finishCommand e s))

/-! ## The HOST -/

/-- What a read of a register returns: STATUS's word; CMD and the reserved registers read 0 (R18, R46). -/
def regRead (r : Reg) (s : State) : Word :=
  match r with
  | .cmd => 0
  | .status => s.status.word
  | .reserved8 => 0
  | .reservedC => 0

/-- `RegWrite`: a word written to CMD is decoded at once (R52, R87); STATUS and the reserved registers ignore writes
(R18, R46). -/
def regWrite (r : Reg) (v : Word) (s : State) : Fetched :=
  match r with
  | .cmd => .run (decodeCmd v) s
  | .status => .done (.next s)
  | .reserved8 => .done (.next s)
  | .reservedC => .done (.next s)

/-- The HOST binds a value (R66). -/
def bindValue (v : HostValue) (s : State) : State := { s with host := { s.host with seen := s.host.seen ++ [v] } }

/-- The HOST gives up its first action's place in its program. -/
def dropAction (rest : List HostAction) (s : State) : State := { s with host := { s.host with program := rest } }

/-- RESET: every piece of the block's state takes its reset value; the HOST and the two streams stay as they are, and OUT
is not closed (R30, R121; log 14). -/
def resetBlock (s : State) : State := { State.reset with inp := s.inp, out := s.out, host := s.host }

/-- One action of the HOST, already dropped from its program, except that WAIT comes again while BUSY = 1 (R66, R67). -/
def hostAct (a : HostAction) (rest : List HostAction) (s : State) : Fetched :=
  let s' := dropAction rest s
  match a with
  | .write r v => regWrite r v s'
  | .read r => .done (.next (bindValue (.word (regRead r s')) s'))
  | .busWrite addr bytes v =>
    match regAtBus addr bytes with
    | none => .done (.refused .badRegisterAccess)
    | some r => regWrite r v s'
  | .busRead addr bytes =>
    match regAtBus addr bytes with
    | none => .done (.refused .badRegisterAccess)
    | some r => .done (.next (bindValue (.word (regRead r s')) s'))
  | .connectIn b b2 =>
    if s'.status.busy then .done (.refused .connectWhileBusy)
    else .done (.next { s' with inp := { first := b, second := b2, rewound := false, pos := 0 } })
  | .connectOut =>
    if s'.status.busy then .done (.refused .connectWhileBusy) else .done (.next { s' with out := OutPort.fresh })
  | .takeOut =>
    if s'.status.done then .done (.next (bindValue (.bytes s'.out.bytes) s'))
    else .done (.refused .takeBeforeDone)
  | .wait =>
    let r := bindValue (.word (regRead .status s)) s
    .done (.next (if s.status.busy then r else dropAction rest r))
  | .reset => .done (.next (resetBlock s'))

/-- The HOST's next step; a HOST with no action left does nothing. -/
def hostFetch (s : State) : Fetched :=
  match s.host.program with
  | [] => .done (.next s)
  | a :: rest => hostAct a rest s

/-- Whose turn it is, and the state with that turn taken: the next of `turns`; when none is left, the ENGINE while a
command runs and the HOST otherwise (log 10). -/
def takeTurn (s : State) : Agent × State :=
  match s.host.turns with
  | a :: ts => (a, { s with host := { s.host with turns := ts } })
  | [] => (if s.seq = .idle then .host else .engine, s)

/-- What the next step does. -/
def fetch (s : State) : Fetched :=
  match takeTurn s with
  | (.host, s') => hostFetch s'
  | (.engine, s') => engineFetch s'

/-! ## Placing an instruction -/

/-- The next turn is `a`'s. -/
def giveTurn (a : Agent) (s : State) : State := { s with host := { s.host with turns := a :: s.host.turns } }

/-- The HOST's next action writes `w` to CMD, in the next step. -/
def placeCommand (w : Word) (s : State) : State :=
  giveTurn .host { s with host := { s.host with program := .write .cmd w :: s.host.program } }

/-- The bits of a token stand at the front of IN, padded to whole bytes, and the ENGINE has just read them at a running
command: the token it holds at `q` runs in the next step. -/
def placeToken (p : Bits) (q : Seq) (s : State) : State :=
  giveTurn .engine { s with
    seq := q
    status := { s.status with busy := true, done := false }
    inp := {
      first := bytesOf (p ++ List.replicate (padLen p.length) false)
      second := []
      rewound := false
      pos := p.length } }

/-- A leaf's token: the arena entry NEXT names is allocated, as the leaf's tag leaves it, and its symbol is read (R83). -/
def placeLeaf (sym : BitVec 9) (s : State) : State :=
  match arenaSlot s.next with
  | none => placeToken (true :: bitsOf sym) (.treeLeaf 0 sym) s
  | some i => placeToken (true :: bitsOf sym) (.treeLeaf i sym) { s with next := s.next + 1 }

/-- The state in which the next step fetches and runs exactly `i` (log 16): a command is the HOST's next write; a token of
a stream is the one the ENGINE has just read from IN, in the phase that reads it; OUT_SYMBOL is the byte of a leaf just
reached. -/
def withFetch (i : Instr) (s : State) : State :=
  match i with
  | .nop => placeCommand 0 s
  | .compress => placeCommand 1 s
  | .decompress => placeCommand 2 s
  | .cmdIllegalOp => placeCommand 3 s
  | .cmdIllegalRsv r o => placeCommand (r ++ o) s
  | .magic m => placeToken (bitsOf m) (.magicField m) s
  | .hdrInternal => placeToken [false] (.treeBit false) s
  | .hdrLeaf sym => placeLeaf sym s
  | .hdrLeafBadsym sym => placeLeaf sym s
  | .codeBitLeft => placeToken [false] (.decodeStep false) { s with dstate := .atRoot, cur := s.root }
  | .codeBitRight => placeToken [true] (.decodeStep true) { s with dstate := .atRoot, cur := s.root }
  | .inByte b => placeToken (bitsOf b) (.countByte b) s
  | .outSymbol b => placeToken [] (.decodeEmit b) s

end Sys2Proof.Machine
end

