-- ==== Sys2Proof/Machine/Step.lean ====
section
/-! DEFINITION. One step of the machine: the agent whose turn it is moves; where it reads, writes or is given an
instruction, that instruction runs. -/

namespace Sys2Proof.Machine

/-- What a fetched step answers: the instruction's meaning, or the outcome it already is. -/
def Fetched.outcome : Fetched → StepOutcome
  | .run i s => exec i s
  | .done o => o

/-- One step (R130). -/
def step (s : State) : Host.Outcome State Fault Refusal := (fetch s).outcome

/-- `s` with the instruction that `decodeTableWord` reads placed where the next step fetches it (log 15, log 16); a word
that is no instruction changes nothing. -/
def State.withFetchWord (s : State) (nbits w : Nat) : State :=
  match decodeTableWord nbits w with
  | some i => withFetch i s
  | none => s

end Sys2Proof.Machine
end

