-- ==== Sys2Proof/Safety.lean ====
section
/-! DEFINITION. The terms claims about HUFFCORE use: runs, whose turn it is, the trees of the node arena with their
headers and codes, the order of the phases, and the invariant that keeps every run free of faults. -/

namespace Sys2Proof.Machine

/-! ## Runs -/

/-- `t` is reached from `s` by some number of steps, each answering a next state. -/
inductive Reaches : State → State → Prop where
  | refl (s : State) : Reaches s s
  | step {s t u : State} (h : step s = .next t) (r : Reaches t u) : Reaches s u

/-- The next step is the ENGINE's. -/
def engineTurn (s : State) : Prop := (takeTurn s).1 = .engine

/-- The next step is the HOST's. -/
def hostTurn (s : State) : Prop := (takeTurn s).1 = .host

/-- No turn is set: while a command runs every step is the ENGINE's. -/
def undisturbed (s : State) : Prop := s.host.turns = []

/-- Two states with the same registers of the window, ports and HOST, and the ENGINE at the same place: what the outside
can ever tell apart (R28, R29). -/
def sameOutside (s t : State) : Prop :=
  s.seq = t.seq ∧ s.status = t.status ∧ s.inp = t.inp ∧ s.out = t.out ∧ s.host = t.host

/-- The block's own state is the same; only the HOST's may differ. -/
def sameBlock (s t : State) : Prop := { s with host := t.host } = t

/-- OUT once its bits are padded with 0 bits to whole bytes and it is ended (R40). -/
def endedWith (p : Bits) (o : OutPort) : Prop :=
  ∃ pad, pad < 8 ∧ (p.length + pad) % 8 = 0 ∧ o = { bits := p ++ List.replicate pad false, closed := true }

/-! ## One port event or one table operation -/

/-- Which ports and tables differ between two states: IN, OUT, FREQ, NODE, PQ, the code table, the walk stack, the HDES
stack and the decoder cursor (R6, R22 to R28, R31). -/
def touched (s t : State) : List Bool :=
  [decide (t.inp ≠ s.inp), decide (t.out ≠ s.out), decide (t.freq ≠ s.freq), decide (t.nodes ≠ s.nodes),
    decide (t.pq ≠ s.pq), decide (t.codes ≠ s.codes), decide (t.walk ≠ s.walk), decide (t.hdes ≠ s.hdes),
    decide (¬(t.cur = s.cur ∧ t.dstate = s.dstate))]

/-- IN is as it was, or one `IN.readBits` or `IN.rewind` later (R35, R36). -/
def inEvent (p q : InPort) : Prop :=
  q = p ∨ q = p.rewind ∨ ∃ n ∈ [1, 8, 9, 32], (∃ v, p.readBits n = .value v q) ∨ p.readBits n = .eof q

/-- OUT is as it was, or one `OUT.writeBits`, `OUT.writeCode` or `OUT.close` later (R38, R39, R40). -/
def outEvent (o u : OutPort) : Prop := u = o ∨ u = o.close ∨ ∃ p, u = o.append p

/-- A table with at most one entry written. -/
def oneEntry {α : Type} {n : Nat} (v w : Vector α n) : Prop := ∃ i : Fin n, ∀ j : Fin n, j ≠ i → w[j] = v[j]

/-- A stack as it was, emptied, with one entry more or less, or with its top entry written. -/
def oneStackOp {α : Type} (k m : List α) : Prop :=
  m = k ∨ m = [] ∨ (∃ e, m = e :: k) ∨ (∃ e, k = e :: m) ∨ ∃ e f rest, k = e :: rest ∧ m = f :: rest

/-- PQ as it was, emptied, or after one `insert` or one `removeMin` (R71, R72, R73). -/
def oneQueueOp (nodes : Vector Node Config.nodeCap) (q r : List NodeIdx) : Prop :=
  r = q ∨ r = [] ∨ (∃ i, r = pqInsert i q) ∨ ∃ a, pqRemoveMin nodes q = some (a, r)

/-! ## The token the ENGINE holds -/

/-- The token that the ENGINE has just read, or is to write, and runs in its next step (R62); HSER's tokens depend on the
arena and are said apart. -/
def heldToken : Seq → Option Instr
  | .countByte b => some (.inByte b)
  | .encodeByte b => some (.inByte b)
  | .magicWrite => some (.magic Config.huffMagic)
  | .magicField m => some (.magic m)
  | .treeBit t => if t then none else some .hdrInternal
  | .treeLeaf _ v => some (decodeLeafSym v)
  | .decodeStep t => some (decodeCodeBit t)
  | .decodeEmit b => some (.outSymbol b)
  | _ => none

/-! ## Trees -/

/-- A code tree: shape and symbols, no weights (R11, R85). -/
inductive Tree where
  | leaf (y : Sym)
  | node (l r : Tree)
deriving DecidableEq, Repr

/-- The number of leaves. -/
def Tree.leafCount : Tree → Nat
  | .leaf _ => 1
  | .node l r => l.leafCount + r.leafCount

/-- The number of internal nodes. -/
def Tree.internalCount : Tree → Nat
  | .leaf _ => 0
  | .node l r => l.internalCount + r.internalCount + 1

/-- The symbols of the leaves, left to right. -/
def Tree.symbols : Tree → List Sym
  | .leaf y => [y]
  | .node l r => l.symbols ++ r.symbols

/-- Each leaf's symbol with its path from the root (R10, R78). -/
def Tree.paths : Tree → List (Sym × Bits)
  | .leaf y => [(y, [])]
  | .node l r =>
    l.paths.map (fun e => (e.1, false :: e.2)) ++ r.paths.map (fun e => (e.1, true :: e.2))

/-- Each leaf's symbol with its code: its path, but `0` for the only leaf of a degenerate tree (R78, R79). -/
def Tree.codes : Tree → List (Sym × Bits)
  | .leaf y => [(y, [false])]
  | .node l r => (Tree.node l r).paths

/-- The header: the preorder encoding of the tree (R56, R82). -/
def Tree.header : Tree → Bits
  | .leaf y => true :: bitsOf (symField y)
  | .node l r => false :: (l.header ++ r.header)

/-- Arena entry `i` is the root of the tree `t` (R11, R23). -/
inductive Builds (nodes : Vector Node Config.nodeCap) : NodeIdx → Tree → Prop where
  | leaf {i : NodeIdx} {y : Sym} {w : Weight} (h : nodes[i] = .leaf y w) : Builds nodes i (.leaf y)
  | node {i l r : NodeIdx} {w : Weight} {tl tr : Tree} (h : nodes[i] = .internal w l r)
      (hl : Builds nodes l tl) (hr : Builds nodes r tr) : Builds nodes i (.node tl tr)

/-- The weight of the tree at `i` is right: every internal node's weight is the sum of its children's, every leaf's is its
symbol's count (R75). -/
inductive Weighed (freq : Vector Weight Config.alph) (nodes : Vector Node Config.nodeCap) : NodeIdx → Prop where
  | leaf {i : NodeIdx} {y : Sym} (h : nodes[i] = .leaf y freq[y]) : Weighed freq nodes i
  | node {i l r : NodeIdx} {w : Weight} (h : nodes[i] = .internal w l r)
      (sum : w.toNat = nodes[l].weight.toNat + nodes[r].weight.toNat)
      (hl : Weighed freq nodes l) (hr : Weighed freq nodes r) : Weighed freq nodes i

/-- The symbols with a non-zero count, ascending (R71). -/
def usedSymbols (freq : Vector Weight Config.alph) : List Sym :=
  (List.finRange Config.alph).filter fun y => freq[y] ≠ 0

/-- The number of times a symbol's byte stands in `b` (R69). -/
def countOf (b : List Byte) (y : Sym) : Nat := b.countP fun x => symOfByte x = y

/-! ## Phases -/

/-- The phases that may follow a phase in a run of a command, errors included (R92, R100). -/
def Phase.successors : Phase → List Phase
  | .idle => [.cCount, .dMagic]
  | .cCount => [.cBuild, .closing]
  | .cBuild => [.cCodes]
  | .cCodes => [.cMagic]
  | .cMagic => [.cHeader]
  | .cHeader => [.cRewind]
  | .cRewind => [.cEncode]
  | .cEncode => [.cSentinel, .closing]
  | .cSentinel => [.closing]
  | .dMagic => [.dHeader, .closing]
  | .dHeader => [.dDecode, .closing]
  | .dDecode => [.closing]
  | .closing => [.idle]

/-- The phases in which the ENGINE reads or writes a wire token (R62); a command word has none. -/
def tokenPhases : Instr → List Phase
  | .nop => []
  | .compress => []
  | .decompress => []
  | .cmdIllegalOp => []
  | .cmdIllegalRsv _ _ => []
  | .magic _ => [.cMagic, .dMagic]
  | .hdrInternal => [.cHeader, .dHeader]
  | .hdrLeaf _ => [.cHeader, .dHeader]
  | .hdrLeafBadsym _ => [.dHeader]
  | .codeBitLeft => [.dDecode]
  | .codeBitRight => [.dDecode]
  | .inByte _ => [.cCount, .cEncode]
  | .outSymbol _ => [.dDecode]

/-! ## The invariant -/

/-- STATUS agrees with PHASE and with itself (R20, R21). -/
def StatusOk (s : State) : Prop :=
  (s.status.busy = true ↔ s.seq.phase ≠ .idle) ∧
  (s.status.busy = true → s.status.done = false) ∧
  (s.status.err = false ↔ s.status.errCode = .none)

/-- IN's position is inside IN; OUT is ended exactly between `OUT.close()` and the next connection or command, and in
whole bytes (R31, R40, R50). -/
def PortsOk (s : State) : Prop :=
  s.inp.pos ≤ s.inp.bits.length ∧
  (s.out.closed = true → s.out.bits.length % 8 = 0) ∧
  (s.out.closed = true → s.seq = .idle ∨ ∃ e, s.seq = .finish e) ∧
  (∀ e, s.seq = .finish e → s.out.closed = true)

/-- The tree builder never runs out of queue entries or of arena entries (R71, R73, R75). -/
def QueueOk (s : State) : Prop :=
  match s.seq with
  | .buildClear => s.freq[sentinelSym] ≠ 0
  | .buildLeaf y =>
    s.freq[sentinelSym] ≠ 0 ∧ s.pq.length = s.nleaf.toNat ∧ s.nleaf.toNat ≤ y.val
  | .buildInsert y =>
    s.freq[sentinelSym] ≠ 0 ∧ s.pq.length = s.nleaf.toNat ∧ s.nleaf.toNat ≤ y.val
  | .merge => s.pq ≠ [] ∧ s.next.toNat + s.pq.length ≤ 2 * Config.alph
  | .mergeSecond _ => s.pq ≠ [] ∧ s.next.toNat + s.pq.length + 1 ≤ 2 * Config.alph
  | .mergeNode _ _ => s.next.toNat + s.pq.length + 2 ≤ 2 * Config.alph
  | .mergeInsert _ => s.next.toNat + s.pq.length + 2 ≤ 2 * Config.alph
  | _ => True

/-- How many pending internal nodes still wait for their left subtree's return. -/
def waitingLeft (q : List HdesFrame) : Nat := q.countP fun f => f.left.isNone

/-- A full binary tree's counts, `k` nodes ahead of the tags read, and the bounds of the arena and the HDES stack (R28,
R84). -/
def TreeCounts (k : Nat) (s : State) : Prop :=
  s.next.toNat + waitingLeft s.hdes = 2 * s.nint.toNat + k ∧
  s.nint.toNat ≤ Config.intCap ∧ s.hdes.length ≤ s.nint.toNat

/-- The header reader never runs out of arena or stack entries (R28, R84): a full binary tree's counts. -/
def HeaderOk (s : State) : Prop :=
  match s.seq with
  | .treeTag => TreeCounts 0 s
  | .treeBit _ => TreeCounts 0 s
  | .treeSym _ => TreeCounts 1 s
  | .treeLeaf _ _ => TreeCounts 1 s
  | .treeReturn _ => TreeCounts 1 s
  | .treeBuild _ _ _ => TreeCounts 1 s
  | _ => True

/-- HSER has written a leaf's tag only for a leaf, and an internal node's only for an internal node (R82). -/
def WalkOk (s : State) : Prop :=
  match s.seq with
  | .headerSym i => s.nodes[i].isLeaf = true
  | .headerPush i => s.nodes[i].isLeaf = false
  | _ => True

/-- The root of a degenerate tree or an internal node is at CUR, as a payload bit needs it (R102, R103). -/
def CursorOk (s : State) : Prop :=
  s.dstate ≠ .terminal → s.nodes[s.root].isLeaf = true ∨ s.nodes[s.cur].isLeaf = false

/-- "CUR is always an internal node or the root when a bit is read" (R102), and no bit is read after TERMINAL (R105). -/
def DecodeOk (s : State) : Prop :=
  match s.seq with
  | .decodeBit => CursorOk s
  | .decodeStep _ => CursorOk s ∧ s.dstate ≠ .terminal
  | _ => True

/-- The invariant of HUFFCORE: it holds after reset, every step keeps it, and under it no step faults. -/
def Inv (s : State) : Prop :=
  StatusOk s ∧ PortsOk s ∧ QueueOk s ∧ HeaderOk s ∧ WalkOk s ∧ DecodeOk s

end Sys2Proof.Machine
end

