-- ==== Sys2Proof/Certificates/Slice0/Obligations.lean ====
section
/-! DEFINITION. Statements about HUFFCORE for the provers; each docstring names the rule of spec/ it formalises. -/

open Sys2Proof Sys2Proof.Machine

/-! ## Encodings -/

/-- Every row's bits decode, in the row's context, to the row with every operand (30_encoding.md R53 to R62). -/
def Obligations.DecodeOfEncodeGivesTheInstruction : Prop :=
  ∀ (i : Instr) (rest : Bits), i.wf = true → decode i.ctx (encode i ++ rest) = .token i rest

/-- A token the decoder answers is well-formed and stands in the bits exactly as the encoder writes it (R53 to R62). -/
def Obligations.EncodeOfDecodedTokenGivesItsBits : Prop :=
  ∀ (c : Ctx) (p : Bits) (i : Instr) (rest : Bits), decode c p = .token i rest →
    i.wf = true ∧ i.ctx = c ∧ encode i ++ rest = p

/-- Words and bits of 30_encoding.md R54, R56, R58, R62, each decoded in its own context, and their rows. -/
def Obligations.WordsOfTheTableDecodeToTheirRows : Prop :=
  decode .cmd (bitsOf 0x00000000#32) = .token .nop [] ∧
  decode .cmd (bitsOf 0x00000001#32) = .token .compress [] ∧
  decode .cmd (bitsOf 0x00000002#32) = .token .decompress [] ∧
  decode .cmd (bitsOf 0x00000003#32) = .token .cmdIllegalOp [] ∧
  decode .cmd (bitsOf 0x80000000#32) = .token (.cmdIllegalRsv 0x20000000 0) [] ∧
  decode .magic (bitsOf 0xFACE8201#32) = .token (.magic 0xFACE8201) [] ∧
  decode .header [false, true] = .token .hdrInternal [true] ∧
  decode .header [true, false, false, true, false, false, false, false, false, true] = .token (.hdrLeaf 65) [] ∧
  decode .header [true, true, false, false, false, false, false, false, false, true] = .token (.hdrLeafBadsym 257) [] ∧
  decode .code [false] = .token .codeBitLeft [] ∧
  decode .code [true] = .token .codeBitRight [] ∧
  decode .inByte [false, true, false, false, false, false, false, true] = .token (.inByte 65) [] ∧
  decode .outByte [false, true, false, false, false, false, true, false] = .token (.outSymbol 66) []

/-- The preorder grammar is unambiguous, also before other bits (43_header_codec.md R86). -/
def Obligations.HeaderBitsDetermineTheTree : Prop :=
  ∀ (t u : Tree) (p q : Bits), t.header ++ p = u.header ++ q → t = u ∧ p = q

/-- A header of L leaves has L - 1 internal nodes and 11 L - 1 bits; for L from 1 to 257 that is 10 to 2826 bits
(30_encoding.md R57). -/
def Obligations.HeaderOfLLeavesHasElevenLMinusOneBits : Prop :=
  ∀ t : Tree, t.internalCount = t.leafCount - 1 ∧ t.header.length = 11 * t.leafCount - 1 ∧
    1 ≤ t.leafCount ∧ (t.leafCount ≤ 257 → 10 ≤ t.header.length ∧ t.header.length ≤ 2826)

/-! ## Ports -/

/-- `IN.readBits(n)`: the next n bits, or EOF with the position at the end (20_memory.md R35). -/
def Obligations.ReadBitsTakesTheNextFieldOrAnswersEof : Prop :=
  ∀ (n : Nat) (p : InPort),
    (p.pos + n ≤ p.bits.length ∧ ∃ v : BitVec n, p.readBits n = .value v { p with pos := p.pos + n } ∧
      bitsOf v = (p.bits.drop p.pos).take n) ∨
    (p.bits.length < p.pos + n ∧ p.readBits n = .eof { p with pos := p.bits.length })

/-- `OUT.close()` pads with fewer than 8 bits of 0 to whole bytes and ends OUT; after it the ENGINE writes nothing more
(20_memory.md R40). -/
def Obligations.CloseBringsOutToWholeBytesAndEndsIt : Prop :=
  (∀ o : OutPort, endedWith o.bits o.close) ∧
  (∀ s t : State, Inv s → engineTurn s → s.out.closed = true → step s = .next t → t.out = s.out)

/-- The HOST receives OUT as bytes: byte k is the bits 8k to 8k+7, most significant first (20_memory.md R33, R41). -/
def Obligations.HostReceivesByteKFromBitsEightK : Prop :=
  ∀ o : OutPort, o.bytes.length = o.bits.length / 8 ∧
    ∀ (k : Nat) (h : k < o.bytes.length), bitsOf (o.bytes[k]'h) = (o.bits.drop (8 * k)).take 8

/-- OUT is empty when a command starts, and the ENGINE only appends to it (20_memory.md R37). -/
def Obligations.EngineOnlyAppendsToOut : Prop :=
  (∀ s t : State, engineTurn s → step s = .next t → s.out.bits <+: t.out.bits) ∧
  (∀ s t : State, s.status.busy = false →
    exec .compress s = .next t ∨ exec .decompress s = .next t → t.out.bits = [])

/-- An ENGINE step performs at most one port event or one table operation: it reads or moves IN, or writes or closes OUT,
or changes one table, and no two of these; a port event is one primitive and changes nothing but that port and the
ENGINE's place; a table operation writes one entry, or pushes, pops, inserts or removes one (70_reset_and_hazards.md
R130; that emptying a queue or a stack is one operation is the model's choice, log 6). -/
def Obligations.EngineStepIsOnePortEventOrOneTableOperation : Prop :=
  ∀ s t : State, engineTurn s → step s = .next t →
    (t.inp = s.inp ∨ t.out = s.out) ∧
    (t.inp ≠ s.inp ∨ t.out ≠ s.out → t = { (takeTurn s).2 with seq := t.seq, inp := t.inp, out := t.out }) ∧
    (touched s t).count true ≤ 1 ∧
    inEvent s.inp t.inp ∧ outEvent s.out t.out ∧
    oneEntry s.freq t.freq ∧ oneEntry s.nodes t.nodes ∧ oneEntry s.codes t.codes ∧
    oneQueueOp s.nodes s.pq t.pq ∧ oneStackOp s.walk t.walk ∧ oneStackOp s.hdes t.hdes

/-- A HOST step leaves both ports alone, unless it connects one or an accepted command starts on them
(20_memory.md R49, R32). -/
def Obligations.HostStepTouchesNoPortButToConnectOrStart : Prop :=
  ∀ s t : State, hostTurn s → step s = .next t →
    (t.inp = s.inp ∧ t.out = s.out) ∨
    ∃ a rest, s.host.program = a :: rest ∧
      ((∃ b b2, a = .connectIn b b2 ∧ t.out = s.out) ∨ (a = .connectOut ∧ t.inp = s.inp) ∨
        (s.status.busy = false ∧ t.status.busy = true ∧ (t.seq = .countClear 0 ∨ t.seq = .magicRead) ∧
          t.inp = { s.inp with pos := 0, rewound := false } ∧ t.out = { bits := [], closed := false }))

/-- The rewind goes to the start of the second pass, only from C_REWIND into C_ENCODE, and no other ENGINE step changes
which sequence IN supplies (20_memory.md R36, 44_compress.md R94). -/
def Obligations.RewindStartsTheSecondPassOnlyInCRewind : Prop :=
  (∀ s : State, engineTurn s → s.seq = .rewind →
    step s = .next { (takeTurn s).2 with inp := { s.inp with rewound := true, pos := 0 }, seq := .encodeRead }) ∧
  (∀ s t : State, engineTurn s → step s = .next t → t.inp.rewound ≠ s.inp.rewound →
    s.seq.phase = .cRewind ∧ t.seq.phase = .cEncode)

/-! ## Commands and STATUS -/

/-- A legal command accepted while idle: STATUS, the command's first phase, IN at its first bit, OUT empty, and nothing
else changed (44_compress.md R87; the streams by 20_memory.md R32 and log 9). -/
def Obligations.AcceptedCommandsStartTheirFirstPhase : Prop :=
  ∀ s : State, s.status.busy = false →
    exec .compress s = .next { s with
      seq := .countClear 0
      status := { busy := true, done := false, err := false, errCode := .none, lastOp := 1 }
      inp := { s.inp with pos := 0, rewound := false }
      out := { bits := [], closed := false } } ∧
    exec .decompress s = .next { s with
      seq := .magicRead
      status := { busy := true, done := false, err := false, errCode := .none, lastOp := 2 }
      inp := { s.inp with pos := 0, rewound := false }
      out := { bits := [], closed := false } }

/-- NOP has no effect, whatever the state, and the word 0 is its only encoding (44_compress.md R88). -/
def Obligations.NopHasNoEffect : Prop :=
  (∀ w : Word, decodeCmd w = .nop ↔ w = 0x00000000) ∧ ∀ s : State, exec .nop s = .next s

/-- A command word written while BUSY changes nothing, whatever the word (44_compress.md R90). -/
def Obligations.CommandWhileBusyIsIgnored : Prop :=
  ∀ (w : Word) (s : State), s.status.busy = true → exec (decodeCmd w) s = .next s

/-- A word with OP = 11 or a reserved bit set, written while idle, ends at once with ILLEGAL_COMMAND and the word's OP in
LASTOP; PHASE, the ports and everything else stay (44_compress.md R89). -/
def Obligations.IllegalCommandsEndAtOnce : Prop :=
  ∀ s : State, s.status.busy = false →
    (∀ w : Word, w.extractLsb' 2 30 ≠ 0 ∨ w.extractLsb' 0 2 = 3 →
      exec (decodeCmd w) s = .next { s with status :=
        { busy := false, done := true, err := true, errCode := .illegalCommand, lastOp := w.extractLsb' 0 2 } }) ∧
    exec .cmdIllegalOp s = .next { s with status :=
      { busy := false, done := true, err := true, errCode := .illegalCommand, lastOp := 3 } } ∧
    (∀ (r : BitVec 30) (o : BitVec 2), r ≠ 0 →
      exec (.cmdIllegalRsv r o) s = .next { s with status :=
        { busy := false, done := true, err := true, errCode := .illegalCommand, lastOp := o } })

/-- STATUS as a word: every field at its bits, every reserved bit 0 (10_state.md R20, 60_exceptions.md R107). -/
def Obligations.StatusWordHoldsItsFields : Prop :=
  ∀ st : Status,
    st.word.getLsbD 0 = st.busy ∧ st.word.getLsbD 1 = st.done ∧ st.word.getLsbD 2 = st.err ∧
    st.word.getLsbD 3 = false ∧ st.word.getLsbD 7 = false ∧
    st.word.extractLsb' 8 2 = st.lastOp ∧ st.word.extractLsb' 10 22 = 0 ∧
    (st.word.extractLsb' 4 3).toNat =
      match st.errCode with
      | .none => 0
      | .badMagic => 1
      | .truncatedStream => 2
      | .malformedHeader => 3
      | .inputTooLong => 4
      | .inputMismatch => 5
      | .illegalCommand => 6

/-- STATUS changes only at the points of 10_state.md R21's table, and its two invariants hold in every state a step
leaves when they hold before (with BUSY = 1 exactly while PHASE is not IDLE, R20). -/
def Obligations.StatusChangesOnlyAtItsPoints : Prop :=
  ∀ s t : State, step s = .next t →
    (StatusOk s → StatusOk t) ∧
    (t.status = s.status ∨
      (s.status.busy = false ∧ ∃ op : BitVec 2, (op = 1 ∨ op = 2) ∧
        t.status = { busy := true, done := false, err := false, errCode := .none, lastOp := op }) ∨
      (s.status.busy = false ∧ ∃ op : BitVec 2,
        t.status = { busy := false, done := true, err := true, errCode := .illegalCommand, lastOp := op }) ∨
      (s.seq = .finish .none ∧
        t.status = { s.status with busy := false, done := true, err := false, errCode := .none }) ∨
      (∃ e : ErrCode, e ≠ .none ∧ s.seq = .finish e ∧
        t.status = { s.status with busy := false, done := true, err := true, errCode := e }) ∨
      ((∃ rest, s.host.program = .reset :: rest) ∧ t.status.word = 0))

/-- PHASE moves only in the orders of 44_compress.md R92 and 45_decompress.md R100 (or by RESET), and D_DECODE is entered
with DSTATE = AT_ROOT and CUR = ROOT. -/
def Obligations.PhasesFollowTheirOrder : Prop :=
  ∀ s t : State, StatusOk s → step s = .next t →
    (t.seq.phase = s.seq.phase ∨ t.seq.phase ∈ s.seq.phase.successors ∨
      ((∃ rest, s.host.program = .reset :: rest) ∧ t.seq.phase = .idle)) ∧
    (s.seq.phase ≠ .dDecode → t.seq.phase = .dDecode → t.dstate = .atRoot ∧ t.cur = t.root)

/-- DONE becomes 1 only when `OUT.close()` is over and OUT stays as it is, or by an illegal command (20_memory.md R50,
44_compress.md R89). -/
def Obligations.DoneComesOnlyAfterClose : Prop :=
  ∀ s t : State, Inv s → step s = .next t → s.status.done = false → t.status.done = true →
    (∃ e : ErrCode, s.seq = .finish e ∧ t.out = s.out ∧ t.out.closed = true) ∨
    (t.status.errCode = .illegalCommand ∧ t.seq = .idle ∧ t.out = s.out)

/-- The error entry: from `raise E` the bits written before stay, padded and closed; then STATUS names the error, LASTOP
stays, and the block is idle (60_exceptions.md R110). The end with success is the same with no error (44_compress.md R97).
The last two clauses say the same of the ENGINE's two steps, whatever the HOST does between them. -/
def Obligations.RaisedErrorClosesOutAndReturnsToIdle : Prop :=
  ∀ (e : ErrCode) (s : State),
    (raise e s).seq.phase = .closing ∧
    (undisturbed s → ∃ t : State, Reaches (raise e s) t ∧ endedWith s.out.bits t.out ∧
      t = { s with
        seq := .idle
        status := { s.status with busy := false, done := true, err := decide (e ≠ .none), errCode := e }
        out := t.out }) ∧
    (engineTurn s → s.seq = .close e → ∃ o : OutPort, endedWith s.out.bits o ∧
      step s = .next { (takeTurn s).2 with out := o, seq := .finish e }) ∧
    (engineTurn s → s.seq = .finish e → step s = .next { (takeTurn s).2 with
      seq := .idle
      status := { s.status with busy := false, done := true, err := decide (e ≠ .none), errCode := e } })

/-! ## Tokens -/

/-- MAGIC: written in C_MAGIC (44_compress.md R93), compared once read in D_MAGIC (45_decompress.md R101); nothing else
changes. -/
def Obligations.MagicIsWrittenAndCompared : Prop :=
  ∀ s : State,
    (s.seq = .magicWrite → exec (.magic Config.huffMagic) s = .next { s with
      out := { s.out with bits := s.out.bits ++ bitsOf Config.huffMagic }, seq := .headerStart }) ∧
    (s.seq = .magicField Config.huffMagic →
      exec (.magic Config.huffMagic) s = .next { s with seq := .treeClear }) ∧
    (∀ m : Word, s.seq = .magicField m → m ≠ Config.huffMagic →
      exec (.magic m) s = .next { s with seq := .close .badMagic })

/-- READ_MAGIC: DECOMPRESS of an input that starts with the marker reads its 32 bits and moves to D_HEADER; of any other
input, also of one shorter than 4 bytes, it ends with BAD_MAGIC and no output (45_decompress.md R101). -/
def Obligations.ReadMagicAcceptsOnlyTheMarker : Prop :=
  ∀ s : State, s.status.busy = false → undisturbed s →
    (bitsOf Config.huffMagic <+: streamBits s.inp.first →
      ∃ t u : State, exec .decompress s = .next t ∧ Reaches t u ∧ u = { t with
        seq := .treeClear, inp := { t.inp with pos := 32 } } ∧ u.seq.phase = .dHeader) ∧
    (¬ bitsOf Config.huffMagic <+: streamBits s.inp.first →
      ∃ t u : State, exec .decompress s = .next t ∧ Reaches t u ∧ u.seq = .idle ∧ u.out.bits = [] ∧
        u.status = { busy := false, done := true, err := true, errCode := .badMagic, lastOp := 2 })

/-- HDR_INTERNAL: HSER writes `0`, then puts the right subtree off and goes on with the left (43_header_codec.md R82); HDES,
the tag just read, allocates and counts an internal node, and the 257th raises MALFORMED_HEADER (R83). Nothing else
changes. -/
def Obligations.HdrInternalIsWrittenAndRead : Prop :=
  ∀ s : State,
    (∀ (i l r : NodeIdx) (w : Weight), s.nodes[i] = .internal w l r →
      (s.seq = .headerNode i → exec .hdrInternal s = .next { s with
        out := { s.out with bits := s.out.bits ++ [false] }, seq := .headerPush i }) ∧
      (engineTurn s → s.seq = .headerPush i → step s = .next { (takeTurn s).2 with
        walk := { node := r, path := [] } :: s.walk, seq := .headerNode l })) ∧
    (∀ i : NodeIdx, s.seq = .treeBit false → s.next.toNat = i.val → s.nint.toNat < 256 →
      exec .hdrInternal s = .next { s with
        next := s.next + 1, nint := s.nint + 1, hdes := { node := i, left := none } :: s.hdes, seq := .treeTag }) ∧
    (∀ i : NodeIdx, s.seq = .treeBit false → s.next.toNat = i.val → s.nint.toNat = 256 →
      exec .hdrInternal s = .next { s with
        next := s.next + 1, nint := s.nint + 1, seq := .close .malformedHeader })

/-- HDR_LEAF: HSER writes the symbol after the tag, or the whole token at its start, and goes on with the subtree put off
last (43_header_codec.md R82); HDES builds a leaf of weight 0 and returns it, from its symbol or from its token's tag
(R83). Nothing else changes. -/
def Obligations.HdrLeafIsWrittenAndRead : Prop :=
  ∀ (s : State) (y : Sym),
    (∀ (i : NodeIdx) (w : Weight), s.nodes[i] = .leaf y w →
      (s.seq = .headerSym i → exec (.hdrLeaf (symField y)) s = .next { s with
        out := { s.out with bits := s.out.bits ++ bitsOf (BitVec.ofNat 9 y.val) }, seq := .headerPop }) ∧
      (s.seq = .headerNode i → exec (.hdrLeaf (symField y)) s = .next { s with
        out := { s.out with bits := s.out.bits ++ (true :: bitsOf (BitVec.ofNat 9 y.val)) }, seq := .headerPop })) ∧
    (∀ (e : WalkEntry) (rest : List WalkEntry), engineTurn s → s.seq = .headerPop → s.walk = e :: rest →
      step s = .next { (takeTurn s).2 with walk := rest, seq := .headerNode e.node }) ∧
    (∀ i : NodeIdx, s.seq = .treeLeaf i (symField y) → exec (.hdrLeaf (symField y)) s = .next { s with
      nodes := s.nodes.set i (.leaf y 0), seq := .treeReturn i }) ∧
    (∀ i : NodeIdx, s.seq = .treeBit true → s.next.toNat = i.val → exec (.hdrLeaf (symField y)) s = .next { s with
      nodes := s.nodes.set i (.leaf y 0), next := s.next + 1, seq := .treeReturn i })

/-- HDR_LEAF_BADSYM: in a header read by HDES a symbol of 257 to 511 raises MALFORMED_HEADER (43_header_codec.md R83). -/
def Obligations.HdrLeafBadsymRaisesMalformedHeader : Prop :=
  ∀ (s : State) (v : BitVec 9), 257 ≤ v.toNat →
    (∀ i : NodeIdx, s.seq = .treeLeaf i v →
      exec (.hdrLeafBadsym v) s = .next { s with seq := .close .malformedHeader }) ∧
    (s.seq = .treeBit true → s.next.toNat < 513 →
      exec (.hdrLeafBadsym v) s = .next { s with next := s.next + 1, seq := .close .malformedHeader })

/-- CODE_BIT_LEFT and CODE_BIT_RIGHT, just read, under an internal root: CUR moves to the left or the right child; an
internal node is descended from, the sentinel's leaf is TERMINAL, another leaf's byte is written next; no port is touched
(45_decompress.md R102). -/
def Obligations.CodeBitsMoveToTheChosenChild : Prop :=
  ∀ (s : State) (w w' : Weight) (l r l' r' : NodeIdx),
    s.dstate ≠ .terminal →
    s.nodes[s.root] = .internal w' l' r' → s.nodes[s.cur] = .internal w l r →
    (s.seq = .decodeStep false → exec .codeBitLeft s = .next (
      match s.nodes[l] with
      | .internal _ _ _ => { s with cur := l, dstate := .descending, seq := .decodeBit }
      | .leaf y _ =>
        if y.val = 256 then { s with cur := l, dstate := .terminal, seq := .decodeBit }
        else { s with cur := l, seq := .decodeEmit (BitVec.ofNat 8 y.val) })) ∧
    (s.seq = .decodeStep true → exec .codeBitRight s = .next (
      match s.nodes[r] with
      | .internal _ _ _ => { s with cur := r, dstate := .descending, seq := .decodeBit }
      | .leaf y _ =>
        if y.val = 256 then { s with cur := r, dstate := .terminal, seq := .decodeBit }
        else { s with cur := r, seq := .decodeEmit (BitVec.ofNat 8 y.val) }))

/-- A degenerate tree: one payload bit of either value reaches the root leaf (45_decompress.md R103). With the sentinel
there, decoding ends after that bit; with no bit left it ends with TRUNCATED_STREAM. -/
def Obligations.DegenerateTreeIsDecodedByOneBit : Prop :=
  ∀ (s : State) (y : Sym) (w : Weight), s.dstate ≠ .terminal → s.nodes[s.root] = .leaf y w →
    (∀ b : Bool, s.seq = .decodeStep b →
      (y.val = 256 →
        exec (decodeCodeBit b) s = .next { s with cur := s.root, dstate := .terminal, seq := .decodeBit }) ∧
      (y.val ≠ 256 →
        exec (decodeCodeBit b) s = .next { s with cur := s.root, seq := .decodeEmit (BitVec.ofNat 8 y.val) })) ∧
    (undisturbed s → s.seq = .decodeBit → y.val = 256 → ∀ (b : Bool) (rest : Bits), s.inp.remaining = b :: rest →
      ∃ t : State, Reaches s t ∧ t.seq = .idle ∧ t.inp.remaining = rest ∧ endedWith s.out.bits t.out ∧
        t.status = { s.status with busy := false, done := true, err := false, errCode := .none }) ∧
    (undisturbed s → s.seq = .decodeBit → s.inp.remaining = [] →
      ∃ t : State, Reaches s t ∧ t.seq = .idle ∧ endedWith s.out.bits t.out ∧
        t.status = { s.status with busy := false, done := true, err := true, errCode := .truncatedStream })

/-- IN_BYTE, just read: counted in C_COUNT, where byte MAX_LEN + 1 raises INPUT_TOO_LONG before it is counted
(40_frequency_counter.md R68, 60_exceptions.md R111); in C_ENCODE its code is written next, and a byte without a code
raises INPUT_MISMATCH (44_compress.md R95). Nothing else changes. -/
def Obligations.InByteIsCountedOrEncoded : Prop :=
  ∀ (s : State) (b : Byte),
    (s.seq = .countByte b → s.nbytes.toNat < 2 ^ 32 - 2 → exec (.inByte b) s = .next { s with
      nbytes := s.nbytes + 1
      freq := s.freq.set (symOfByte b) (s.freq[symOfByte b] + 1)
      seq := .count }) ∧
    (s.seq = .countByte b → s.nbytes.toNat = 2 ^ 32 - 2 → exec (.inByte b) s = .next { s with
      nbytes := s.nbytes + 1, seq := .close .inputTooLong }) ∧
    (s.seq = .encodeByte b → s.codes[symOfByte b].valid = true →
      exec (.inByte b) s = .next { s with seq := .encodeWrite b }) ∧
    (s.seq = .encodeByte b → s.codes[symOfByte b].valid = false →
      exec (.inByte b) s = .next { s with seq := .close .inputMismatch })

/-- OUT_SYMBOL: the byte's 8 bits are appended to OUT, and the ENGINE's next step puts the traversal back at the root
(45_decompress.md R102, R104). -/
def Obligations.OutSymbolWritesTheByteAndReturnsToTheRoot : Prop :=
  ∀ s : State,
    (∀ b : Byte, s.seq = .decodeEmit b →
      exec (.outSymbol b) s = .next { s with
        out := { s.out with bits := s.out.bits ++ bitsOf b }, seq := .decodeReset }) ∧
    (engineTurn s → s.seq = .decodeReset →
      step s = .next { (takeTurn s).2 with cur := s.root, dstate := .atRoot, seq := .decodeBit })

/-- A wire token outside the phases that read or write it has no meaning in the spec; the model refuses it by name (the
model's choice, log 18). -/
def Obligations.WireTokenOutsideItsPhasesIsRefused : Prop :=
  ∀ (i : Instr) (s : State), i.ctx ≠ .cmd → s.seq.phase ∉ tokenPhases i →
    exec i s = .refused .tokenNotOffered

/-- A field that IN cannot supply: BAD_MAGIC at the marker, MALFORMED_HEADER in the header, TRUNCATED_STREAM in the
payload, the end of a pass in C_COUNT and C_ENCODE; IN is at its end, OUT is untouched (R68, R83, R95, R101, R102). At the
end of pass 1 the next step sets the sentinel's count to 1 (R69). -/
def Obligations.EndOfInputMeansWhatEachPhaseSays : Prop :=
  ∀ s : State, engineTurn s →
    let s' := { (takeTurn s).2 with inp := { s.inp with pos := s.inp.bits.length } }
    (s.seq = .magicRead → s.inp.remaining.length < 32 → step s = .next { s' with seq := .close .badMagic }) ∧
    (s.seq = .treeTag → s.inp.remaining.length < 1 → step s = .next { s' with seq := .close .malformedHeader }) ∧
    (∀ i : NodeIdx, s.seq = .treeSym i → s.inp.remaining.length < 9 →
      step s = .next { s' with seq := .close .malformedHeader }) ∧
    (s.seq = .decodeBit → s.dstate ≠ .terminal → s.inp.remaining.length < 1 →
      step s = .next { s' with seq := .close .truncatedStream }) ∧
    (s.seq = .count → s.inp.remaining.length < 8 → step s = .next { s' with seq := .countEnd }) ∧
    (s.seq = .countEnd → step s = .next { (takeTurn s).2 with freq := s.freq.set 256 1, seq := .buildClear }) ∧
    (s.seq = .encodeRead → s.inp.remaining.length < 8 → step s = .next { s' with seq := .sentinel })

/-! ## A step runs the decoded instruction -/

/-- What a step fetches is what it runs: a word the HOST writes to CMD, at once; a token of IN that the ENGINE's read, a
step before, decoded in the context of its phase and holds (a header leaf's tag is a read of its own, and allocates the
leaf's entry); the marker and OUT_SYMBOL, which the ENGINE writes; the header token of the node that HSER is at. -/
def Obligations.StepRunsTheDecodedInstruction : Prop :=
  ∀ s : State,
    (∀ (w : Word) (rest : List HostAction) (i : Instr),
      hostTurn s → s.host.program = .write .cmd w :: rest → decode .cmd (bitsOf w) = .token i [] →
      step s = exec i (dropAction rest (takeTurn s).2)) ∧
    (engineTurn s →
      (∀ i : Instr, heldToken s.seq = some i → step s = exec i (takeTurn s).2) ∧
      (∀ (j l r : NodeIdx) (w : Weight), s.seq = .headerNode j → s.nodes[j] = .internal w l r →
        step s = exec .hdrInternal (takeTurn s).2) ∧
      (∀ (j : NodeIdx) (y : Sym) (w : Weight), s.seq = .headerSym j → s.nodes[j] = .leaf y w →
        step s = exec (.hdrLeaf (symField y)) (takeTurn s).2) ∧
      (∀ j : NodeIdx, s.seq = .treeBit true → s.next.toNat = j.val →
        step s = .next { (takeTurn s).2 with next := s.next + 1, seq := .treeSym j }) ∧
      let holding := fun (n : Nat) (q : Seq) =>
        { (takeTurn s).2 with inp := { s.inp with pos := s.inp.pos + n }, seq := q }
      ∀ rest : Bits,
        (∀ m : Word, s.seq = .magicRead → decode .magic s.inp.remaining = .token (.magic m) rest →
          step s = .next (holding 32 (.magicField m))) ∧
        (∀ b : Byte, s.seq = .count → decode .inByte s.inp.remaining = .token (.inByte b) rest →
          step s = .next (holding 8 (.countByte b))) ∧
        (∀ b : Byte, s.seq = .encodeRead → decode .inByte s.inp.remaining = .token (.inByte b) rest →
          step s = .next (holding 8 (.encodeByte b))) ∧
        (∀ b : Bool, s.seq = .decodeBit → s.dstate ≠ .terminal →
          decode .code s.inp.remaining = .token (decodeCodeBit b) rest → step s = .next (holding 1 (.decodeStep b))) ∧
        (s.seq = .treeTag → decode .header s.inp.remaining = .token .hdrInternal rest →
          step s = .next (holding 1 (.treeBit false))) ∧
        (s.seq = .treeTag → s.inp.remaining.head? = some true → step s = .next (holding 1 (.treeBit true))) ∧
        (∀ (j : NodeIdx) (v : BitVec 9), s.seq = .treeSym j →
          decode .header (true :: s.inp.remaining) = .token (decodeLeafSym v) rest →
          step s = .next (holding 9 (.treeLeaf j v))))

/-- The two port events of a header leaf's token make the token: what HDES does on the tag and then on the symbol, and
what HSER does on the tag and then on the symbol, is the instruction at the token's start (43_header_codec.md R82, R83). -/
def Obligations.HeaderLeafTagAndSymbolMakeTheToken : Prop :=
  (∀ (s : State) (v : BitVec 9) (i : NodeIdx), s.seq = .treeBit true → s.next.toNat = i.val →
    exec (.hdrLeaf v) s = exec (.hdrLeaf v) { s with next := s.next + 1, seq := .treeLeaf i v } ∧
    exec (.hdrLeafBadsym v) s = exec (.hdrLeafBadsym v) { s with next := s.next + 1, seq := .treeLeaf i v }) ∧
  (∀ (s : State) (y : Sym) (w : Weight) (i : NodeIdx),
    engineTurn s → s.seq = .headerNode i → s.nodes[i] = .leaf y w →
    step s = .next { (takeTurn s).2 with
      out := { s.out with bits := s.out.bits ++ [true] }, seq := .headerSym i } ∧
    exec (.hdrLeaf (symField y)) s = exec (.hdrLeaf (symField y)) { s with
      out := { s.out with bits := s.out.bits ++ [true] }, seq := .headerSym i })

/-! ## Reset and the HOST -/

/-- After reset PHASE is IDLE and STATUS reads 0x00000000 with every field 0; CMD and the reserved registers read 0
(10_state.md R30, R18); a command is accepted (70_reset_and_hazards.md R121). -/
def Obligations.ResetIsIdleWithStatusZero : Prop :=
  State.reset.seq.phase = .idle ∧ State.reset.status.word = 0 ∧
  State.reset.status = { busy := false, done := false, err := false, errCode := .none, lastOp := 0 } ∧
  (∀ r : Reg, regRead r State.reset = 0) ∧
  (∃ t : State, exec .compress State.reset = .next t ∧ t.seq.phase = .cCount) ∧
  (∃ t : State, exec .decompress State.reset = .next t ∧ t.seq.phase = .dMagic)

/-- RESET at any time: idle, STATUS 0, no port touched, OUT not closed; the HOST goes on (70_reset_and_hazards.md R121;
that the streams stay connected is the model's choice, log 14). -/
def Obligations.ResetAbandonsTheCommand : Prop :=
  ∀ (s : State) (rest : List HostAction), hostTurn s → s.host.program = .reset :: rest →
    ∃ t : State, step s = .next t ∧ t.seq = .idle ∧ t.status.word = 0 ∧ t.inp = s.inp ∧ t.out = s.out ∧
      t.host = { (takeTurn s).2.host with program := rest }

/-- A read of STATUS returns STATUS, a read of any other register 0; a write to any register but CMD is ignored
(10_state.md R18, 20_memory.md R46). -/
def Obligations.RegisterReadsAndIgnoredWrites : Prop :=
  ∀ (s : State) (rest : List HostAction) (r : Reg), hostTurn s →
    (s.host.program = .read r :: rest → step s = .next { s with host :=
      { program := rest, turns := (takeTurn s).2.host.turns
        seen := s.host.seen ++ [.word (if r = .status then s.status.word else 0)] } }) ∧
    (∀ v : Word, r ≠ .cmd → s.host.program = .write r v :: rest → step s = .next { s with host :=
      { program := rest, turns := (takeTurn s).2.host.turns, seen := s.host.seen } })

/-- A bus access is a register access exactly when it is 4 bytes wide at offset 0x00, 0x04, 0x08 or 0x0C of the window;
any other is refused (20_memory.md R45, 70_reset_and_hazards.md R127). -/
def Obligations.OnlyAlignedWordAccessesReachARegister : Prop :=
  ∀ (s : State) (rest : List HostAction) (addr bytes : Nat) (v : Word), hostTurn s →
    (¬ (bytes = 4 ∧ ∃ off ∈ [0x00, 0x04, 0x08, 0x0C], addr = Config.regBase + off) →
      (s.host.program = .busWrite addr bytes v :: rest → step s = .refused .badRegisterAccess) ∧
      (s.host.program = .busRead addr bytes :: rest → step s = .refused .badRegisterAccess)) ∧
    (∀ r : Reg, bytes = 4 → addr = Config.regBase + r.offset →
      (s.host.program = .busWrite addr bytes v :: rest →
        step s = step { s with host := { s.host with program := .write r v :: rest } }) ∧
      (s.host.program = .busRead addr bytes :: rest →
        step s = step { s with host := { s.host with program := .read r :: rest } }))

/-- The host assembly of 30_encoding.md R66 and R67: CONNECT while no command runs, TAKE OUT once DONE = 1, WAIT; a CONNECT
while BUSY (70_reset_and_hazards.md R124) and a TAKE OUT before DONE are refused (the model's choices, log 11, log 12). -/
def Obligations.ConnectTakeAndWaitDoWhatTheHostAsks : Prop :=
  ∀ (s : State) (rest : List HostAction), hostTurn s →
    let s' := dropAction rest (takeTurn s).2
    (∀ b b2 : List Byte, s.host.program = .connectIn b b2 :: rest →
      step s = if s.status.busy then .refused .connectWhileBusy
        else .next { s' with inp := { first := b, second := b2, rewound := false, pos := 0 } }) ∧
    (s.host.program = .connectOut :: rest →
      step s = if s.status.busy then .refused .connectWhileBusy
        else .next { s' with out := { bits := [], closed := false } }) ∧
    (s.host.program = .takeOut :: rest →
      step s = if s.status.done then .next { s' with host := { s'.host with seen := s.host.seen ++ [.bytes s.out.bytes] } }
        else .refused .takeBeforeDone) ∧
    (s.host.program = .wait :: rest →
      step s = .next { s with host :=
        { program := if s.status.busy then .wait :: rest else rest
          turns := (takeTurn s).2.host.turns
          seen := s.host.seen ++ [.word s.status.word] } })

/-- While a command runs, no HOST step but RESET changes anything of the block (20_memory.md R46, 44_compress.md R90). -/
def Obligations.HostCannotDisturbARunningCommand : Prop :=
  ∀ s t : State, s.status.busy = true → hostTurn s → (∀ rest, s.host.program ≠ .reset :: rest) →
    step s = .next t → sameBlock s t

/-! ## The invariant -/

/-- Reset meets the invariant. That PHASE is IDLE and STATUS 0 is 10_state.md R30; that IN is at position 0 and OUT not
ended (the invariant's part about the ports) is the model's choice, since R30 leaves the streams to the HOST (log 8). -/
def Obligations.ResetMeetsTheInvariant : Prop := Inv State.reset

/-- Every step keeps the invariant: STATUS agrees with PHASE, OUT is ended in whole bytes, the queue, the arena and the
HDES stack keep their bounds (R20, R21, R28, R40, R84). -/
def Obligations.EveryStepKeepsTheInvariant : Prop :=
  ∀ s t : State, Inv s → step s = .next t → Inv t

/-- Under the invariant no step faults and no wire token is out of place: a step answers a next state, but for the three
HOST actions the spec gives no meaning to. -/
def Obligations.InvariantExcludesEveryFault : Prop :=
  ∀ s : State, Inv s →
    (∃ t : State, step s = .next t) ∨
    (hostTurn s ∧ (step s = .refused .badRegisterAccess ∨ step s = .refused .connectWhileBusy ∨
      step s = .refused .takeBeforeDone))

/-- "The unspecified values cannot be observed" (10_state.md R30): two idle states that differ only in the internal tables
have the same runs, as the ports, STATUS and the HOST see them; no value carries from one command to the next (R29). -/
def Obligations.InternalTablesCannotBeObserved : Prop :=
  ∀ s t s' : State, s.seq = .idle → sameOutside s t → Reaches s s' →
    ∃ t' : State, Reaches t t' ∧ sameOutside s' t'

/-! ## COMPRESS, phase by phase -/

/-- COUNT of B: FREQ holds each byte's count and 1 for the sentinel, NBYTES is the length; byte number MAX_LEN + 1
raises INPUT_TOO_LONG. OUT is not touched (40_frequency_counter.md R68, R69). -/
def Obligations.CountLeavesEachBytesCount : Prop :=
  ∀ s : State, s.seq = .countClear 0 → undisturbed s → s.inp.rewound = false → s.inp.pos = 0 →
    (s.inp.first.length ≤ 2 ^ 32 - 2 →
      ∃ t : State, Reaches s t ∧ t.seq = .buildClear ∧ t.freq[sentinelSym] = 1 ∧
        (∀ b : Byte, t.freq[symOfByte b].toNat = s.inp.first.count b) ∧
        t.nbytes.toNat = s.inp.first.length ∧
        t = { s with
          seq := .buildClear, freq := t.freq, nbytes := t.nbytes
          inp := { s.inp with pos := 8 * s.inp.first.length } }) ∧
    (2 ^ 32 - 2 < s.inp.first.length →
      ∃ t : State, Reaches s t ∧ t.seq = .close .inputTooLong ∧ t.inp = { s.inp with pos := 8 * (2 ^ 32 - 1) } ∧
        t.out = s.out ∧ t.status = s.status)

/-- BUILD_LEAVES: one leaf per symbol with a non-zero count, in ascending order, with its count, at arena index and
sequence number k; PQ holds them all; NLEAF and NEXT are their number (41_tree_builder.md R71). -/
def Obligations.BuildLeavesMakesALeafPerUsedSymbol : Prop :=
  ∀ s : State, s.seq = .buildClear → undisturbed s →
    ∃ t : State, Reaches s t ∧
      t = { s with
        seq := .merge, nodes := t.nodes, pq := t.pq, nleaf := t.nleaf, next := t.next } ∧
      t.nleaf.toNat = (usedSymbols s.freq).length ∧ t.next.toNat = (usedSymbols s.freq).length ∧
      t.pq.map Fin.val = List.range (usedSymbols s.freq).length ∧
      (∀ (i : NodeIdx) (h : i.val < (usedSymbols s.freq).length),
        t.nodes[i] = .leaf ((usedSymbols s.freq)[i.val]'h) s.freq[(usedSymbols s.freq)[i.val]'h]) ∧
      ∀ i : NodeIdx, (usedSymbols s.freq).length ≤ i.val → t.nodes[i] = s.nodes[i]

/-- PQ.removeMin takes the entry with the least (WEIGHT, SEQ), compared lexicographically and unsigned, and leaves the
others (41_tree_builder.md R72). -/
def Obligations.RemoveMinTakesTheLeastKey : Prop :=
  ∀ (nodes : Vector Node Config.nodeCap) (q : List NodeIdx),
    (pqRemoveMin nodes q = none ↔ q = []) ∧
    ∀ (a : NodeIdx) (q' : List NodeIdx), pqRemoveMin nodes q = some (a, q') →
      a ∈ q ∧ q' = q.erase a ∧
      ∀ b ∈ q, nodes[a].weight.toNat < nodes[b].weight.toNat ∨
        (nodes[a].weight.toNat = nodes[b].weight.toNat ∧ a.val ≤ b.val)

/-- One round of MERGE, step by step and as a run: the two least entries become the left (first removed) and right child of
a new node with the sum of their weights, at arena index NEXT, which is inserted; a single entry is the root
(41_tree_builder.md R73). -/
def Obligations.MergeRoundJoinsTheTwoLeast : Prop :=
  ∀ s : State,
    (engineTurn s →
      (∀ (a : NodeIdx) (q : List NodeIdx), s.seq = .merge → pqRemoveMin s.nodes s.pq = some (a, q) → q ≠ [] →
        step s = .next { (takeTurn s).2 with pq := q, seq := .mergeSecond a }) ∧
      (∀ (a b : NodeIdx) (q : List NodeIdx), s.seq = .mergeSecond a → pqRemoveMin s.nodes s.pq = some (b, q) →
        step s = .next { (takeTurn s).2 with pq := q, seq := .mergeNode a b }) ∧
      (∀ a b i : NodeIdx, s.seq = .mergeNode a b → s.next.toNat = i.val →
        step s = .next { (takeTurn s).2 with
          nodes := s.nodes.set i (.internal (s.nodes[a].weight + s.nodes[b].weight) a b), seq := .mergeInsert i }) ∧
      (∀ i : NodeIdx, s.seq = .mergeInsert i →
        step s = .next { (takeTurn s).2 with pq := s.pq ++ [i], next := s.next + 1, seq := .merge }) ∧
      (∀ a : NodeIdx, s.seq = .merge → s.pq = [a] →
        step s = .next { (takeTurn s).2 with root := a, pq := [], seq := .codesClear 0 })) ∧
    (undisturbed s → s.seq = .merge → ∀ (a b i : NodeIdx) (q q' : List NodeIdx),
      pqRemoveMin s.nodes s.pq = some (a, q) → pqRemoveMin s.nodes q = some (b, q') → s.next.toNat = i.val →
      Reaches s { s with
        nodes := s.nodes.set i (.internal (s.nodes[a].weight + s.nodes[b].weight) a b)
        pq := q' ++ [i], next := s.next + 1 })

/-- TBLD on a table whose sentinel counts 1 and whose total fits in WEIGHT_W bits: a full binary tree with one leaf per
used symbol, right weights, the total at the root, 2L - 1 nodes in arena order, ROOT = 2L - 2 (41_tree_builder.md R73 to
R76). Which two entries a round joins is said by RemoveMinTakesTheLeastKey and MergeRoundJoinsTheTwoLeast, not here. -/
def Obligations.BuildMakesAFullBinaryTreeWithRightWeights : Prop :=
  ∀ s : State, s.seq = .buildClear → undisturbed s → s.freq[sentinelSym] = 1 →
    ((List.finRange Config.alph).map fun y => s.freq[y].toNat).sum < 2 ^ 32 →
    ∃ (t : State) (tree : Tree), Reaches s t ∧
      t = { s with
        seq := .codesClear 0, nodes := t.nodes, root := t.root, pq := [], nleaf := t.nleaf, next := t.next } ∧
      Builds t.nodes t.root tree ∧ tree.symbols.Perm (usedSymbols s.freq) ∧ Weighed s.freq t.nodes t.root ∧
      t.nodes[t.root].weight.toNat = ((List.finRange Config.alph).map fun y => s.freq[y].toNat).sum ∧
      t.nleaf.toNat = tree.leafCount ∧ t.next.toNat = 2 * tree.leafCount - 1 ∧
      t.root.val = 2 * tree.leafCount - 2 ∧
      ∀ (i l r : NodeIdx) (w : Weight), i.val < t.next.toNat → t.nodes[i] = .internal w l r →
        l.val < i.val ∧ r.val < i.val

/-- CODEGEN: each leaf's symbol gets its path from the root, the only leaf of a degenerate tree the code `0`, of 1 to 256
bits; every other symbol has no entry (42_code_table.md R78, R79, R80). -/
def Obligations.CodegenRecordsThePathOfEachLeaf : Prop :=
  ∀ (s : State) (tree : Tree), s.seq = .codesClear 0 → undisturbed s →
    Builds s.nodes s.root tree → tree.symbols.Nodup →
    ∃ t : State, Reaches s t ∧
      t = { s with seq := .magicWrite, codes := t.codes, walk := t.walk } ∧
      (∀ (y : Sym) (p : Bits), (y, p) ∈ tree.codes →
        t.codes[y].valid = true ∧ t.codes[y].len.toNat = p.length ∧ t.codes[y].path = p ∧
        (∀ k : Nat, p.length ≤ k → t.codes[y].bits.getLsbD k = false) ∧
        1 ≤ p.length ∧ p.length ≤ 256 ∧ p.length ≤ max 1 (tree.leafCount - 1)) ∧
      (∀ y : Sym, y ∉ tree.symbols → t.codes[y] = { valid := false, len := 0, bits := 0 })

/-- The codes CODEGEN leaves for a tree of two or more leaves: no valid code is a prefix of another, and the sum of
2^(-CLEN) over the valid codes is 1; for a degenerate tree there is the single code `0` (42_code_table.md R81). -/
def Obligations.CodesArePrefixFreeAndComplete : Prop :=
  ∀ (s : State) (tree : Tree), s.seq = .codesClear 0 → undisturbed s →
    Builds s.nodes s.root tree → tree.symbols.Nodup →
    ∃ t : State, Reaches s t ∧ t.seq = .magicWrite ∧
      (∀ y z : Sym, y ≠ z → t.codes[y].valid = true → t.codes[z].valid = true →
        ¬ t.codes[y].path <+: t.codes[z].path) ∧
      (2 ≤ tree.leafCount →
        ((((List.finRange Config.alph).filter fun y => t.codes[y].valid).map
          fun y => (1 / 2 : ℚ) ^ t.codes[y].len.toNat).sum = 1)) ∧
      (tree.leafCount = 1 → ∃ z : Sym, t.codes[z].path = [false] ∧ ∀ y : Sym, t.codes[y].valid = true ↔ y = z)

/-- WRITE_HEADER appends the preorder encoding of the tree at ROOT to OUT and moves to C_REWIND; nothing else changes
(43_header_codec.md R82). -/
def Obligations.WriteHeaderWritesTheTreeInPreorder : Prop :=
  ∀ (s : State) (tree : Tree), s.seq = .headerStart → undisturbed s → Builds s.nodes s.root tree →
    Reaches s { s with
      seq := .rewind, walk := [], out := { s.out with bits := s.out.bits ++ tree.header } }

/-- ENCODE of B2: each byte's code is appended, whole and in order; at the first byte without a code INPUT_MISMATCH is
raised and the codes before it stay (44_compress.md R95). -/
def Obligations.EncodeWritesEachBytesCode : Prop :=
  ∀ s : State, s.seq = .encodeRead → undisturbed s → s.inp.rewound = true → s.inp.pos = 0 →
    ((∀ b ∈ s.inp.second, s.codes[symOfByte b].valid = true) →
      Reaches s { s with
        seq := .sentinel
        inp := { s.inp with pos := 8 * s.inp.second.length }
        out := { s.out with bits := s.out.bits ++ s.inp.second.flatMap fun b => s.codes[symOfByte b].path } }) ∧
    (∀ (pre post : List Byte) (b : Byte), s.inp.second = pre ++ b :: post →
      (∀ c ∈ pre, s.codes[symOfByte c].valid = true) → s.codes[symOfByte b].valid = false →
      Reaches s { s with
        seq := .close .inputMismatch
        inp := { s.inp with pos := 8 * (pre.length + 1) }
        out := { s.out with bits := s.out.bits ++ pre.flatMap fun c => s.codes[symOfByte c].path } })

/-- The output of COMPRESS of B with B2 = B: the marker, the header of the tree, each byte's code, the sentinel's code,
padded to whole bytes; STATUS says success (44_compress.md R98). -/
def Obligations.CompressWritesMarkerHeaderCodesAndSentinel : Prop :=
  ∀ s : State, s.status.busy = false → undisturbed s → s.inp.second = s.inp.first →
    s.inp.first.length ≤ 2 ^ 32 - 2 →
    ∃ (t u : State) (tree : Tree), exec .compress s = .next t ∧ Reaches t u ∧ u.seq = .idle ∧
      u.status = { busy := false, done := true, err := false, errCode := .none, lastOp := 1 } ∧
      Builds u.nodes u.root tree ∧
      (∀ y : Sym, y ∈ tree.symbols ↔ y = sentinelSym ∨ 0 < countOf s.inp.first y) ∧
      (∀ (y : Sym) (p : Bits), (y, p) ∈ tree.codes → u.codes[y].path = p) ∧
      endedWith (bitsOf Config.huffMagic ++ tree.header ++
        (s.inp.first.flatMap fun b => u.codes[symOfByte b].path) ++ u.codes[sentinelSym].path) u.out

/-! ## DECOMPRESS, phase by phase -/

/-- READ_HEADER of what HSER writes for a tree rebuilds that tree: the same shape and symbols, ROOT = 0, reading exactly
the header's bits, with nothing written (43_header_codec.md R83, R84, R85). -/
def Obligations.ReadHeaderRebuildsTheTree : Prop :=
  ∀ (s : State) (tree : Tree) (rest : Bits), s.seq = .treeClear → undisturbed s →
    s.inp.remaining = tree.header ++ rest → tree.internalCount ≤ 256 →
    ∃ t : State, Reaches s t ∧ t.seq = .decodeBit ∧ t.dstate = .atRoot ∧ t.root.val = 0 ∧ t.cur = t.root ∧
      Builds t.nodes t.root tree ∧ t.next.toNat = 2 * tree.leafCount - 1 ∧
      t.inp = { s.inp with pos := s.inp.pos + tree.header.length } ∧ t.inp.remaining = rest ∧
      t.out = s.out ∧ t.status = s.status ∧ t.host = s.host

/-- Decoding a payload of codes that ends with the sentinel's code writes each code's byte in order, stops at the
sentinel, reads no bit after it, and ends with success (45_decompress.md R102 to R105, 20_memory.md R43). -/
def Obligations.DecodeWritesTheBytesUpToTheSentinel : Prop :=
  ∀ (s : State) (tree : Tree) (bytes : List Byte) (ps : List Bits) (pe rest : Bits),
    s.seq = .decodeBit → s.dstate = .atRoot → s.cur = s.root → undisturbed s →
    Builds s.nodes s.root tree → s.out.bits.length % 8 = 0 →
    List.Forall₂ (fun b p => (symOfByte b, p) ∈ tree.codes) bytes ps → (sentinelSym, pe) ∈ tree.codes →
    s.inp.remaining = ps.flatten ++ pe ++ rest →
    ∃ t : State, Reaches s t ∧ t.seq = .idle ∧ t.inp.remaining = rest ∧
      t.out = { bits := s.out.bits ++ streamBits bytes, closed := true } ∧
      t.status = { s.status with busy := false, done := true, err := false, errCode := .none }

/-- A payload that ends before the sentinel's leaf: the bytes decoded so far stay in OUT, and the command ends with
TRUNCATED_STREAM (45_decompress.md R102, 60_exceptions.md R107, R110). -/
def Obligations.TruncatedPayloadKeepsTheBytesDecoded : Prop :=
  ∀ (s : State) (tree : Tree) (bytes : List Byte) (ps : List Bits) (q p : Bits) (y : Sym),
    s.seq = .decodeBit → s.dstate = .atRoot → s.cur = s.root → undisturbed s →
    Builds s.nodes s.root tree → s.out.bits.length % 8 = 0 →
    List.Forall₂ (fun b p => (symOfByte b, p) ∈ tree.codes) bytes ps →
    (y, p) ∈ tree.codes → q <+: p → q ≠ p → s.inp.remaining = ps.flatten ++ q →
    ∃ t : State, Reaches s t ∧ t.seq = .idle ∧
      t.out = { bits := s.out.bits ++ streamBits bytes, closed := true } ∧
      t.status = { s.status with busy := false, done := true, err := true, errCode := .truncatedStream }

/-! ## The whole codec -/

/-- The round-trip law: COMPRESS of B ends with success and bytes C; DECOMPRESS of C, with any bytes appended, ends with
success and writes exactly B (45_decompress.md R106). -/
def Obligations.DecompressOfCompressGivesTheBytesBack : Prop :=
  ∀ s : State, s.status.busy = false → undisturbed s → s.inp.second = s.inp.first →
    s.inp.first.length ≤ 2 ^ 32 - 2 →
    ∃ t u : State, exec .compress s = .next t ∧ Reaches t u ∧ u.seq = .idle ∧
      u.status.done = true ∧ u.status.err = false ∧
      ∀ (v : State) (extra : List Byte), v.status.busy = false → undisturbed v →
        v.inp.first = u.out.bytes ++ extra →
        ∃ x z : State, exec .decompress v = .next x ∧ Reaches x z ∧ z.seq = .idle ∧
          z.status.done = true ∧ z.status.err = false ∧ z.out.bytes = s.inp.first

/-- Every command ends: from any state that accepts it, COMPRESS and DECOMPRESS reach IDLE with DONE = 1, whatever the
input (70_reset_and_hazards.md R131). -/
def Obligations.EveryCommandReachesIdle : Prop :=
  ∀ s : State, s.status.busy = false → undisturbed s →
    (∃ t u : State, exec .compress s = .next t ∧ Reaches t u ∧ u.seq = .idle ∧ u.status.done = true) ∧
    (∃ t u : State, exec .decompress s = .next t ∧ Reaches t u ∧ u.seq = .idle ∧ u.status.done = true)
end

