-- ==== Sys2Proof/Laws/Bits.lean ====
section
/-! SUPPORT. Fields and bit sequences: `bitsOf` and `fieldOf` are inverse, lengths, and byte streams. -/

namespace Sys2Proof

open Machine

@[simp] theorem length_bitsOf {n : Nat} (v : BitVec n) : (bitsOf v).length = n := by simp [bitsOf]

theorem bitsVal_append_singleton (p : Bits) (b : Bool) : bitsVal (p ++ [b]) = 2 * bitsVal p + b.toNat := by
  simp [bitsVal]

@[simp] theorem bitsVal_nil : bitsVal [] = 0 := rfl

theorem bitsVal_lt (p : Bits) : bitsVal p < 2 ^ p.length := by
  induction p using List.reverseRecOn with
  | nil => simp
  | append_singleton p b ih =>
    have : b.toNat ≤ 1 := by cases b <;> decide
    rw [bitsVal_append_singleton, List.length_append, List.length_singleton, Nat.pow_succ]
    omega

/-- Bit `k` of a value, counted from the least significant, is bit `k` of its sequence, counted from the end. -/
theorem testBit_bitsVal (p : Bits) (k : Nat) (h : k < p.length) :
    (bitsVal p).testBit k = p[p.length - 1 - k] := by
  induction p using List.reverseRecOn generalizing k with
  | nil => simp at h
  | append_singleton p b ih =>
    rw [bitsVal_append_singleton]
    cases k with
    | zero =>
      simp [Nat.testBit_zero]
      cases b <;> simp
    | succ k =>
      have hk : k < p.length := by simpa using h
      have hb : (2 * bitsVal p + b.toNat) / 2 = bitsVal p := by
        have : b.toNat ≤ 1 := by cases b <;> decide
        omega
      rw [Nat.testBit_succ, hb, ih k hk]
      simp only [List.length_append, List.length_singleton]
      rw [List.getElem_append_left (by omega)]
      congr 1
      omega

@[simp] theorem fieldOf_bitsOf {n : Nat} (v : BitVec n) : fieldOf n (bitsOf v) = v := by
  apply BitVec.eq_of_getLsbD_eq
  intro k hk
  have hl : k < (bitsOf v).length := by simpa using hk
  rw [fieldOf, BitVec.getLsbD_ofNat, testBit_bitsVal _ _ hl]
  simp only [hk, decide_true, Bool.true_and, bitsOf, List.getElem_map, List.getElem_range]
  rw [BitVec.getMsbD_eq_getLsbD]
  have h1 : n - 1 - k < n := by omega
  have h2 : n - 1 - (n - 1 - k) = k := by omega
  simp [h1, h2]

theorem bitsOf_fieldOf {n : Nat} (p : Bits) (h : p.length = n) : bitsOf (fieldOf n p) = p := by
  subst h
  apply List.ext_getElem (by simp)
  intro i h1 h2
  simp only [bitsOf, List.getElem_map, List.getElem_range, fieldOf]
  rw [BitVec.getMsbD_eq_getLsbD, BitVec.getLsbD_ofNat, testBit_bitsVal _ _ (by omega)]
  have h3 : p.length - 1 - (p.length - 1 - i) = i := by omega
  have h4 : p.length - 1 - i < p.length := by omega
  simp [h2, h3, h4]

@[simp] theorem bitsOf_zero_one : bitsOf 0#1 = [false] := by decide

@[simp] theorem bitsOf_one_one : bitsOf 1#1 = [true] := by decide

@[simp] theorem fieldOf_one_singleton (t : Bool) : fieldOf 1 [t] = BitVec.ofBool t := by cases t <;> decide

namespace Machine

@[simp] theorem streamBits_nil : streamBits [] = [] := rfl

@[simp] theorem streamBits_cons (b : Byte) (l : List Byte) : streamBits (b :: l) = bitsOf b ++ streamBits l := rfl

@[simp] theorem streamBits_append (k l : List Byte) : streamBits (k ++ l) = streamBits k ++ streamBits l := by
  simp [streamBits]

@[simp] theorem length_streamBits (l : List Byte) : (streamBits l).length = 8 * l.length := by
  induction l with
  | nil => rfl
  | cons b l ih => rw [streamBits_cons, List.length_append, ih, length_bitsOf, List.length_cons]; omega

/-- A byte stream's bits are its bytes again, with any incomplete byte after them left off. -/
theorem bytesOf_bitsOf_append (b : Byte) (p : Bits) : bytesOf (bitsOf b ++ p) = b :: bytesOf p := by
  have h : bitsOf b = [b.getMsbD 0, b.getMsbD 1, b.getMsbD 2, b.getMsbD 3, b.getMsbD 4, b.getMsbD 5, b.getMsbD 6,
      b.getMsbD 7] := rfl
  have hb : fieldOf 8 (bitsOf b) = b := fieldOf_bitsOf b
  rw [h] at hb ⊢
  simp only [List.cons_append, List.nil_append, bytesOf, hb]

theorem padLen_lt (n : Nat) : padLen n < 8 := Nat.mod_lt _ (by decide)

theorem padLen_spec (n : Nat) : (n + padLen n) % 8 = 0 := by unfold padLen; omega

@[simp] theorem padLen_of_whole {n : Nat} (h : n % 8 = 0) : padLen n = 0 := by simp [padLen, h]

end Machine

end Sys2Proof
end

