-- ==== Sys2Proof/Laws/State.lean ====
section
/-! SUPPORT. What each shared operation does to each field of State: one lemma per field, true by definition, so that no
proof unfolds a record update. -/

namespace Sys2Proof.Machine

/-! ### acceptCommand -/

@[simp] theorem acceptCommand_seq (op : BitVec 2) (q : Seq) (s : State) : (acceptCommand op q s).seq = q := rfl
@[simp] theorem acceptCommand_status (op : BitVec 2) (q : Seq) (s : State) : (acceptCommand op q s).status = s.status.accept op := rfl
@[simp] theorem acceptCommand_freq (op : BitVec 2) (q : Seq) (s : State) : (acceptCommand op q s).freq = s.freq := rfl
@[simp] theorem acceptCommand_nodes (op : BitVec 2) (q : Seq) (s : State) : (acceptCommand op q s).nodes = s.nodes := rfl
@[simp] theorem acceptCommand_root (op : BitVec 2) (q : Seq) (s : State) : (acceptCommand op q s).root = s.root := rfl
@[simp] theorem acceptCommand_pq (op : BitVec 2) (q : Seq) (s : State) : (acceptCommand op q s).pq = s.pq := rfl
@[simp] theorem acceptCommand_nbytes (op : BitVec 2) (q : Seq) (s : State) : (acceptCommand op q s).nbytes = s.nbytes := rfl
@[simp] theorem acceptCommand_nleaf (op : BitVec 2) (q : Seq) (s : State) : (acceptCommand op q s).nleaf = s.nleaf := rfl
@[simp] theorem acceptCommand_next (op : BitVec 2) (q : Seq) (s : State) : (acceptCommand op q s).next = s.next := rfl
@[simp] theorem acceptCommand_nint (op : BitVec 2) (q : Seq) (s : State) : (acceptCommand op q s).nint = s.nint := rfl
@[simp] theorem acceptCommand_codes (op : BitVec 2) (q : Seq) (s : State) : (acceptCommand op q s).codes = s.codes := rfl
@[simp] theorem acceptCommand_dstate (op : BitVec 2) (q : Seq) (s : State) : (acceptCommand op q s).dstate = s.dstate := rfl
@[simp] theorem acceptCommand_cur (op : BitVec 2) (q : Seq) (s : State) : (acceptCommand op q s).cur = s.cur := rfl
@[simp] theorem acceptCommand_walk (op : BitVec 2) (q : Seq) (s : State) : (acceptCommand op q s).walk = s.walk := rfl
@[simp] theorem acceptCommand_hdes (op : BitVec 2) (q : Seq) (s : State) : (acceptCommand op q s).hdes = s.hdes := rfl
@[simp] theorem acceptCommand_inp (op : BitVec 2) (q : Seq) (s : State) : (acceptCommand op q s).inp = s.inp.restart := rfl
@[simp] theorem acceptCommand_out (op : BitVec 2) (q : Seq) (s : State) : (acceptCommand op q s).out = OutPort.fresh := rfl
@[simp] theorem acceptCommand_host (op : BitVec 2) (q : Seq) (s : State) : (acceptCommand op q s).host = s.host := rfl

/-! ### illegalCommand -/

@[simp] theorem illegalCommand_seq (op : BitVec 2) (s : State) : (illegalCommand op s).seq = s.seq := rfl
@[simp] theorem illegalCommand_status (op : BitVec 2) (s : State) : (illegalCommand op s).status = s.status.illegal op := rfl
@[simp] theorem illegalCommand_freq (op : BitVec 2) (s : State) : (illegalCommand op s).freq = s.freq := rfl
@[simp] theorem illegalCommand_nodes (op : BitVec 2) (s : State) : (illegalCommand op s).nodes = s.nodes := rfl
@[simp] theorem illegalCommand_root (op : BitVec 2) (s : State) : (illegalCommand op s).root = s.root := rfl
@[simp] theorem illegalCommand_pq (op : BitVec 2) (s : State) : (illegalCommand op s).pq = s.pq := rfl
@[simp] theorem illegalCommand_nbytes (op : BitVec 2) (s : State) : (illegalCommand op s).nbytes = s.nbytes := rfl
@[simp] theorem illegalCommand_nleaf (op : BitVec 2) (s : State) : (illegalCommand op s).nleaf = s.nleaf := rfl
@[simp] theorem illegalCommand_next (op : BitVec 2) (s : State) : (illegalCommand op s).next = s.next := rfl
@[simp] theorem illegalCommand_nint (op : BitVec 2) (s : State) : (illegalCommand op s).nint = s.nint := rfl
@[simp] theorem illegalCommand_codes (op : BitVec 2) (s : State) : (illegalCommand op s).codes = s.codes := rfl
@[simp] theorem illegalCommand_dstate (op : BitVec 2) (s : State) : (illegalCommand op s).dstate = s.dstate := rfl
@[simp] theorem illegalCommand_cur (op : BitVec 2) (s : State) : (illegalCommand op s).cur = s.cur := rfl
@[simp] theorem illegalCommand_walk (op : BitVec 2) (s : State) : (illegalCommand op s).walk = s.walk := rfl
@[simp] theorem illegalCommand_hdes (op : BitVec 2) (s : State) : (illegalCommand op s).hdes = s.hdes := rfl
@[simp] theorem illegalCommand_inp (op : BitVec 2) (s : State) : (illegalCommand op s).inp = s.inp := rfl
@[simp] theorem illegalCommand_out (op : BitVec 2) (s : State) : (illegalCommand op s).out = s.out := rfl
@[simp] theorem illegalCommand_host (op : BitVec 2) (s : State) : (illegalCommand op s).host = s.host := rfl

/-! ### raise -/

@[simp] theorem raise_seq (e : ErrCode) (s : State) : (raise e s).seq = .close e := rfl
@[simp] theorem raise_status (e : ErrCode) (s : State) : (raise e s).status = s.status := rfl
@[simp] theorem raise_freq (e : ErrCode) (s : State) : (raise e s).freq = s.freq := rfl
@[simp] theorem raise_nodes (e : ErrCode) (s : State) : (raise e s).nodes = s.nodes := rfl
@[simp] theorem raise_root (e : ErrCode) (s : State) : (raise e s).root = s.root := rfl
@[simp] theorem raise_pq (e : ErrCode) (s : State) : (raise e s).pq = s.pq := rfl
@[simp] theorem raise_nbytes (e : ErrCode) (s : State) : (raise e s).nbytes = s.nbytes := rfl
@[simp] theorem raise_nleaf (e : ErrCode) (s : State) : (raise e s).nleaf = s.nleaf := rfl
@[simp] theorem raise_next (e : ErrCode) (s : State) : (raise e s).next = s.next := rfl
@[simp] theorem raise_nint (e : ErrCode) (s : State) : (raise e s).nint = s.nint := rfl
@[simp] theorem raise_codes (e : ErrCode) (s : State) : (raise e s).codes = s.codes := rfl
@[simp] theorem raise_dstate (e : ErrCode) (s : State) : (raise e s).dstate = s.dstate := rfl
@[simp] theorem raise_cur (e : ErrCode) (s : State) : (raise e s).cur = s.cur := rfl
@[simp] theorem raise_walk (e : ErrCode) (s : State) : (raise e s).walk = s.walk := rfl
@[simp] theorem raise_hdes (e : ErrCode) (s : State) : (raise e s).hdes = s.hdes := rfl
@[simp] theorem raise_inp (e : ErrCode) (s : State) : (raise e s).inp = s.inp := rfl
@[simp] theorem raise_out (e : ErrCode) (s : State) : (raise e s).out = s.out := rfl
@[simp] theorem raise_host (e : ErrCode) (s : State) : (raise e s).host = s.host := rfl

/-! ### closeOut -/

@[simp] theorem closeOut_seq (e : ErrCode) (s : State) : (closeOut e s).seq = .finish e := rfl
@[simp] theorem closeOut_status (e : ErrCode) (s : State) : (closeOut e s).status = s.status := rfl
@[simp] theorem closeOut_freq (e : ErrCode) (s : State) : (closeOut e s).freq = s.freq := rfl
@[simp] theorem closeOut_nodes (e : ErrCode) (s : State) : (closeOut e s).nodes = s.nodes := rfl
@[simp] theorem closeOut_root (e : ErrCode) (s : State) : (closeOut e s).root = s.root := rfl
@[simp] theorem closeOut_pq (e : ErrCode) (s : State) : (closeOut e s).pq = s.pq := rfl
@[simp] theorem closeOut_nbytes (e : ErrCode) (s : State) : (closeOut e s).nbytes = s.nbytes := rfl
@[simp] theorem closeOut_nleaf (e : ErrCode) (s : State) : (closeOut e s).nleaf = s.nleaf := rfl
@[simp] theorem closeOut_next (e : ErrCode) (s : State) : (closeOut e s).next = s.next := rfl
@[simp] theorem closeOut_nint (e : ErrCode) (s : State) : (closeOut e s).nint = s.nint := rfl
@[simp] theorem closeOut_codes (e : ErrCode) (s : State) : (closeOut e s).codes = s.codes := rfl
@[simp] theorem closeOut_dstate (e : ErrCode) (s : State) : (closeOut e s).dstate = s.dstate := rfl
@[simp] theorem closeOut_cur (e : ErrCode) (s : State) : (closeOut e s).cur = s.cur := rfl
@[simp] theorem closeOut_walk (e : ErrCode) (s : State) : (closeOut e s).walk = s.walk := rfl
@[simp] theorem closeOut_hdes (e : ErrCode) (s : State) : (closeOut e s).hdes = s.hdes := rfl
@[simp] theorem closeOut_inp (e : ErrCode) (s : State) : (closeOut e s).inp = s.inp := rfl
@[simp] theorem closeOut_out (e : ErrCode) (s : State) : (closeOut e s).out = s.out.close := rfl
@[simp] theorem closeOut_host (e : ErrCode) (s : State) : (closeOut e s).host = s.host := rfl

/-! ### finishCommand -/

@[simp] theorem finishCommand_seq (e : ErrCode) (s : State) : (finishCommand e s).seq = .idle := rfl
@[simp] theorem finishCommand_status (e : ErrCode) (s : State) : (finishCommand e s).status = s.status.ended e := rfl
@[simp] theorem finishCommand_freq (e : ErrCode) (s : State) : (finishCommand e s).freq = s.freq := rfl
@[simp] theorem finishCommand_nodes (e : ErrCode) (s : State) : (finishCommand e s).nodes = s.nodes := rfl
@[simp] theorem finishCommand_root (e : ErrCode) (s : State) : (finishCommand e s).root = s.root := rfl
@[simp] theorem finishCommand_pq (e : ErrCode) (s : State) : (finishCommand e s).pq = s.pq := rfl
@[simp] theorem finishCommand_nbytes (e : ErrCode) (s : State) : (finishCommand e s).nbytes = s.nbytes := rfl
@[simp] theorem finishCommand_nleaf (e : ErrCode) (s : State) : (finishCommand e s).nleaf = s.nleaf := rfl
@[simp] theorem finishCommand_next (e : ErrCode) (s : State) : (finishCommand e s).next = s.next := rfl
@[simp] theorem finishCommand_nint (e : ErrCode) (s : State) : (finishCommand e s).nint = s.nint := rfl
@[simp] theorem finishCommand_codes (e : ErrCode) (s : State) : (finishCommand e s).codes = s.codes := rfl
@[simp] theorem finishCommand_dstate (e : ErrCode) (s : State) : (finishCommand e s).dstate = s.dstate := rfl
@[simp] theorem finishCommand_cur (e : ErrCode) (s : State) : (finishCommand e s).cur = s.cur := rfl
@[simp] theorem finishCommand_walk (e : ErrCode) (s : State) : (finishCommand e s).walk = s.walk := rfl
@[simp] theorem finishCommand_hdes (e : ErrCode) (s : State) : (finishCommand e s).hdes = s.hdes := rfl
@[simp] theorem finishCommand_inp (e : ErrCode) (s : State) : (finishCommand e s).inp = s.inp := rfl
@[simp] theorem finishCommand_out (e : ErrCode) (s : State) : (finishCommand e s).out = s.out := rfl
@[simp] theorem finishCommand_host (e : ErrCode) (s : State) : (finishCommand e s).host = s.host := rfl

/-! ### pushWalk -/

@[simp] theorem pushWalk_seq (e : WalkEntry) (q : Seq) (s : State) : (pushWalk e q s).seq = q := rfl
@[simp] theorem pushWalk_status (e : WalkEntry) (q : Seq) (s : State) : (pushWalk e q s).status = s.status := rfl
@[simp] theorem pushWalk_freq (e : WalkEntry) (q : Seq) (s : State) : (pushWalk e q s).freq = s.freq := rfl
@[simp] theorem pushWalk_nodes (e : WalkEntry) (q : Seq) (s : State) : (pushWalk e q s).nodes = s.nodes := rfl
@[simp] theorem pushWalk_root (e : WalkEntry) (q : Seq) (s : State) : (pushWalk e q s).root = s.root := rfl
@[simp] theorem pushWalk_pq (e : WalkEntry) (q : Seq) (s : State) : (pushWalk e q s).pq = s.pq := rfl
@[simp] theorem pushWalk_nbytes (e : WalkEntry) (q : Seq) (s : State) : (pushWalk e q s).nbytes = s.nbytes := rfl
@[simp] theorem pushWalk_nleaf (e : WalkEntry) (q : Seq) (s : State) : (pushWalk e q s).nleaf = s.nleaf := rfl
@[simp] theorem pushWalk_next (e : WalkEntry) (q : Seq) (s : State) : (pushWalk e q s).next = s.next := rfl
@[simp] theorem pushWalk_nint (e : WalkEntry) (q : Seq) (s : State) : (pushWalk e q s).nint = s.nint := rfl
@[simp] theorem pushWalk_codes (e : WalkEntry) (q : Seq) (s : State) : (pushWalk e q s).codes = s.codes := rfl
@[simp] theorem pushWalk_dstate (e : WalkEntry) (q : Seq) (s : State) : (pushWalk e q s).dstate = s.dstate := rfl
@[simp] theorem pushWalk_cur (e : WalkEntry) (q : Seq) (s : State) : (pushWalk e q s).cur = s.cur := rfl
@[simp] theorem pushWalk_walk (e : WalkEntry) (q : Seq) (s : State) : (pushWalk e q s).walk = e :: s.walk := rfl
@[simp] theorem pushWalk_hdes (e : WalkEntry) (q : Seq) (s : State) : (pushWalk e q s).hdes = s.hdes := rfl
@[simp] theorem pushWalk_inp (e : WalkEntry) (q : Seq) (s : State) : (pushWalk e q s).inp = s.inp := rfl
@[simp] theorem pushWalk_out (e : WalkEntry) (q : Seq) (s : State) : (pushWalk e q s).out = s.out := rfl
@[simp] theorem pushWalk_host (e : WalkEntry) (q : Seq) (s : State) : (pushWalk e q s).host = s.host := rfl

/-! ### serInternal -/

@[simp] theorem serInternal_seq (i : NodeIdx) (s : State) : (serInternal i s).seq = .headerPush i := rfl
@[simp] theorem serInternal_status (i : NodeIdx) (s : State) : (serInternal i s).status = s.status := rfl
@[simp] theorem serInternal_freq (i : NodeIdx) (s : State) : (serInternal i s).freq = s.freq := rfl
@[simp] theorem serInternal_nodes (i : NodeIdx) (s : State) : (serInternal i s).nodes = s.nodes := rfl
@[simp] theorem serInternal_root (i : NodeIdx) (s : State) : (serInternal i s).root = s.root := rfl
@[simp] theorem serInternal_pq (i : NodeIdx) (s : State) : (serInternal i s).pq = s.pq := rfl
@[simp] theorem serInternal_nbytes (i : NodeIdx) (s : State) : (serInternal i s).nbytes = s.nbytes := rfl
@[simp] theorem serInternal_nleaf (i : NodeIdx) (s : State) : (serInternal i s).nleaf = s.nleaf := rfl
@[simp] theorem serInternal_next (i : NodeIdx) (s : State) : (serInternal i s).next = s.next := rfl
@[simp] theorem serInternal_nint (i : NodeIdx) (s : State) : (serInternal i s).nint = s.nint := rfl
@[simp] theorem serInternal_codes (i : NodeIdx) (s : State) : (serInternal i s).codes = s.codes := rfl
@[simp] theorem serInternal_dstate (i : NodeIdx) (s : State) : (serInternal i s).dstate = s.dstate := rfl
@[simp] theorem serInternal_cur (i : NodeIdx) (s : State) : (serInternal i s).cur = s.cur := rfl
@[simp] theorem serInternal_walk (i : NodeIdx) (s : State) : (serInternal i s).walk = s.walk := rfl
@[simp] theorem serInternal_hdes (i : NodeIdx) (s : State) : (serInternal i s).hdes = s.hdes := rfl
@[simp] theorem serInternal_inp (i : NodeIdx) (s : State) : (serInternal i s).inp = s.inp := rfl
@[simp] theorem serInternal_out (i : NodeIdx) (s : State) : (serInternal i s).out = s.out.writeBits (0 : BitVec 1) := rfl
@[simp] theorem serInternal_host (i : NodeIdx) (s : State) : (serInternal i s).host = s.host := rfl

/-! ### serTag -/

@[simp] theorem serTag_seq (i : NodeIdx) (s : State) : (serTag i s).seq = .headerSym i := rfl
@[simp] theorem serTag_status (i : NodeIdx) (s : State) : (serTag i s).status = s.status := rfl
@[simp] theorem serTag_freq (i : NodeIdx) (s : State) : (serTag i s).freq = s.freq := rfl
@[simp] theorem serTag_nodes (i : NodeIdx) (s : State) : (serTag i s).nodes = s.nodes := rfl
@[simp] theorem serTag_root (i : NodeIdx) (s : State) : (serTag i s).root = s.root := rfl
@[simp] theorem serTag_pq (i : NodeIdx) (s : State) : (serTag i s).pq = s.pq := rfl
@[simp] theorem serTag_nbytes (i : NodeIdx) (s : State) : (serTag i s).nbytes = s.nbytes := rfl
@[simp] theorem serTag_nleaf (i : NodeIdx) (s : State) : (serTag i s).nleaf = s.nleaf := rfl
@[simp] theorem serTag_next (i : NodeIdx) (s : State) : (serTag i s).next = s.next := rfl
@[simp] theorem serTag_nint (i : NodeIdx) (s : State) : (serTag i s).nint = s.nint := rfl
@[simp] theorem serTag_codes (i : NodeIdx) (s : State) : (serTag i s).codes = s.codes := rfl
@[simp] theorem serTag_dstate (i : NodeIdx) (s : State) : (serTag i s).dstate = s.dstate := rfl
@[simp] theorem serTag_cur (i : NodeIdx) (s : State) : (serTag i s).cur = s.cur := rfl
@[simp] theorem serTag_walk (i : NodeIdx) (s : State) : (serTag i s).walk = s.walk := rfl
@[simp] theorem serTag_hdes (i : NodeIdx) (s : State) : (serTag i s).hdes = s.hdes := rfl
@[simp] theorem serTag_inp (i : NodeIdx) (s : State) : (serTag i s).inp = s.inp := rfl
@[simp] theorem serTag_out (i : NodeIdx) (s : State) : (serTag i s).out = s.out.writeBits (1 : BitVec 1) := rfl
@[simp] theorem serTag_host (i : NodeIdx) (s : State) : (serTag i s).host = s.host := rfl

/-! ### serSym -/

@[simp] theorem serSym_seq (y : Sym) (s : State) : (serSym y s).seq = .headerPop := rfl
@[simp] theorem serSym_status (y : Sym) (s : State) : (serSym y s).status = s.status := rfl
@[simp] theorem serSym_freq (y : Sym) (s : State) : (serSym y s).freq = s.freq := rfl
@[simp] theorem serSym_nodes (y : Sym) (s : State) : (serSym y s).nodes = s.nodes := rfl
@[simp] theorem serSym_root (y : Sym) (s : State) : (serSym y s).root = s.root := rfl
@[simp] theorem serSym_pq (y : Sym) (s : State) : (serSym y s).pq = s.pq := rfl
@[simp] theorem serSym_nbytes (y : Sym) (s : State) : (serSym y s).nbytes = s.nbytes := rfl
@[simp] theorem serSym_nleaf (y : Sym) (s : State) : (serSym y s).nleaf = s.nleaf := rfl
@[simp] theorem serSym_next (y : Sym) (s : State) : (serSym y s).next = s.next := rfl
@[simp] theorem serSym_nint (y : Sym) (s : State) : (serSym y s).nint = s.nint := rfl
@[simp] theorem serSym_codes (y : Sym) (s : State) : (serSym y s).codes = s.codes := rfl
@[simp] theorem serSym_dstate (y : Sym) (s : State) : (serSym y s).dstate = s.dstate := rfl
@[simp] theorem serSym_cur (y : Sym) (s : State) : (serSym y s).cur = s.cur := rfl
@[simp] theorem serSym_walk (y : Sym) (s : State) : (serSym y s).walk = s.walk := rfl
@[simp] theorem serSym_hdes (y : Sym) (s : State) : (serSym y s).hdes = s.hdes := rfl
@[simp] theorem serSym_inp (y : Sym) (s : State) : (serSym y s).inp = s.inp := rfl
@[simp] theorem serSym_out (y : Sym) (s : State) : (serSym y s).out = s.out.writeBits (symField y) := rfl
@[simp] theorem serSym_host (y : Sym) (s : State) : (serSym y s).host = s.host := rfl

/-! ### desLeaf -/

@[simp] theorem desLeaf_seq (i : NodeIdx) (y : Sym) (s : State) : (desLeaf i y s).seq = .treeReturn i := rfl
@[simp] theorem desLeaf_status (i : NodeIdx) (y : Sym) (s : State) : (desLeaf i y s).status = s.status := rfl
@[simp] theorem desLeaf_freq (i : NodeIdx) (y : Sym) (s : State) : (desLeaf i y s).freq = s.freq := rfl
@[simp] theorem desLeaf_nodes (i : NodeIdx) (y : Sym) (s : State) : (desLeaf i y s).nodes = s.nodes.set i (.leaf y 0) := rfl
@[simp] theorem desLeaf_root (i : NodeIdx) (y : Sym) (s : State) : (desLeaf i y s).root = s.root := rfl
@[simp] theorem desLeaf_pq (i : NodeIdx) (y : Sym) (s : State) : (desLeaf i y s).pq = s.pq := rfl
@[simp] theorem desLeaf_nbytes (i : NodeIdx) (y : Sym) (s : State) : (desLeaf i y s).nbytes = s.nbytes := rfl
@[simp] theorem desLeaf_nleaf (i : NodeIdx) (y : Sym) (s : State) : (desLeaf i y s).nleaf = s.nleaf := rfl
@[simp] theorem desLeaf_next (i : NodeIdx) (y : Sym) (s : State) : (desLeaf i y s).next = s.next := rfl
@[simp] theorem desLeaf_nint (i : NodeIdx) (y : Sym) (s : State) : (desLeaf i y s).nint = s.nint := rfl
@[simp] theorem desLeaf_codes (i : NodeIdx) (y : Sym) (s : State) : (desLeaf i y s).codes = s.codes := rfl
@[simp] theorem desLeaf_dstate (i : NodeIdx) (y : Sym) (s : State) : (desLeaf i y s).dstate = s.dstate := rfl
@[simp] theorem desLeaf_cur (i : NodeIdx) (y : Sym) (s : State) : (desLeaf i y s).cur = s.cur := rfl
@[simp] theorem desLeaf_walk (i : NodeIdx) (y : Sym) (s : State) : (desLeaf i y s).walk = s.walk := rfl
@[simp] theorem desLeaf_hdes (i : NodeIdx) (y : Sym) (s : State) : (desLeaf i y s).hdes = s.hdes := rfl
@[simp] theorem desLeaf_inp (i : NodeIdx) (y : Sym) (s : State) : (desLeaf i y s).inp = s.inp := rfl
@[simp] theorem desLeaf_out (i : NodeIdx) (y : Sym) (s : State) : (desLeaf i y s).out = s.out := rfl
@[simp] theorem desLeaf_host (i : NodeIdx) (y : Sym) (s : State) : (desLeaf i y s).host = s.host := rfl

/-! ### assignCode -/

@[simp] theorem assignCode_seq (y : Sym) (p : Bits) (s : State) : (assignCode y p s).seq = s.seq := rfl
@[simp] theorem assignCode_status (y : Sym) (p : Bits) (s : State) : (assignCode y p s).status = s.status := rfl
@[simp] theorem assignCode_freq (y : Sym) (p : Bits) (s : State) : (assignCode y p s).freq = s.freq := rfl
@[simp] theorem assignCode_nodes (y : Sym) (p : Bits) (s : State) : (assignCode y p s).nodes = s.nodes := rfl
@[simp] theorem assignCode_root (y : Sym) (p : Bits) (s : State) : (assignCode y p s).root = s.root := rfl
@[simp] theorem assignCode_pq (y : Sym) (p : Bits) (s : State) : (assignCode y p s).pq = s.pq := rfl
@[simp] theorem assignCode_nbytes (y : Sym) (p : Bits) (s : State) : (assignCode y p s).nbytes = s.nbytes := rfl
@[simp] theorem assignCode_nleaf (y : Sym) (p : Bits) (s : State) : (assignCode y p s).nleaf = s.nleaf := rfl
@[simp] theorem assignCode_next (y : Sym) (p : Bits) (s : State) : (assignCode y p s).next = s.next := rfl
@[simp] theorem assignCode_nint (y : Sym) (p : Bits) (s : State) : (assignCode y p s).nint = s.nint := rfl
@[simp] theorem assignCode_codes (y : Sym) (p : Bits) (s : State) : (assignCode y p s).codes = s.codes.set y (s.codes[y].assign p) := rfl
@[simp] theorem assignCode_dstate (y : Sym) (p : Bits) (s : State) : (assignCode y p s).dstate = s.dstate := rfl
@[simp] theorem assignCode_cur (y : Sym) (p : Bits) (s : State) : (assignCode y p s).cur = s.cur := rfl
@[simp] theorem assignCode_walk (y : Sym) (p : Bits) (s : State) : (assignCode y p s).walk = s.walk := rfl
@[simp] theorem assignCode_hdes (y : Sym) (p : Bits) (s : State) : (assignCode y p s).hdes = s.hdes := rfl
@[simp] theorem assignCode_inp (y : Sym) (p : Bits) (s : State) : (assignCode y p s).inp = s.inp := rfl
@[simp] theorem assignCode_out (y : Sym) (p : Bits) (s : State) : (assignCode y p s).out = s.out := rfl
@[simp] theorem assignCode_host (y : Sym) (p : Bits) (s : State) : (assignCode y p s).host = s.host := rfl

/-! ### mergeInsert -/

@[simp] theorem mergeInsert_seq (i : NodeIdx) (s : State) : (mergeInsert i s).seq = .merge := rfl
@[simp] theorem mergeInsert_status (i : NodeIdx) (s : State) : (mergeInsert i s).status = s.status := rfl
@[simp] theorem mergeInsert_freq (i : NodeIdx) (s : State) : (mergeInsert i s).freq = s.freq := rfl
@[simp] theorem mergeInsert_nodes (i : NodeIdx) (s : State) : (mergeInsert i s).nodes = s.nodes := rfl
@[simp] theorem mergeInsert_root (i : NodeIdx) (s : State) : (mergeInsert i s).root = s.root := rfl
@[simp] theorem mergeInsert_pq (i : NodeIdx) (s : State) : (mergeInsert i s).pq = pqInsert i s.pq := rfl
@[simp] theorem mergeInsert_nbytes (i : NodeIdx) (s : State) : (mergeInsert i s).nbytes = s.nbytes := rfl
@[simp] theorem mergeInsert_nleaf (i : NodeIdx) (s : State) : (mergeInsert i s).nleaf = s.nleaf := rfl
@[simp] theorem mergeInsert_next (i : NodeIdx) (s : State) : (mergeInsert i s).next = s.next + 1 := rfl
@[simp] theorem mergeInsert_nint (i : NodeIdx) (s : State) : (mergeInsert i s).nint = s.nint := rfl
@[simp] theorem mergeInsert_codes (i : NodeIdx) (s : State) : (mergeInsert i s).codes = s.codes := rfl
@[simp] theorem mergeInsert_dstate (i : NodeIdx) (s : State) : (mergeInsert i s).dstate = s.dstate := rfl
@[simp] theorem mergeInsert_cur (i : NodeIdx) (s : State) : (mergeInsert i s).cur = s.cur := rfl
@[simp] theorem mergeInsert_walk (i : NodeIdx) (s : State) : (mergeInsert i s).walk = s.walk := rfl
@[simp] theorem mergeInsert_hdes (i : NodeIdx) (s : State) : (mergeInsert i s).hdes = s.hdes := rfl
@[simp] theorem mergeInsert_inp (i : NodeIdx) (s : State) : (mergeInsert i s).inp = s.inp := rfl
@[simp] theorem mergeInsert_out (i : NodeIdx) (s : State) : (mergeInsert i s).out = s.out := rfl
@[simp] theorem mergeInsert_host (i : NodeIdx) (s : State) : (mergeInsert i s).host = s.host := rfl

/-! ### treeBuild -/

@[simp] theorem treeBuild_seq (i l r : NodeIdx) (s : State) : (treeBuild i l r s).seq = .treeReturn i := rfl
@[simp] theorem treeBuild_status (i l r : NodeIdx) (s : State) : (treeBuild i l r s).status = s.status := rfl
@[simp] theorem treeBuild_freq (i l r : NodeIdx) (s : State) : (treeBuild i l r s).freq = s.freq := rfl
@[simp] theorem treeBuild_nodes (i l r : NodeIdx) (s : State) : (treeBuild i l r s).nodes = s.nodes.set i (.internal 0 l r) := rfl
@[simp] theorem treeBuild_root (i l r : NodeIdx) (s : State) : (treeBuild i l r s).root = s.root := rfl
@[simp] theorem treeBuild_pq (i l r : NodeIdx) (s : State) : (treeBuild i l r s).pq = s.pq := rfl
@[simp] theorem treeBuild_nbytes (i l r : NodeIdx) (s : State) : (treeBuild i l r s).nbytes = s.nbytes := rfl
@[simp] theorem treeBuild_nleaf (i l r : NodeIdx) (s : State) : (treeBuild i l r s).nleaf = s.nleaf := rfl
@[simp] theorem treeBuild_next (i l r : NodeIdx) (s : State) : (treeBuild i l r s).next = s.next := rfl
@[simp] theorem treeBuild_nint (i l r : NodeIdx) (s : State) : (treeBuild i l r s).nint = s.nint := rfl
@[simp] theorem treeBuild_codes (i l r : NodeIdx) (s : State) : (treeBuild i l r s).codes = s.codes := rfl
@[simp] theorem treeBuild_dstate (i l r : NodeIdx) (s : State) : (treeBuild i l r s).dstate = s.dstate := rfl
@[simp] theorem treeBuild_cur (i l r : NodeIdx) (s : State) : (treeBuild i l r s).cur = s.cur := rfl
@[simp] theorem treeBuild_walk (i l r : NodeIdx) (s : State) : (treeBuild i l r s).walk = s.walk := rfl
@[simp] theorem treeBuild_hdes (i l r : NodeIdx) (s : State) : (treeBuild i l r s).hdes = s.hdes := rfl
@[simp] theorem treeBuild_inp (i l r : NodeIdx) (s : State) : (treeBuild i l r s).inp = s.inp := rfl
@[simp] theorem treeBuild_out (i l r : NodeIdx) (s : State) : (treeBuild i l r s).out = s.out := rfl
@[simp] theorem treeBuild_host (i l r : NodeIdx) (s : State) : (treeBuild i l r s).host = s.host := rfl

/-! ### decodeReset -/

@[simp] theorem decodeReset_seq (s : State) : (decodeReset s).seq = .decodeBit := rfl
@[simp] theorem decodeReset_status (s : State) : (decodeReset s).status = s.status := rfl
@[simp] theorem decodeReset_freq (s : State) : (decodeReset s).freq = s.freq := rfl
@[simp] theorem decodeReset_nodes (s : State) : (decodeReset s).nodes = s.nodes := rfl
@[simp] theorem decodeReset_root (s : State) : (decodeReset s).root = s.root := rfl
@[simp] theorem decodeReset_pq (s : State) : (decodeReset s).pq = s.pq := rfl
@[simp] theorem decodeReset_nbytes (s : State) : (decodeReset s).nbytes = s.nbytes := rfl
@[simp] theorem decodeReset_nleaf (s : State) : (decodeReset s).nleaf = s.nleaf := rfl
@[simp] theorem decodeReset_next (s : State) : (decodeReset s).next = s.next := rfl
@[simp] theorem decodeReset_nint (s : State) : (decodeReset s).nint = s.nint := rfl
@[simp] theorem decodeReset_codes (s : State) : (decodeReset s).codes = s.codes := rfl
@[simp] theorem decodeReset_dstate (s : State) : (decodeReset s).dstate = .atRoot := rfl
@[simp] theorem decodeReset_cur (s : State) : (decodeReset s).cur = s.root := rfl
@[simp] theorem decodeReset_walk (s : State) : (decodeReset s).walk = s.walk := rfl
@[simp] theorem decodeReset_hdes (s : State) : (decodeReset s).hdes = s.hdes := rfl
@[simp] theorem decodeReset_inp (s : State) : (decodeReset s).inp = s.inp := rfl
@[simp] theorem decodeReset_out (s : State) : (decodeReset s).out = s.out := rfl
@[simp] theorem decodeReset_host (s : State) : (decodeReset s).host = s.host := rfl

/-! ### bindValue -/

@[simp] theorem bindValue_seq (v : HostValue) (s : State) : (bindValue v s).seq = s.seq := rfl
@[simp] theorem bindValue_status (v : HostValue) (s : State) : (bindValue v s).status = s.status := rfl
@[simp] theorem bindValue_freq (v : HostValue) (s : State) : (bindValue v s).freq = s.freq := rfl
@[simp] theorem bindValue_nodes (v : HostValue) (s : State) : (bindValue v s).nodes = s.nodes := rfl
@[simp] theorem bindValue_root (v : HostValue) (s : State) : (bindValue v s).root = s.root := rfl
@[simp] theorem bindValue_pq (v : HostValue) (s : State) : (bindValue v s).pq = s.pq := rfl
@[simp] theorem bindValue_nbytes (v : HostValue) (s : State) : (bindValue v s).nbytes = s.nbytes := rfl
@[simp] theorem bindValue_nleaf (v : HostValue) (s : State) : (bindValue v s).nleaf = s.nleaf := rfl
@[simp] theorem bindValue_next (v : HostValue) (s : State) : (bindValue v s).next = s.next := rfl
@[simp] theorem bindValue_nint (v : HostValue) (s : State) : (bindValue v s).nint = s.nint := rfl
@[simp] theorem bindValue_codes (v : HostValue) (s : State) : (bindValue v s).codes = s.codes := rfl
@[simp] theorem bindValue_dstate (v : HostValue) (s : State) : (bindValue v s).dstate = s.dstate := rfl
@[simp] theorem bindValue_cur (v : HostValue) (s : State) : (bindValue v s).cur = s.cur := rfl
@[simp] theorem bindValue_walk (v : HostValue) (s : State) : (bindValue v s).walk = s.walk := rfl
@[simp] theorem bindValue_hdes (v : HostValue) (s : State) : (bindValue v s).hdes = s.hdes := rfl
@[simp] theorem bindValue_inp (v : HostValue) (s : State) : (bindValue v s).inp = s.inp := rfl
@[simp] theorem bindValue_out (v : HostValue) (s : State) : (bindValue v s).out = s.out := rfl
@[simp] theorem bindValue_host (v : HostValue) (s : State) : (bindValue v s).host = { s.host with seen := s.host.seen ++ [v] } := rfl

/-! ### dropAction -/

@[simp] theorem dropAction_seq (k : List HostAction) (s : State) : (dropAction k s).seq = s.seq := rfl
@[simp] theorem dropAction_status (k : List HostAction) (s : State) : (dropAction k s).status = s.status := rfl
@[simp] theorem dropAction_freq (k : List HostAction) (s : State) : (dropAction k s).freq = s.freq := rfl
@[simp] theorem dropAction_nodes (k : List HostAction) (s : State) : (dropAction k s).nodes = s.nodes := rfl
@[simp] theorem dropAction_root (k : List HostAction) (s : State) : (dropAction k s).root = s.root := rfl
@[simp] theorem dropAction_pq (k : List HostAction) (s : State) : (dropAction k s).pq = s.pq := rfl
@[simp] theorem dropAction_nbytes (k : List HostAction) (s : State) : (dropAction k s).nbytes = s.nbytes := rfl
@[simp] theorem dropAction_nleaf (k : List HostAction) (s : State) : (dropAction k s).nleaf = s.nleaf := rfl
@[simp] theorem dropAction_next (k : List HostAction) (s : State) : (dropAction k s).next = s.next := rfl
@[simp] theorem dropAction_nint (k : List HostAction) (s : State) : (dropAction k s).nint = s.nint := rfl
@[simp] theorem dropAction_codes (k : List HostAction) (s : State) : (dropAction k s).codes = s.codes := rfl
@[simp] theorem dropAction_dstate (k : List HostAction) (s : State) : (dropAction k s).dstate = s.dstate := rfl
@[simp] theorem dropAction_cur (k : List HostAction) (s : State) : (dropAction k s).cur = s.cur := rfl
@[simp] theorem dropAction_walk (k : List HostAction) (s : State) : (dropAction k s).walk = s.walk := rfl
@[simp] theorem dropAction_hdes (k : List HostAction) (s : State) : (dropAction k s).hdes = s.hdes := rfl
@[simp] theorem dropAction_inp (k : List HostAction) (s : State) : (dropAction k s).inp = s.inp := rfl
@[simp] theorem dropAction_out (k : List HostAction) (s : State) : (dropAction k s).out = s.out := rfl
@[simp] theorem dropAction_host (k : List HostAction) (s : State) : (dropAction k s).host = { s.host with program := k } := rfl

/-! ### giveTurn -/

@[simp] theorem giveTurn_seq (a : Agent) (s : State) : (giveTurn a s).seq = s.seq := rfl
@[simp] theorem giveTurn_status (a : Agent) (s : State) : (giveTurn a s).status = s.status := rfl
@[simp] theorem giveTurn_freq (a : Agent) (s : State) : (giveTurn a s).freq = s.freq := rfl
@[simp] theorem giveTurn_nodes (a : Agent) (s : State) : (giveTurn a s).nodes = s.nodes := rfl
@[simp] theorem giveTurn_root (a : Agent) (s : State) : (giveTurn a s).root = s.root := rfl
@[simp] theorem giveTurn_pq (a : Agent) (s : State) : (giveTurn a s).pq = s.pq := rfl
@[simp] theorem giveTurn_nbytes (a : Agent) (s : State) : (giveTurn a s).nbytes = s.nbytes := rfl
@[simp] theorem giveTurn_nleaf (a : Agent) (s : State) : (giveTurn a s).nleaf = s.nleaf := rfl
@[simp] theorem giveTurn_next (a : Agent) (s : State) : (giveTurn a s).next = s.next := rfl
@[simp] theorem giveTurn_nint (a : Agent) (s : State) : (giveTurn a s).nint = s.nint := rfl
@[simp] theorem giveTurn_codes (a : Agent) (s : State) : (giveTurn a s).codes = s.codes := rfl
@[simp] theorem giveTurn_dstate (a : Agent) (s : State) : (giveTurn a s).dstate = s.dstate := rfl
@[simp] theorem giveTurn_cur (a : Agent) (s : State) : (giveTurn a s).cur = s.cur := rfl
@[simp] theorem giveTurn_walk (a : Agent) (s : State) : (giveTurn a s).walk = s.walk := rfl
@[simp] theorem giveTurn_hdes (a : Agent) (s : State) : (giveTurn a s).hdes = s.hdes := rfl
@[simp] theorem giveTurn_inp (a : Agent) (s : State) : (giveTurn a s).inp = s.inp := rfl
@[simp] theorem giveTurn_out (a : Agent) (s : State) : (giveTurn a s).out = s.out := rfl
@[simp] theorem giveTurn_host (a : Agent) (s : State) : (giveTurn a s).host = { s.host with turns := a :: s.host.turns } := rfl

end Sys2Proof.Machine
end

