-- ==== Sys2Proof/Laws/Ops.lean ====
section
/-! SUPPORT. One lemma per shared operation that says everything it can do: reads of IN, writes of OUT, the queue, the
arena, symbols, command acceptance. -/

namespace Sys2Proof.Machine

/-! ## IN and OUT -/

/-- A read takes its field and moves past it, or answers EOF at the end. -/
theorem readBits_cases (n : Nat) (p : InPort) :
    (p.pos + n ≤ p.bits.length ∧
      p.readBits n = .value (fieldOf n (p.remaining.take n)) { p with pos := p.pos + n }) ∨
    (p.bits.length < p.pos + n ∧ p.readBits n = .eof { p with pos := p.bits.length }) := by
  unfold InPort.readBits
  split
  · exact .inl ⟨‹_›, rfl⟩
  · exact .inr ⟨by omega, rfl⟩

theorem readBits_of_le {n : Nat} {p : InPort} (h : p.pos + n ≤ p.bits.length) :
    p.readBits n = .value (fieldOf n (p.remaining.take n)) { p with pos := p.pos + n } := if_pos h

theorem readBits_of_lt {n : Nat} {p : InPort} (h : p.bits.length < p.pos + n) :
    p.readBits n = .eof { p with pos := p.bits.length } := if_neg (by omega)

/-- Moving the position does not change what IN supplies. -/
@[simp] theorem bits_with_pos (p : InPort) (k : Nat) : ({ p with pos := k } : InPort).bits = p.bits := rfl

@[simp] theorem remaining_with_pos (p : InPort) (k : Nat) :
    ({ p with pos := k } : InPort).remaining = p.bits.drop k := rfl

@[simp] theorem append_bits (p : Bits) (o : OutPort) : (o.append p).bits = o.bits ++ p := rfl

@[simp] theorem append_closed (p : Bits) (o : OutPort) : (o.append p).closed = o.closed := rfl

@[simp] theorem writeBits_bits {n : Nat} (v : BitVec n) (o : OutPort) :
    (o.writeBits v).bits = o.bits ++ bitsOf v := rfl

@[simp] theorem writeBits_closed {n : Nat} (v : BitVec n) (o : OutPort) : (o.writeBits v).closed = o.closed := rfl

@[simp] theorem close_closed (o : OutPort) : o.close.closed = true := rfl

@[simp] theorem close_bits (o : OutPort) :
    o.close.bits = o.bits ++ List.replicate (padLen o.bits.length) false := rfl

/-! ## Commands -/

theorem whenIdle_of_busy {f : State → State} {s : State} (h : s.status.busy = true) : whenIdle f s = .next s := by
  simp [whenIdle, h]

theorem whenIdle_of_idle {f : State → State} {s : State} (h : s.status.busy = false) :
    whenIdle f s = .next (f s) := by simp [whenIdle, h]

/-- A command word always answers a next state: the same, the start of a command, or ILLEGAL_COMMAND. -/
theorem exec_decodeCmd_cases (w : Word) (s : State) :
    exec (decodeCmd w) s = .next s ∨
    (s.status.busy = false ∧
      (exec (decodeCmd w) s = .next (acceptCommand 1 (.countClear 0) s) ∨
        exec (decodeCmd w) s = .next (acceptCommand 2 .magicRead s) ∨
        ∃ op, exec (decodeCmd w) s = .next (illegalCommand op s))) := by
  cases hb : s.status.busy
  · unfold decodeCmd
    split
    · exact .inr ⟨rfl, .inr (.inr ⟨_, whenIdle_of_idle hb⟩)⟩
    split
    · exact .inl rfl
    split
    · exact .inr ⟨rfl, .inl (whenIdle_of_idle hb)⟩
    split
    · exact .inr ⟨rfl, .inr (.inl (whenIdle_of_idle hb))⟩
    · exact .inr ⟨rfl, .inr (.inr ⟨_, whenIdle_of_idle hb⟩)⟩
  · left
    unfold decodeCmd
    split
    · exact whenIdle_of_busy hb
    split
    · rfl
    split
    · exact whenIdle_of_busy hb
    split <;> exact whenIdle_of_busy hb

/-! ## The arena and the queue -/

theorem arenaSlot_of_lt {n : BitVec 10} (h : n.toNat < Config.nodeCap) : arenaSlot n = some ⟨n.toNat, h⟩ := dif_pos h

theorem arenaSlot_eq_some {n : BitVec 10} {i : NodeIdx} : arenaSlot n = some i ↔ n.toNat = i.val := by
  unfold arenaSlot
  split
  · rw [Option.some.injEq, Fin.ext_iff]
  · refine ⟨nofun, fun h => ?_⟩
    exact absurd (h ▸ i.isLt) ‹_›

theorem allocNode_of_eq {k : NodeIdx → State → StepOutcome} {s : State} {i : NodeIdx} (h : s.next.toNat = i.val) :
    allocNode k s = k i { s with next := s.next + 1 } := by
  simp [allocNode, arenaSlot_eq_some.mpr h]

theorem pqMin_mem {nodes : Vector Node Config.nodeCap} {q : List NodeIdx} {a : NodeIdx}
    (h : pqMin nodes q = some a) : a ∈ q := by
  induction q generalizing a with
  | nil => simp [pqMin] at h
  | cons b q ih =>
    rw [pqMin] at h
    cases hq : pqMin nodes q with
    | none => simp_all
    | some c =>
      have := ih hq
      rw [hq] at h
      simp only [Option.some.injEq] at h
      split at h <;> simp_all

theorem pqRemoveMin_eq_some {nodes : Vector Node Config.nodeCap} {q q' : List NodeIdx} {a : NodeIdx} :
    pqRemoveMin nodes q = some (a, q') ↔ pqMin nodes q = some a ∧ q' = q.erase a := by
  simp only [pqRemoveMin, Option.map_eq_some_iff, Prod.mk.injEq]
  constructor
  · rintro ⟨b, hb, rfl, rfl⟩
    exact ⟨hb, rfl⟩
  · rintro ⟨h, rfl⟩
    exact ⟨a, h, rfl, rfl⟩

theorem pqMin_eq_none {nodes : Vector Node Config.nodeCap} {q : List NodeIdx} : pqMin nodes q = none ↔ q = [] := by
  cases q with
  | nil => simp [pqMin]
  | cons a q =>
    rw [pqMin]
    split <;> simp

theorem pqRemoveMin_eq_none {nodes : Vector Node Config.nodeCap} {q : List NodeIdx} :
    pqRemoveMin nodes q = none ↔ q = [] := by
  simp only [pqRemoveMin, Option.map_eq_none_iff, pqMin_eq_none]

/-- A removal takes one entry out. -/
theorem pqRemoveMin_length {nodes : Vector Node Config.nodeCap} {q q' : List NodeIdx} {a : NodeIdx}
    (h : pqRemoveMin nodes q = some (a, q')) : q'.length + 1 = q.length := by
  obtain ⟨hm, rfl⟩ := pqRemoveMin_eq_some.mp h
  have hmem := pqMin_mem hm
  have hpos := List.length_pos_of_mem hmem
  have := List.length_erase_of_mem hmem
  omega

/-! ## Symbols -/

theorem symOfField_of_le {v : BitVec 9} (h : v.toNat ≤ Config.sentinel) :
    symOfField v = some ⟨v.toNat, Nat.lt_succ_of_le h⟩ := dif_pos (Nat.lt_succ_of_le h)

theorem symOfField_of_lt {v : BitVec 9} (h : Config.sentinel < v.toNat) : symOfField v = none :=
  dif_neg (show ¬ v.toNat < Config.sentinel + 1 by omega)

@[simp] theorem toNat_symField (y : Sym) : (symField y).toNat = y.val :=
  BitVec.toNat_ofNat .. |>.trans (Nat.mod_eq_of_lt (Nat.lt_trans y.isLt (by decide)))

@[simp] theorem symOfField_symField (y : Sym) : symOfField (symField y) = some y := by
  rw [symOfField_of_le (by simpa using Nat.le_of_lt_succ y.isLt)]
  simp

theorem val_symOfByte (b : Byte) : (symOfByte b).val = b.toNat := rfl

@[simp] theorem symByte_symOfByte (b : Byte) : symByte (symOfByte b) = b := by simp [symByte, val_symOfByte]

theorem symOfByte_ne_sentinel (b : Byte) : symOfByte b ≠ sentinelSym := by
  intro h
  have h1 : b.toNat = Config.sentinel := congrArg Fin.val h
  have h2 : b.toNat < Config.sentinel := b.isLt
  omega

end Sys2Proof.Machine
end

