-- ==== Sys2Proof/Laws/PerInstr.lean ====
section
/-! SUPPORT. Facts stated per instruction, one lemma per constructor of Instr. -/

namespace Sys2Proof.Laws.EncodingWidth

/-- The encoder writes as many bits as the opcode table's width of the row (30_encoding.md R53). -/
def Statement (i : Instr) : Prop := (encode i).length = i.width

theorem nop : Statement .nop := length_bitsOf _
theorem compress : Statement .compress := length_bitsOf _
theorem decompress : Statement .decompress := length_bitsOf _
theorem cmdIllegalOp : Statement .cmdIllegalOp := length_bitsOf _
theorem cmdIllegalRsv (r : BitVec 30) (o : BitVec 2) : Statement (.cmdIllegalRsv r o) := length_bitsOf _
theorem magic (m : Word) : Statement (.magic m) := length_bitsOf _
theorem hdrInternal : Statement .hdrInternal := rfl
theorem hdrLeaf (sym : BitVec 9) : Statement (.hdrLeaf sym) := congrArg Nat.succ (length_bitsOf _)
theorem hdrLeafBadsym (sym : BitVec 9) : Statement (.hdrLeafBadsym sym) := congrArg Nat.succ (length_bitsOf _)
theorem codeBitLeft : Statement .codeBitLeft := rfl
theorem codeBitRight : Statement .codeBitRight := rfl
theorem inByte (b : Byte) : Statement (.inByte b) := length_bitsOf _
theorem outSymbol (b : Byte) : Statement (.outSymbol b) := length_bitsOf _

end Sys2Proof.Laws.EncodingWidth
end

