-- ==== Sys2Proof/Laws/Step.lean ====
section
/-! SUPPORT. Steps taken apart: whose turn it is, what that agent does, and runs. -/

namespace Sys2Proof.Machine

/-! ## Turns -/

/-- Taking a turn changes the HOST's list of turns only. -/
theorem takeTurn_snd (s : State) :
    (takeTurn s).2 = { s with host := { s.host with turns := (takeTurn s).2.host.turns } } := by
  unfold takeTurn
  split <;> rfl

theorem step_engine {s : State} (h : engineTurn s) : step s = (engineFetch (takeTurn s).2).outcome := by
  unfold engineTurn at h
  unfold step fetch
  split <;> simp_all

theorem step_host {s : State} (h : hostTurn s) : step s = (hostFetch (takeTurn s).2).outcome := by
  unfold hostTurn at h
  unfold step fetch
  split <;> simp_all

theorem engineTurn_or_hostTurn (s : State) : engineTurn s ∨ hostTurn s := by
  unfold engineTurn hostTurn
  cases (takeTurn s).1
  · exact .inr rfl
  · exact .inl rfl

/-- With no turn set, a running command's next step is the ENGINE's, on the state as it is. -/
theorem step_undisturbed {s : State} (h : undisturbed s) (hs : s.seq ≠ .idle) :
    step s = (engineFetch s).outcome := by
  have : takeTurn s = (.engine, s) := by
    unfold undisturbed at h
    simp [takeTurn, h, hs]
  unfold step fetch
  rw [this]

/-! ## Reading a field -/

/-- Everything reading a field can do: the field held, past it, or the phase's answer to EOF at the end. -/
theorem readField_cases (n : Nat) (hold : BitVec n → Seq) (eof : State → State) (s : State) :
    (s.inp.pos + n ≤ s.inp.bits.length ∧
      readField n hold eof s = .done (.next { s with
        inp := { s.inp with pos := s.inp.pos + n }, seq := hold (fieldOf n (s.inp.remaining.take n)) })) ∨
    (s.inp.bits.length < s.inp.pos + n ∧
      readField n hold eof s =
        .done (.next (eof { s with inp := { s.inp with pos := s.inp.bits.length } }))) := by
  obtain ⟨h1, h2⟩ | ⟨h1, h2⟩ := readBits_cases n s.inp
  · exact .inl ⟨h1, by simp [readField, h2]⟩
  · exact .inr ⟨h1, by simp [readField, h2]⟩

/-! ## One operation each -/

/-- Everything a return to the walk stack can do: the subtree put off last is next, or, with none, the phase ends. -/
theorem popWalk_cases (visit : WalkEntry → Seq) (q : Seq) (s : State) :
    (s.walk = [] ∧ popWalk visit q s = { s with seq := q }) ∨
    (∃ e rest, s.walk = e :: rest ∧ popWalk visit q s = { s with walk := rest, seq := visit e }) := by
  unfold popWalk
  split
  · exact .inl ⟨‹_›, rfl⟩
  · exact .inr ⟨_, _, ‹_›, rfl⟩

/-- Everything a removal from PQ can do: it faults on an empty queue, and otherwise takes one entry. -/
theorem takeMin_cases (k : NodeIdx → State → State) (s : State) :
    (s.pq = [] ∧ takeMin k s = .fault .emptyQueue) ∨
    (∃ a q, pqRemoveMin s.nodes s.pq = some (a, q) ∧ takeMin k s = .next (k a { s with pq := q })) := by
  unfold takeMin
  split
  · exact .inl ⟨pqRemoveMin_eq_none.mp ‹_›, rfl⟩
  · exact .inr ⟨_, _, ‹_›, rfl⟩

/-! ## Runs -/

theorem Reaches.trans {s t u : State} (h : Reaches s t) (k : Reaches t u) : Reaches s u := by
  induction h with
  | refl => exact k
  | step hs _ ih => exact .step hs (ih k)

theorem Reaches.single {s t : State} (h : Machine.step s = .next t) : Reaches s t := .step h (.refl t)

/-- An invariant that every step keeps holds along every run. -/
theorem Reaches.invariant {P : State → Prop} (keep : ∀ s t, P s → Machine.step s = .next t → P t) {s t : State}
    (h : Reaches s t) (hs : P s) : P t := by
  induction h with
  | refl => exact hs
  | step hst _ ih => exact ih (keep _ _ hs hst)

/-! ## Phases and the invariant -/

theorem phase_eq_idle {q : Seq} : q.phase = .idle ↔ q = .idle := by
  cases q <;> simp [Seq.phase]

/-- The HOST's own fields are no part of the invariant. -/
theorem inv_with_host (s : State) (h : HostState) : Inv { s with host := h } ↔ Inv s := Iff.rfl

end Sys2Proof.Machine
end

