-- ==== Sys2Proof/Tests/Slice0.lean ====
section
/-! SUPPORT. Tests: well-formedness, words written out from the spec's encodings, single steps with results worked out in
spec/95_test_vectors.md, and for every statement with hypotheses a concrete state and operands that meet them. -/

namespace Sys2Proof.Tests

open Sys2Proof Sys2Proof.Machine

/-! ## Helpers -/

/-- Reset, with the ENGINE at `q` of a running command. -/
def running (q : Seq) : State :=
  { State.reset with seq := q, status := { Status.reset with busy := true, lastOp := 1 } }

/-- Reset, with the HOST's program. -/
def hostDoing (p : List HostAction) : State :=
  { State.reset with host := { program := p, turns := [], seen := [] } }

/-- IN holding `b` for both passes, at bit `pos`. -/
def supply (b : List Byte) (pos : Nat) : InPort := { first := b, second := b, rewound := false, pos := pos }

/-- The arena of rule R73's example: leaves 65, 66, 256, `Internal(2, 1, 2)`, `Internal(4, 0, 3)`. -/
def aabNodes : Vector Node Config.nodeCap :=
  ((((State.reset.nodes.set 0 (.leaf 65 2)).set 1 (.leaf 66 1)).set 2 (.leaf 256 1)).set 3 (.internal 2 1 2)).set 4
    (.internal 4 0 3)

/-- The tree of rule R73's example. -/
def aabTree : Tree := .node (.leaf 65) (.node (.leaf 66) (.leaf 256))

/-- A running state with that tree at ROOT. -/
def aab (q : Seq) : State := { running q with nodes := aabNodes, root := 4, cur := 4 }

/-- STATUS's word in a next state. -/
def statusAfter (o : StepOutcome) : Option Word :=
  match o with
  | .next t => some t.status.word
  | _ => none

/-- OUT's bits in a next state. -/
def outAfter (o : StepOutcome) : Option Bits :=
  match o with
  | .next t => some t.out.bits
  | _ => none

/-- The ENGINE's place in a next state. -/
def seqAfter (o : StepOutcome) : Option Seq :=
  match o with
  | .next t => some t.seq
  | _ => none

/-! ## Well-formedness: an ill-formed term for each check -/

theorem test_wf_refuses_reserved_zero : Instr.wf (.cmdIllegalRsv 0 1) = false := by decide
theorem test_wf_refuses_leaf_257 : Instr.wf (.hdrLeaf 257) = false := by decide
theorem test_wf_refuses_badsym_256 : Instr.wf (.hdrLeafBadsym 256) = false := by decide

/-! ## Decoding: every constructor by a word written out from 30_encoding.md R54 to R60 -/

theorem test_decode_nop : decodeCmd 0x00000000 = .nop := by decide
theorem test_decode_compress : decodeCmd 0x00000001 = .compress := by decide
theorem test_decode_decompress : decodeCmd 0x00000002 = .decompress := by decide
theorem test_decode_illegal_op : decodeCmd 0x00000003 = .cmdIllegalOp := by decide
theorem test_decode_illegal_rsv : decodeCmd 0x00000005 = .cmdIllegalRsv 1 1 := by decide
theorem test_decode_magic :
    decode .magic
      [true, true, true, true, true, false, true, false, true, true, false, false, true, true, true, false,
       true, false, false, false, false, false, true, false, false, false, false, false, false, false, false, true] =
      .token (.magic 0xFACE8201) [] := by decide
theorem test_decode_hdr_internal : decode .header [false] = .token .hdrInternal [] := by decide
/-- 43_header_codec.md R82's example: the leaf 256. -/
theorem test_decode_hdr_leaf :
    decode .header [true, true, false, false, false, false, false, false, false, false] = .token (.hdrLeaf 256) [] := by
  decide
theorem test_decode_hdr_leaf_badsym :
    decode .header [true, true, true, true, true, true, true, true, true, true] = .token (.hdrLeafBadsym 511) [] := by
  decide
theorem test_decode_hdr_leaf_truncated :
    decode .header [true, false, false, false, false, false, false, false] = .reject (.truncated .header) := by decide
theorem test_decode_code_bit_left : decode .code [false, true] = .token .codeBitLeft [true] := by decide
theorem test_decode_code_bit_right : decode .code [true, false] = .token .codeBitRight [false] := by decide
theorem test_decode_in_byte :
    decode .inByte [false, true, false, false, false, false, true, false] = .token (.inByte 0x42) [] := by decide
theorem test_decode_out_symbol :
    decode .outByte [false, false, false, false, false, true, true, true] = .token (.outSymbol 7) [] := by decide

/-! ## One step per instruction -/

/-- V-X3: NOP leaves STATUS 0x00000102. -/
theorem test_nop_keeps_status :
    statusAfter (step { hostDoing [.write .cmd 0] with
      status := { busy := false, done := true, err := false, errCode := .none, lastOp := 1 } }) = some 0x00000102 := by
  decide
/-- V-X1. -/
theorem test_compress_status : statusAfter (step (hostDoing [.write .cmd 1])) = some 0x00000101 := by decide
/-- V-X8: the error fields clear. -/
theorem test_compress_clears_error :
    statusAfter (step { hostDoing [.write .cmd 1] with
      status := { busy := false, done := true, err := true, errCode := .illegalCommand, lastOp := 3 } }) =
      some 0x00000101 := by decide
/-- V-X2. -/
theorem test_decompress_status : statusAfter (step (hostDoing [.write .cmd 2])) = some 0x00000201 := by decide
/-- V-X7: ignored while BUSY. -/
theorem test_decompress_ignored_while_busy :
    statusAfter (exec (decodeCmd 2) (running .count)) = some 0x00000101 := by decide
/-- V-X4. -/
theorem test_illegal_op_status : statusAfter (step (hostDoing [.write .cmd 3])) = some 0x00000366 := by decide
/-- V-X5. -/
theorem test_illegal_rsv_status : statusAfter (step (hostDoing [.write .cmd 5])) = some 0x00000166 := by decide
/-- V-X6. -/
theorem test_illegal_rsv_op_zero : statusAfter (step (hostDoing [.write .cmd 0x80000000])) = some 0x00000066 := by
  decide
/-- R93: the marker's 32 bits are appended. -/
theorem test_magic_written :
    outAfter (step (running .magicWrite)) = some (bitsOf Config.huffMagic) := by
  simp [step, fetch, takeTurn, running, State.reset, engineFetch, Fetched.outcome, exec, execMagic, outAfter]
/-- R82's example, first token: `0`. -/
theorem test_hdr_internal_written :
    outAfter (step (aab (.headerNode 4))) = some [false] := by decide
/-- V-H11: the 257th internal node. -/
theorem test_hdr_internal_257th :
    seqAfter (exec .hdrInternal { running (.treeBit false) with nint := 256, next := 256 }) =
      some (.close .malformedHeader) := by decide
/-- R82's example: the symbol 65 after its tag. -/
theorem test_hdr_leaf_written :
    outAfter (step (aab (.headerSym 0))) =
      some [false, false, true, false, false, false, false, false, true] := by decide
/-- V-H8: the 10 bits of `C0 40` hold the symbol 257. -/
theorem test_hdr_leaf_257_read :
    seqAfter (step { running (.treeSym 0) with inp := supply [0xC0, 0x40] 1 }) = some (.treeLeaf 0 257) := by decide
theorem test_hdr_leaf_257_refused :
    seqAfter (step (running (.treeLeaf 0 257))) = some (.close .malformedHeader) := by decide
/-- V-H9. -/
theorem test_hdr_leaf_badsym_511 :
    seqAfter (exec (.hdrLeafBadsym 511) (running (.treeLeaf 0 511))) = some (.close .malformedHeader) := by decide
/-- R102's example: `0` gives 65. -/
theorem test_code_bit_left : seqAfter (exec .codeBitLeft (aab (.decodeStep false))) = some (.decodeEmit 65) := by decide
/-- R102's example: `1` goes to the internal node, and `1` from there is TERMINAL. -/
theorem test_code_bit_right :
    (match exec .codeBitRight { aab (.decodeStep true) with cur := 3 } with
     | .next t => some (t.cur, t.dstate)
     | _ => none) = some (2, .terminal) := by decide
/-- R68: the byte after MAX_LEN bytes raises INPUT_TOO_LONG. -/
theorem test_in_byte_too_long :
    seqAfter (exec (.inByte 0) { running (.countByte 0) with nbytes := 0xFFFFFFFE }) = some (.close .inputTooLong) := by decide
/-- V-C8: a byte without a code. -/
theorem test_in_byte_mismatch :
    seqAfter (exec (.inByte 66) (running (.encodeByte 66))) = some (.close .inputMismatch) := by decide
/-- R104. -/
theorem test_out_symbol :
    outAfter (step (running (.decodeEmit 0x41))) = some [false, true, false, false, false, false, false, true] := by
  decide

/-! ## Steps without a token -/

/-- V-T2: the first merge takes entry 1 first, and makes node 3 of entries 1 and 2. -/
theorem test_merge_first :
    (match step { aab .merge with pq := [0, 1, 2], next := 3 } with
     | .next t => some (t.pq, t.seq)
     | _ => none) = some ([0, 2], .mergeSecond 1) := by decide
theorem test_merge_node :
    (match step { aab (.mergeNode 1 2) with pq := [0], next := 3, nodes := aabNodes.set 3 (.leaf 0 0) } with
     | .next t => some (t.nodes[3], t.seq)
     | _ => none) = some (.internal 2 1 2, .mergeInsert 3) := by decide
/-- V-G1: the degenerate tree's code is `0`. -/
theorem test_codes_degenerate :
    (match step { running .codesStart with nodes := State.reset.nodes.set 0 (.leaf 256 1) } with
     | .next t => some (t.codes[256].path, t.codes[0].valid)
     | _ => none) = some ([false], false) := by decide
/-- S4: a code of value 00011 writes 5 bits, and close makes the byte 0x18. -/
theorem test_code_leading_zeros :
    (OutPort.close { bits := (Code.empty.assign [false, false, false, true, true]).path, closed := false }).bytes =
      [0x18] := by decide
/-- V-D5: fewer than 32 bits of marker. -/
theorem test_magic_eof :
    seqAfter (step { running .magicRead with inp := supply [0xFA, 0xCE, 0x82] 0 }) = some (.close .badMagic) := by
  decide
/-- V-H1 read back: readTree returns the root. -/
theorem test_tree_root :
    (match step { running (.treeReturn 0) with next := 1 } with
     | .next t => some (t.seq, t.root, t.dstate)
     | _ => none) = some (.decodeBit, 0, .atRoot) := by decide
/-- V-D8: TRUNCATED_STREAM in STATUS. -/
theorem test_finish_truncated :
    statusAfter (step { running (.finish .truncatedStream) with
      status := { busy := true, done := false, err := false, errCode := .none, lastOp := 2 } }) =
      some 0x00000226 := by decide

/-! ## Words of the opcode table, as the first step after reset -/

theorem test_first_step_compress :
    seqAfter (step (State.reset.withFetchWord 32 1)) = some (.countClear 0) := by decide
theorem test_first_step_hdr_leaf :
    (match step (State.reset.withFetchWord 16 0x241) with
     | .next t => some (t.seq, t.nodes[0])
     | _ => none) = some (.treeReturn 0, .leaf 65 0) := by decide
theorem test_first_step_code_bit_right :
    seqAfter (step (State.reset.withFetchWord 8 1)) = some (.decodeEmit 0) := by decide

end Sys2Proof.Tests
end

