-- ==== Sys2Proof/Tests/Witness.lean ====
section
/-! SUPPORT. For every statement with hypotheses, a concrete state and operands that meet all of them together, clause by
clause, at the boundary values of their ranges. -/

namespace Sys2Proof.Tests

open Sys2Proof Sys2Proof.Machine

/-! ## States of the witnesses -/

/-- Between `OUT.close()` and the STATUS write, with one closed byte. -/
def finishing : State :=
  { running (.finish .none) with out := { bits := [true, false, false, false, false, false, false, false], closed := true } }

/-- DECODE_STEP next on the tree of R73's example, IN holding the payload `0 0 10 11 00` (V-D1). -/
def aabPayload : State := { aab .decodeBit with inp := supply [0x2C] 0 }

/-- DECODE_STEP next on the tree of R73's example, IN holding `0 0 1 1 1 1 1 0` from its bit 7 on: one bit `0`. -/
def aabLastBit : State := { aab .decodeBit with inp := supply [0x2C] 7 }

/-- A degenerate tree of the sentinel, one payload bit left. -/
def degenerate : State :=
  { running .decodeBit with nodes := State.reset.nodes.set 0 (.leaf 256 0), inp := supply [0x00] 7 }

theorem aab_builds : Builds aabNodes 4 aabTree :=
  .node (w := 4) (l := 0) (r := 3) (by decide) (.leaf (w := 2) (by decide))
    (.node (w := 2) (l := 1) (r := 2) (by decide) (.leaf (w := 1) (by decide)) (.leaf (w := 1) (by decide)))

theorem inv_finishing : Inv finishing := by
  refine ⟨?_, ?_, trivial, trivial, trivial, trivial⟩ <;>
    simp [finishing, running, State.reset, Status.reset, StatusOk, PortsOk, Seq.phase]

theorem statusOk_running_count : StatusOk (running .count) := by
  simp [running, State.reset, Status.reset, StatusOk, Seq.phase]

/-! ## Encodings and ports -/

theorem witness_DecodeOfEncodeGivesTheInstruction :
    Instr.wf (.hdrLeaf 256) = true ∧ Instr.wf (.hdrLeafBadsym 257) = true ∧ Instr.wf (.cmdIllegalRsv 1 0) = true := by
  decide

theorem witness_EncodeOfDecodedTokenGivesItsBits :
    decode .header [true, true, false, false, false, false, false, false, false, false, true] =
      .token (.hdrLeaf 256) [true] := by decide

theorem witness_HeaderBitsDetermineTheTree :
    (Tree.leaf 256).header ++ [true] = (Tree.leaf 256).header ++ [true] := rfl

theorem witness_HeaderOfLLeavesHasElevenLMinusOneBits :
    aabTree.leafCount ≤ 257 ∧ (Tree.leaf 256).leafCount = 1 := by decide

theorem witness_CloseBringsOutToWholeBytesAndEndsIt :
    Inv finishing ∧ engineTurn finishing ∧ finishing.out.closed = true ∧ ∃ t, step finishing = .next t :=
  ⟨inv_finishing, rfl, rfl, _, rfl⟩

theorem witness_HostReceivesByteKFromBitsEightK : 0 < finishing.out.bytes.length := by decide

theorem witness_EngineOnlyAppendsToOut :
    (engineTurn (running (.decodeEmit 65)) ∧ ∃ t, step (running (.decodeEmit 65)) = .next t) ∧
    (State.reset.status.busy = false ∧ (∃ t, exec .compress State.reset = .next t) ∧
      ∃ t, exec .decompress State.reset = .next t) :=
  ⟨⟨rfl, _, rfl⟩, rfl, ⟨_, rfl⟩, _, rfl⟩

theorem witness_EngineStepIsOnePortEventOrOneTableOperation :
    (engineTurn (running (.decodeEmit 65)) ∧ ∃ t, step (running (.decodeEmit 65)) = .next t ∧
      t.out ≠ (running (.decodeEmit 65)).out) ∧
    engineTurn (running (.countByte 65)) ∧ ∃ t, step (running (.countByte 65)) = .next t ∧
      t.freq[(65 : Sym)] = 1 :=
  ⟨⟨rfl, _, rfl, by decide⟩, rfl, _, rfl, by decide⟩

theorem witness_HostStepTouchesNoPortButToConnectOrStart :
    (hostTurn (hostDoing [.write .cmd 1]) ∧ ∃ t, step (hostDoing [.write .cmd 1]) = .next t) ∧
    (hostTurn (hostDoing [.connectOut]) ∧ ∃ t, step (hostDoing [.connectOut]) = .next t) ∧
    (hostTurn (hostDoing [.read .status]) ∧ ∃ t, step (hostDoing [.read .status]) = .next t) :=
  ⟨⟨rfl, _, rfl⟩, ⟨rfl, _, rfl⟩, rfl, _, rfl⟩

theorem witness_RewindStartsTheSecondPassOnlyInCRewind :
    engineTurn (running .rewind) ∧ (running .rewind).seq = .rewind ∧
      ∃ t, step (running .rewind) = .next t ∧ t.inp.rewound ≠ (running .rewind).inp.rewound :=
  ⟨rfl, rfl, _, rfl, by decide⟩

/-! ## Commands and STATUS -/

theorem witness_AcceptedCommandsStartTheirFirstPhase : State.reset.status.busy = false := rfl

theorem witness_CommandWhileBusyIsIgnored : (running .count).status.busy = true := rfl

theorem witness_IllegalCommandsEndAtOnce :
    State.reset.status.busy = false ∧ (0x00000003 : Word).extractLsb' 0 2 = 3 ∧
      (0x80000000 : Word).extractLsb' 2 30 ≠ 0 ∧ (0x00000004 : Word).extractLsb' 2 30 ≠ 0 ∧ (1 : BitVec 30) ≠ 0 := by
  decide

theorem witness_StatusChangesOnlyAtItsPoints :
    StatusOk finishing ∧ (∃ t, step finishing = .next t) ∧ (∃ t, step (hostDoing [.write .cmd 1]) = .next t) ∧
      (∃ t, step (hostDoing [.write .cmd 3]) = .next t) ∧ (∃ t, step (hostDoing [.reset]) = .next t) ∧
      ∃ t, step (running (.finish .badMagic)) = .next t :=
  ⟨inv_finishing.1, ⟨_, rfl⟩, ⟨_, rfl⟩, ⟨_, rfl⟩, ⟨_, rfl⟩, _, rfl⟩

theorem witness_PhasesFollowTheirOrder :
    StatusOk (running (.treeReturn 0)) ∧ (running (.treeReturn 0)).seq.phase ≠ .dDecode ∧
      ∃ t, step (running (.treeReturn 0)) = .next t ∧ t.seq.phase = .dDecode :=
  ⟨by simp [running, State.reset, Status.reset, StatusOk, Seq.phase], by decide, _, rfl, rfl⟩

theorem witness_DoneComesOnlyAfterClose :
    (Inv finishing ∧ finishing.status.done = false ∧ ∃ t, step finishing = .next t ∧ t.status.done = true) ∧
    (hostDoing [.write .cmd 3]).status.done = false ∧
      ∃ t, step (hostDoing [.write .cmd 3]) = .next t ∧ t.status.done = true :=
  ⟨⟨inv_finishing, rfl, _, rfl, rfl⟩, rfl, _, rfl, rfl⟩

theorem witness_RaisedErrorClosesOutAndReturnsToIdle :
    undisturbed (running .count) ∧
    (engineTurn (running (.close .badMagic)) ∧ (running (.close .badMagic)).seq = .close .badMagic) ∧
    engineTurn finishing ∧ finishing.seq = .finish .none := ⟨rfl, ⟨rfl, rfl⟩, rfl, rfl⟩

/-! ## Tokens -/

theorem witness_MagicIsWrittenAndCompared :
    (running .magicWrite).seq = .magicWrite ∧
      (running (.magicField Config.huffMagic)).seq = .magicField Config.huffMagic ∧
      (running (.magicField (~~~Config.huffMagic))).seq = .magicField (~~~Config.huffMagic) ∧
      ~~~Config.huffMagic ≠ Config.huffMagic := by
  refine ⟨rfl, rfl, rfl, fun h => ?_⟩
  have h0 := congrArg (fun v : Word => v.getLsbD 0) h
  simp at h0

/-- The four bytes of the marker, as the wire holds them (20_memory.md R33). -/
def markerBytes : List Byte :=
  [Config.huffMagic.extractLsb' 24 8, Config.huffMagic.extractLsb' 16 8, Config.huffMagic.extractLsb' 8 8,
    Config.huffMagic.extractLsb' 0 8]

/-- An empty input has no marker. The four bytes of the marker are one. -/
theorem witness_ReadMagicAcceptsOnlyTheMarker :
    (State.reset.status.busy = false ∧ undisturbed State.reset ∧
      ¬ bitsOf Config.huffMagic <+: streamBits State.reset.inp.first) ∧
    ∃ s : State, s = { State.reset with inp := supply markerBytes 0 } ∧
      s.status.busy = false ∧ undisturbed s ∧ bitsOf Config.huffMagic <+: streamBits s.inp.first := by
  refine ⟨⟨rfl, rfl, fun h => ?_⟩, _, rfl, rfl, rfl, ?_⟩
  · have := h.length_le
    simp [State.reset] at this
  · unfold markerBytes
    generalize Config.huffMagic = m
    simp [streamBits, supply, bitsOf, List.range_succ, BitVec.getMsbD]

theorem witness_HdrInternalIsWrittenAndRead :
    ((aab (.headerNode 4)).seq = .headerNode 4 ∧ (aab (.headerNode 4)).nodes[(4 : NodeIdx)] = .internal 4 0 3) ∧
    (engineTurn (aab (.headerPush 4)) ∧ (aab (.headerPush 4)).seq = .headerPush 4) ∧
    (∃ s : State, s = { running (.treeBit false) with next := 512, nint := 255 } ∧ s.seq = .treeBit false ∧
      s.next.toNat = (512 : NodeIdx).val ∧ s.nint.toNat < 256) ∧
    (∃ s : State, s = { running (.treeBit false) with next := 512, nint := 256 } ∧ s.seq = .treeBit false ∧
      s.next.toNat = (512 : NodeIdx).val ∧ s.nint.toNat = 256) :=
  ⟨⟨rfl, by decide⟩, ⟨rfl, rfl⟩, ⟨_, rfl, rfl, by decide, by decide⟩, _, rfl, rfl, by decide, by decide⟩

theorem witness_HdrLeafIsWrittenAndRead :
    ((aab (.headerSym 2)).seq = .headerSym 2 ∧ (aab (.headerNode 2)).seq = .headerNode 2 ∧
      (aab (.headerSym 2)).nodes[(2 : NodeIdx)] = .leaf 256 1) ∧
    (∃ s : State, s = { aab .headerPop with walk := [{ node := 3, path := [] }] } ∧ engineTurn s ∧
      s.seq = .headerPop ∧ s.walk = [{ node := 3, path := [] }]) ∧
    (running (.treeLeaf 512 (symField 256))).seq = .treeLeaf 512 (symField 256) ∧
    ({ running (.treeBit true) with next := 512 } : State).next.toNat = (512 : NodeIdx).val :=
  ⟨⟨rfl, rfl, by decide⟩, ⟨_, rfl, rfl, rfl, rfl⟩, rfl, by decide⟩

theorem witness_HdrLeafBadsymRaisesMalformedHeader :
    257 ≤ (257 : BitVec 9).toNat ∧ 257 ≤ (511 : BitVec 9).toNat ∧
      (running (.treeLeaf 0 257)).seq = .treeLeaf 0 257 ∧
      ({ running (.treeBit true) with next := 512 } : State).next.toNat < 513 := by decide

theorem witness_CodeBitsMoveToTheChosenChild :
    (aab (.decodeStep false)).seq = .decodeStep false ∧ (aab (.decodeStep true)).seq = .decodeStep true ∧
      aabPayload.dstate ≠ .terminal ∧ (aab (.decodeStep true)).dstate ≠ .terminal ∧
      (aab (.decodeStep true)).nodes[(aab (.decodeStep true)).root] = .internal 4 0 3 ∧
      (aab (.decodeStep true)).nodes[(aab (.decodeStep true)).cur] = .internal 4 0 3 := by
  decide

theorem witness_DegenerateTreeIsDecodedByOneBit :
    (degenerate.seq = .decodeBit ∧ degenerate.dstate ≠ .terminal ∧
      degenerate.nodes[degenerate.root] = .leaf 256 0 ∧ undisturbed degenerate ∧ (256 : Sym).val = 256 ∧
      degenerate.inp.remaining = [false]) ∧
    ((running (.decodeStep true)).seq = .decodeStep true ∧ (running (.decodeStep true)).dstate ≠ .terminal ∧
      (running (.decodeStep true)).nodes[(running (.decodeStep true)).root] = .leaf 0 0 ∧ (0 : Sym).val ≠ 256) ∧
    (running .decodeBit).inp.remaining = [] :=
  ⟨⟨rfl, by decide, by decide, rfl, by decide, by decide⟩, ⟨rfl, by decide, by decide, by decide⟩, by decide⟩

theorem witness_InByteIsCountedOrEncoded :
    (∃ s : State, s = { running (.countByte 0) with nbytes := 0xFFFFFFFD } ∧ s.seq = .countByte 0 ∧
      s.nbytes.toNat < 2 ^ 32 - 2) ∧
    (∃ s : State, s = { running (.countByte 0) with nbytes := 0xFFFFFFFE } ∧ s.seq = .countByte 0 ∧
      s.nbytes.toNat = 2 ^ 32 - 2) ∧
    (∃ s : State, s = { running (.encodeByte 255) with
        codes := State.reset.codes.set 255 (Code.empty.assign [true]) } ∧
      s.seq = .encodeByte 255 ∧ s.codes[symOfByte 255].valid = true) ∧
    (running (.encodeByte 0)).seq = .encodeByte 0 ∧ (running (.encodeByte 0)).codes[symOfByte 0].valid = false :=
  ⟨⟨_, rfl, rfl, by decide⟩, ⟨_, rfl, rfl, by decide⟩, ⟨_, rfl, rfl, by decide⟩, rfl, by decide⟩

theorem witness_OutSymbolWritesTheByteAndReturnsToTheRoot :
    (running (.decodeEmit 255)).seq = .decodeEmit 255 ∧
      engineTurn (running .decodeReset) ∧ (running .decodeReset).seq = .decodeReset := ⟨rfl, rfl, rfl⟩

theorem witness_WireTokenOutsideItsPhasesIsRefused :
    Instr.ctx (.inByte 0) ≠ .cmd ∧ State.reset.seq.phase ∉ tokenPhases (.inByte 0) := by decide

theorem witness_EndOfInputMeansWhatEachPhaseSays :
    (∃ s : State, s = { running .magicRead with inp := supply [0, 0, 0] 0 } ∧ engineTurn s ∧ s.seq = .magicRead ∧
      s.inp.remaining.length = 24) ∧
    (engineTurn (running .treeTag) ∧ (running .treeTag).inp.remaining.length = 0) ∧
    (∃ s : State, s = { running (.treeSym 0) with inp := supply [0x80] 1 } ∧ engineTurn s ∧ s.seq = .treeSym 0 ∧
      s.inp.remaining.length = 7) ∧
    (engineTurn (running .decodeBit) ∧ (running .decodeBit).dstate ≠ .terminal) ∧
    (engineTurn (running .count) ∧ (running .count).inp.remaining.length = 0) ∧
    (engineTurn (running .countEnd) ∧ (running .countEnd).seq = .countEnd) ∧
    (engineTurn (running .encodeRead) ∧ (running .encodeRead).inp.remaining.length = 0) :=
  ⟨⟨_, rfl, rfl, rfl, by decide⟩, ⟨rfl, rfl⟩, ⟨_, rfl, rfl, rfl, by decide⟩, ⟨rfl, by decide⟩, ⟨rfl, rfl⟩, ⟨rfl, rfl⟩, rfl, rfl⟩

theorem witness_StepRunsTheDecodedInstruction :
    (hostTurn (hostDoing [.write .cmd 1]) ∧ (hostDoing [.write .cmd 1]).host.program = [.write .cmd 1] ∧
      decode .cmd (bitsOf (1 : Word)) = .token .compress []) ∧
    (engineTurn (running (.decodeEmit 9)) ∧ heldToken (running (.decodeEmit 9)).seq = some (.outSymbol 9)) ∧
    (engineTurn (aab (.headerNode 4)) ∧ (aab (.headerNode 4)).nodes[(4 : NodeIdx)] = .internal 4 0 3) ∧
    (engineTurn (aab (.headerSym 2)) ∧ (aab (.headerSym 2)).nodes[(2 : NodeIdx)] = .leaf 256 1) ∧
    (engineTurn (running (.treeBit true)) ∧ (running (.treeBit true)).next.toNat = (0 : NodeIdx).val) ∧
    (engineTurn (running .magicRead) ∧
      decode .magic ({ running .magicRead with inp := supply [1, 2, 3, 4] 0 } : State).inp.remaining =
        .token (.magic 0x01020304) []) ∧
    (engineTurn (running .count) ∧ engineTurn (running .encodeRead) ∧
      decode .inByte ({ running .count with inp := supply [7] 0 } : State).inp.remaining = .token (.inByte 7) []) ∧
    (engineTurn aabLastBit ∧ aabLastBit.dstate ≠ .terminal ∧
      decode .code aabLastBit.inp.remaining = .token (decodeCodeBit false) []) ∧
    (engineTurn (running .treeTag) ∧
      decode .header ({ running .treeTag with inp := supply [0] 7 } : State).inp.remaining = .token .hdrInternal [] ∧
      ({ running .treeTag with inp := supply [1] 7 } : State).inp.remaining.head? = some true) ∧
    (engineTurn (running (.treeSym 0)) ∧
      decode .header (true :: ({ running (.treeSym 0) with inp := supply [0xC0, 0x40] 1 } : State).inp.remaining) =
        .token (decodeLeafSym 257) [false, false, false, false, false, false]) :=
  ⟨⟨rfl, rfl, by decide⟩, ⟨rfl, rfl⟩, ⟨rfl, by decide⟩, ⟨rfl, by decide⟩, ⟨rfl, by decide⟩, ⟨rfl, by decide⟩,
    ⟨rfl, rfl, by decide⟩, ⟨rfl, by decide, by decide⟩, ⟨rfl, by decide, by decide⟩, rfl, by decide⟩

theorem witness_HeaderLeafTagAndSymbolMakeTheToken :
    (running (.treeBit true)).seq = .treeBit true ∧ (running (.treeBit true)).next.toNat = (0 : NodeIdx).val ∧
    engineTurn (aab (.headerNode 0)) ∧ (aab (.headerNode 0)).seq = .headerNode 0 ∧
      (aab (.headerNode 0)).nodes[(0 : NodeIdx)] = .leaf 65 2 :=
  ⟨rfl, by decide, rfl, rfl, by decide⟩

/-! ## The HOST -/

theorem witness_ResetAbandonsTheCommand :
    ∃ s : State, s = { running .count with host := { program := [.reset], turns := [.host], seen := [] } } ∧
      hostTurn s ∧ s.host.program = [.reset] := ⟨_, rfl, rfl, rfl⟩

theorem witness_RegisterReadsAndIgnoredWrites :
    (hostTurn (hostDoing [.read .reservedC]) ∧ (hostDoing [.read .reservedC]).host.program = [.read .reservedC]) ∧
    hostTurn (hostDoing [.write .status 5]) ∧ Reg.status ≠ Reg.cmd ∧
      (hostDoing [.write .status 5]).host.program = [.write .status 5] := ⟨⟨rfl, rfl⟩, rfl, by decide, rfl⟩

theorem witness_OnlyAlignedWordAccessesReachARegister :
    (hostTurn (hostDoing [.busWrite (Config.regBase + 1) 4 0]) ∧
      ¬ ((4 : Nat) = 4 ∧ ∃ off ∈ [0x00, 0x04, 0x08, 0x0C], Config.regBase + 1 = Config.regBase + off)) ∧
    (hostTurn (hostDoing [.busRead (Config.regBase + 4) 2]) ∧
      ¬ ((2 : Nat) = 4 ∧ ∃ off ∈ [0x00, 0x04, 0x08, 0x0C], Config.regBase + 4 = Config.regBase + off)) ∧
    hostTurn (hostDoing [.busRead (Config.regBase + Reg.reservedC.offset) 4]) := by
  refine ⟨⟨rfl, ?_⟩, ⟨rfl, ?_⟩, rfl⟩
  · rintro ⟨-, off, h, he⟩
    have : off = 1 := by omega
    simp [this] at h
  · rintro ⟨h, -⟩
    exact absurd h (by decide)

theorem witness_ConnectTakeAndWaitDoWhatTheHostAsks :
    (hostTurn (hostDoing [.connectIn [1] [2]]) ∧ (hostDoing [.connectIn [1] [2]]).host.program = [.connectIn [1] [2]]) ∧
    (hostTurn (hostDoing [.connectOut]) ∧ (hostDoing [.connectOut]).host.program = [.connectOut]) ∧
    (hostTurn (hostDoing [.takeOut]) ∧ (hostDoing [.takeOut]).host.program = [.takeOut]) ∧
    hostTurn (hostDoing [.wait]) ∧ (hostDoing [.wait]).host.program = [.wait] :=
  ⟨⟨rfl, rfl⟩, ⟨rfl, rfl⟩, ⟨rfl, rfl⟩, rfl, rfl⟩

theorem witness_HostCannotDisturbARunningCommand :
    ∃ s : State, s = { running .count with host := { program := [.write .cmd 2], turns := [.host], seen := [] } } ∧
      s.status.busy = true ∧ hostTurn s ∧ (∀ rest, s.host.program ≠ .reset :: rest) ∧ ∃ t, step s = .next t :=
  ⟨_, rfl, rfl, rfl, by simp, _, rfl⟩

/-! ## The invariant -/

theorem witness_EveryStepKeepsTheInvariant : Inv finishing ∧ ∃ t, step finishing = .next t := ⟨inv_finishing, _, rfl⟩

theorem witness_InvariantExcludesEveryFault : Inv finishing := inv_finishing

theorem witness_InternalTablesCannotBeObserved :
    ∃ t : State, t = { State.reset with nodes := aabNodes, root := 4, nint := 7 } ∧ State.reset.seq = .idle ∧
      sameOutside State.reset t ∧ Reaches State.reset State.reset :=
  ⟨_, rfl, rfl, ⟨rfl, rfl, rfl, rfl, rfl⟩, .refl _⟩

/-! ## The phases -/

/-- The length clauses at 0 bytes, and at more bytes than MAX_LEN. -/
theorem witness_CountLeavesEachBytesCount :
    ((running (.countClear 0)).seq = .countClear 0 ∧ undisturbed (running (.countClear 0)) ∧
      (running (.countClear 0)).inp.rewound = false ∧ (running (.countClear 0)).inp.pos = 0 ∧
      (running (.countClear 0)).inp.first.length ≤ 2 ^ 32 - 2) ∧
    ∃ s : State, s = { running (.countClear 0) with inp := supply (List.replicate (2 ^ 32 - 1) 0) 0 } ∧
      s.seq = .countClear 0 ∧ undisturbed s ∧ s.inp.rewound = false ∧ s.inp.pos = 0 ∧
      2 ^ 32 - 2 < s.inp.first.length := by
  refine ⟨⟨rfl, rfl, rfl, rfl, by decide⟩, _, rfl, rfl, rfl, rfl, rfl, ?_⟩
  simp only [supply, List.length_replicate]
  omega

theorem witness_BuildLeavesMakesALeafPerUsedSymbol :
    (running .buildClear).seq = .buildClear ∧ undisturbed (running .buildClear) := ⟨rfl, rfl⟩

theorem witness_RemoveMinTakesTheLeastKey : pqRemoveMin aabNodes [0, 1, 2] = some (1, [0, 2]) := by decide

theorem witness_MergeRoundJoinsTheTwoLeast :
    (∃ s : State, s = { aab .merge with pq := [0, 1, 2], next := 3 } ∧ engineTurn s ∧ undisturbed s ∧ s.seq = .merge ∧
      pqRemoveMin s.nodes s.pq = some (1, [0, 2]) ∧ pqRemoveMin s.nodes [0, 2] = some (2, [0]) ∧
      s.next.toNat = (3 : NodeIdx).val) ∧
    (∃ s : State, s = { aab (.mergeSecond 1) with pq := [0, 2] } ∧ engineTurn s ∧ s.seq = .mergeSecond 1 ∧
      pqRemoveMin s.nodes s.pq = some (2, [0])) ∧
    (∃ s : State, s = { aab (.mergeNode 1 2) with next := 512 } ∧ engineTurn s ∧ s.seq = .mergeNode 1 2 ∧
      s.next.toNat = (512 : NodeIdx).val) ∧
    (engineTurn (aab (.mergeInsert 3)) ∧ (aab (.mergeInsert 3)).seq = .mergeInsert 3) ∧
    ∃ s : State, s = { aab .merge with pq := [4] } ∧ engineTurn s ∧ s.seq = .merge ∧ s.pq = [4] :=
  ⟨⟨_, rfl, rfl, rfl, rfl, by decide, by decide, by decide⟩, ⟨_, rfl, rfl, rfl, by decide⟩,
    ⟨_, rfl, rfl, rfl, by decide⟩, ⟨rfl, rfl⟩, _, rfl, rfl, rfl, rfl⟩

theorem witness_BuildMakesAFullBinaryTreeWithRightWeights :
    ∃ s : State, s = { running .buildClear with freq := State.reset.freq.set 256 1 } ∧ s.seq = .buildClear ∧
      undisturbed s ∧ s.freq[sentinelSym] = 1 ∧
      ((List.finRange Config.alph).map fun y => s.freq[y].toNat).sum < 2 ^ 32 := by
  refine ⟨_, rfl, rfl, rfl, by decide, ?_⟩
  have h : ∀ n ∈ (List.finRange Config.alph).map fun y : Sym => ((State.reset.freq.set 256 1)[y]).toNat, n ≤ 1 := by
    simp only [List.mem_map, forall_exists_index, and_imp]
    rintro n y - rfl
    simp only [State.reset, Fin.getElem_fin, Vector.getElem_set]
    split <;> simp
  have hs := List.sum_le_card_nsmul _ 1 h
  simp only [List.length_map, List.length_finRange, Config.alph] at hs
  exact Nat.lt_of_le_of_lt hs (by decide)

theorem witness_CodegenRecordsThePathOfEachLeaf :
    (aab (.codesClear 0)).seq = .codesClear 0 ∧ undisturbed (aab (.codesClear 0)) ∧
      Builds (aab (.codesClear 0)).nodes (aab (.codesClear 0)).root aabTree ∧ aabTree.symbols.Nodup ∧
      (65, [false]) ∈ aabTree.codes ∧ (0 : Sym) ∉ aabTree.symbols :=
  ⟨rfl, rfl, aab_builds, by decide, by decide, by decide⟩

theorem witness_CodesArePrefixFreeAndComplete :
    ((aab (.codesClear 0)).seq = .codesClear 0 ∧ undisturbed (aab (.codesClear 0)) ∧
      Builds (aab (.codesClear 0)).nodes (aab (.codesClear 0)).root aabTree ∧ aabTree.symbols.Nodup ∧ 2 ≤ aabTree.leafCount) ∧
    Builds degenerate.nodes degenerate.root (.leaf 256) ∧ (Tree.leaf 256).leafCount = 1 :=
  ⟨⟨rfl, rfl, aab_builds, by decide, by decide⟩, .leaf (w := 0) (by decide), rfl⟩

theorem witness_WriteHeaderWritesTheTreeInPreorder :
    (aab .headerStart).seq = .headerStart ∧ undisturbed (aab .headerStart) ∧
      Builds (aab .headerStart).nodes (aab .headerStart).root aabTree := ⟨rfl, rfl, aab_builds⟩

theorem witness_EncodeWritesEachBytesCode :
    ∃ s : State, s = { running .encodeRead with
        codes := State.reset.codes.set 65 (Code.empty.assign [true])
        inp := { first := [], second := [65, 66], rewound := true, pos := 0 } } ∧
      s.seq = .encodeRead ∧ undisturbed s ∧ s.inp.rewound = true ∧ s.inp.pos = 0 ∧
      s.inp.second = [65] ++ 66 :: [] ∧ (∀ c ∈ [(65 : Byte)], s.codes[symOfByte c].valid = true) ∧
      s.codes[symOfByte 66].valid = false :=
  ⟨_, rfl, rfl, rfl, rfl, rfl, rfl, by decide, by decide⟩

theorem witness_CompressWritesMarkerHeaderCodesAndSentinel :
    State.reset.status.busy = false ∧ undisturbed State.reset ∧ State.reset.inp.second = State.reset.inp.first ∧
      State.reset.inp.first.length ≤ 2 ^ 32 - 2 := ⟨rfl, rfl, rfl, by decide⟩

/-- The header of the degenerate tree, V-H1, and six bits after it. -/
theorem witness_ReadHeaderRebuildsTheTree :
    ∃ s : State, s = { running .treeClear with inp := supply [0xC0, 0x00] 0 } ∧ s.seq = .treeClear ∧ undisturbed s ∧
      s.inp.remaining = (Tree.leaf 256).header ++ [false, false, false, false, false, false] ∧
      (Tree.leaf 256).internalCount ≤ 256 := ⟨_, rfl, rfl, rfl, by decide, by decide⟩

/-- V-D1's payload: 65, 65, 66, the sentinel, and two bits after it. -/
theorem witness_DecodeWritesTheBytesUpToTheSentinel :
    aabPayload.seq = .decodeBit ∧ aabPayload.dstate = .atRoot ∧ aabPayload.cur = aabPayload.root ∧
      undisturbed aabPayload ∧ Builds aabPayload.nodes aabPayload.root aabTree ∧
      aabPayload.out.bits.length % 8 = 0 ∧
      List.Forall₂ (fun b p => (symOfByte b, p) ∈ aabTree.codes) [65, 65, 66] [[false], [false], [true, false]] ∧
      (sentinelSym, [true, true]) ∈ aabTree.codes ∧
      aabPayload.inp.remaining = [[false], [false], [true, false]].flatten ++ [true, true] ++ [false, false] :=
  ⟨rfl, rfl, rfl, rfl, aab_builds, rfl,
    .cons (by decide) (.cons (by decide) (.cons (by decide) .nil)), by decide, by decide⟩

/-- One byte's code, then the input ends. -/
theorem witness_TruncatedPayloadKeepsTheBytesDecoded :
    aabLastBit.seq = .decodeBit ∧ aabLastBit.dstate = .atRoot ∧ aabLastBit.cur = aabLastBit.root ∧
      undisturbed aabLastBit ∧ Builds aabLastBit.nodes aabLastBit.root aabTree ∧
      aabLastBit.out.bits.length % 8 = 0 ∧
      List.Forall₂ (fun b p => (symOfByte b, p) ∈ aabTree.codes) [65] [[false]] ∧
      (66, [true, false]) ∈ aabTree.codes ∧ [] <+: [true, false] ∧ [] ≠ [true, false] ∧
      aabLastBit.inp.remaining = [[false]].flatten ++ [] :=
  ⟨rfl, rfl, rfl, rfl, aab_builds, rfl, .cons (by decide) .nil, by decide, by decide, by decide, by decide⟩

theorem witness_DecompressOfCompressGivesTheBytesBack :
    State.reset.status.busy = false ∧ undisturbed State.reset ∧ State.reset.inp.second = State.reset.inp.first ∧
      State.reset.inp.first.length ≤ 2 ^ 32 - 2 := ⟨rfl, rfl, rfl, by decide⟩

theorem witness_EveryCommandReachesIdle : State.reset.status.busy = false ∧ undisturbed State.reset := ⟨rfl, rfl⟩

end Sys2Proof.Tests
end

section
/-! SUPPORT. A step in two views that every later proof uses: what the ENGINE does at each place of its pseudocode, with
the token it runs there resolved, and what the HOST can do to the block. -/

namespace Sys2Proof.Machine

/-! ## Outcomes -/

/-- Where the outcome is a next state, `P` holds of it. -/
def Answers (P : State → Prop) (o : StepOutcome) : Prop := ∀ t, o = .next t → P t

@[simp] theorem answers_next {P : State → Prop} {t : State} : Answers P (.next t) ↔ P t := by simp [Answers]

@[simp] theorem answers_fault {P : State → Prop} {r : Fault} : Answers P (.fault r) := by simp [Answers]

@[simp] theorem answers_refused {P : State → Prop} {r : Refusal} : Answers P (.refused r) := by simp [Answers]

@[simp] theorem outcome_done (o : StepOutcome) : (Fetched.done o).outcome = o := rfl

@[simp] theorem outcome_run (i : Instr) (s : State) : (Fetched.run i s).outcome = exec i s := rfl

theorem answers_readField {P : State → Prop} {n : Nat} {hold : BitVec n → Seq} {eof : State → State} {s : State}
    (value : ∀ v, s.inp.pos + n ≤ s.inp.bits.length →
      P { s with inp := { s.inp with pos := s.inp.pos + n }, seq := hold v })
    (ended : P (eof { s with inp := { s.inp with pos := s.inp.bits.length } })) :
    Answers P (readField n hold eof s).outcome := by
  obtain ⟨hle, h⟩ | ⟨-, h⟩ := readField_cases n hold eof s
  · rw [h]; exact answers_next.mpr (value _ hle)
  · rw [h]; exact answers_next.mpr ended

theorem answers_takeMin {P : State → Prop} {k : NodeIdx → State → State} {s : State}
    (taken : ∀ a q, pqRemoveMin s.nodes s.pq = some (a, q) → P (k a { s with pq := q })) :
    Answers P (takeMin k s) := by
  obtain ⟨-, h⟩ | ⟨a, q, hq, h⟩ := takeMin_cases k s
  · rw [h]; exact answers_fault
  · rw [h]; exact answers_next.mpr (taken a q hq)

theorem answers_allocNode {P : State → Prop} {k : NodeIdx → State → StepOutcome} {s : State}
    (allocated : ∀ i : NodeIdx, s.next.toNat = i.val → Answers P (k i { s with next := s.next + 1 })) :
    Answers P (allocNode k s) := by
  unfold allocNode
  split
  · exact answers_fault
  · exact allocated _ (arenaSlot_eq_some.mp ‹_›)

/-! ## The ENGINE -/

/-- The ENGINE's step at the place `q`, where the token that stands there is given its meaning (R130). -/
def engineMove (s : State) : Seq → StepOutcome
  | .idle => .next s
  | .countClear y => .next (countClear y s)
  | .count => (readField 8 .countByte (fun s' => { s' with seq := .countEnd }) s).outcome
  | .countByte b => .next (countByte b s)
  | .countEnd => .next (countEnd s)
  | .buildClear => .next (buildClear s)
  | .buildLeaf y => .next (buildLeaf y s)
  | .buildInsert y => .next (buildInsert y s)
  | .merge => merge s
  | .mergeSecond a => mergeSecond a s
  | .mergeNode a b => mergeNode a b s
  | .mergeInsert i => .next (mergeInsert i s)
  | .codesClear y => .next (codesClear y s)
  | .codesStart => .next (codesStart s)
  | .codesNode i p => .next (codesNode i p s)
  | .codesPop => .next (popWalk (fun e => .codesNode e.node e.path) .magicWrite s)
  | .magicWrite => .next { s with out := s.out.writeBits Config.huffMagic, seq := .headerStart }
  | .headerStart => .next (headerStart s)
  | .headerNode i => .next (if s.nodes[i].isLeaf then serTag i s else serInternal i s)
  | .headerPush i => headerPush i s
  | .headerSym i => if s.nodes[i].isLeaf then .next (serSym s.nodes[i].sym s) else .refused .tokenNotOffered
  | .headerPop => .next (popWalk (fun e => .headerNode e.node) .rewind s)
  | .rewind => .next (rewindInput s)
  | .encodeRead => (readField 8 .encodeByte (fun s' => { s' with seq := .sentinel }) s).outcome
  | .encodeByte b => .next (encodeByte b s)
  | .encodeWrite b => .next (encodeWrite b s)
  | .sentinel => .next (writeSentinel s)
  | .magicRead => (readField 32 .magicField (raise .badMagic) s).outcome
  | .magicField m => .next (if m = Config.huffMagic then { s with seq := .treeClear } else raise .badMagic s)
  | .treeClear => .next (treeClear s)
  | .treeTag => (readField 1 (fun t => .treeBit (t = 1)) (raise .malformedHeader) s).outcome
  | .treeBit false => allocNode (fun i s' => .next (desInternal i s')) s
  | .treeBit true => allocNode (fun i s' => .next { s' with seq := .treeSym i }) s
  | .treeSym i => (readField 9 (.treeLeaf i) (raise .malformedHeader) s).outcome
  | .treeLeaf i v => .next ((symOfField v).elim (raise .malformedHeader s) fun y => desLeaf i y s)
  | .treeReturn j => .next (treeReturn j s)
  | .treeBuild i l r => .next (treeBuild i l r s)
  | .decodeBit =>
    if s.dstate = .terminal then .next { s with seq := .close .none }
    else (readField 1 (fun t => .decodeStep (t = 1)) (raise .truncatedStream) s).outcome
  | .decodeStep t =>
    if s.dstate = .terminal then .refused .tokenNotOffered
    else (nextCur t s).elim (.fault .noChild) fun c => .next (arrive c s)
  | .decodeEmit b => .next { s with out := s.out.writeBits b, seq := .decodeReset }
  | .decodeReset => .next (decodeReset s)
  | .close e => .next (closeOut e s)
  | .finish e => .next (finishCommand e s)

/-- HSER's step at a node writes a leaf's tag or an internal node's token. -/
theorem serNode_outcome {i : NodeIdx} {s : State} (h : s.seq = .headerNode i) :
    (serNode i s).outcome = .next (if s.nodes[i].isLeaf then serTag i s else serInternal i s) := by
  cases hn : s.nodes[i] <;> simp [serNode, exec, execHdrInternal, Node.isLeaf, h, hn]

/-- HSER after a leaf's tag writes the symbol, of a leaf only. -/
theorem exec_hdrLeaf_headerSym {i : NodeIdx} {s : State} (h : s.seq = .headerSym i) :
    exec (.hdrLeaf (symField s.nodes[i].sym)) s =
      if s.nodes[i].isLeaf then .next (serSym s.nodes[i].sym s) else .refused .tokenNotOffered := by
  cases hn : s.nodes[i] <;> simp [exec, execHdrLeaf, serLeafToken, Node.isLeaf, Node.sym, h, hn]

/-- HDES at a leaf's symbol makes the leaf, or refuses a symbol above 256. -/
theorem exec_decodeLeafSym {i : NodeIdx} {v : BitVec 9} {s : State} (h : s.seq = .treeLeaf i v) :
    exec (decodeLeafSym v) s = .next ((symOfField v).elim (raise .malformedHeader s) fun y => desLeaf i y s) := by
  unfold decodeLeafSym
  split
  next hv => simp [exec, execHdrLeaf, desLeafToken, h, symOfField_of_le hv]
  next hv => simp [exec, execHdrLeafBadsym, h, symOfField_of_lt (Nat.lt_of_not_le hv)]

theorem exec_magic_magicField {m : Word} {s : State} (h : s.seq = .magicField m) :
    exec (.magic m) s = .next (if m = Config.huffMagic then { s with seq := .treeClear } else raise .badMagic s) := by
  simp only [exec, execMagic, h, ne_eq, not_true_eq_false, if_false]
  split <;> rfl

/-- A payload bit moves CUR, unless decoding is over. -/
theorem exec_decodeCodeBit {t : Bool} {s : State} (h : s.seq = .decodeStep t) :
    exec (decodeCodeBit t) s =
      if s.dstate = .terminal then .refused .tokenNotOffered
      else (nextCur t s).elim (.fault .noChild) fun c => .next (arrive c s) := by
  have : exec (decodeCodeBit t) s = codeBit t s := by cases t <;> rfl
  rw [this]
  simp only [codeBit, h, ne_eq, not_true_eq_false, false_or]
  split
  · rfl
  · cases nextCur t s <;> rfl

theorem treeBit_outcome {t : Bool} {s : State} (h : s.seq = .treeBit t) :
    (treeBit t s).outcome = engineMove s (.treeBit t) := by
  cases t <;> simp [treeBit, engineMove, exec, execHdrInternal, h]

/-- What the ENGINE fetches and runs is its move at the place where it stands. -/
theorem engineFetch_outcome (s : State) : (engineFetch s).outcome = engineMove s s.seq := by
  unfold engineFetch
  cases h : s.seq with
  | headerNode i => exact serNode_outcome h
  | headerSym i => exact exec_hdrLeaf_headerSym h
  | magicField m => exact exec_magic_magicField h
  | treeBit t => exact treeBit_outcome h
  | treeLeaf i v => exact exec_decodeLeafSym h
  | decodeStep t => exact exec_decodeCodeBit h
  | decodeBit =>
    simp only [engineMove]
    split <;> rfl
  | _ => simp only [h, engineMove, outcome_done, outcome_run, exec, execMagic, execInByte, execOutSymbol, if_true]

/-! ## The HOST -/

/-- Everything a HOST step can do to the block, whatever it does to the HOST's own state: nothing (a read, an ignored
write, a TAKE OUT, a WAIT), the start of a command, ILLEGAL_COMMAND, a connection, or RESET. -/
inductive HostMove (s : State) : State → Prop where
  | quiet (k : HostState) : HostMove s { s with host := k }
  | accept (k : HostState) (op : BitVec 2) (q : Seq) (idle : s.status.busy = false)
      (legal : (op = 1 ∧ q = .countClear 0) ∨ (op = 2 ∧ q = .magicRead)) :
      HostMove s (acceptCommand op q { s with host := k })
  | illegal (k : HostState) (op : BitVec 2) (idle : s.status.busy = false) :
      HostMove s (illegalCommand op { s with host := k })
  | connectIn (k : HostState) (p : InPort) (idle : s.status.busy = false) (start : p.pos = 0) :
      HostMove s { s with inp := p, host := k }
  | connectOut (k : HostState) (idle : s.status.busy = false) :
      HostMove s { s with out := OutPort.fresh, host := k }
  | reset (k : HostState) (asked : ∃ rest, s.host.program = .reset :: rest) :
      HostMove s { State.reset with inp := s.inp, out := s.out, host := k }

theorem regWrite_hostMove (r : Reg) (v : Word) (rest : List HostAction) (s : State) :
    Answers (HostMove s) (regWrite r v (dropAction rest s)).outcome := by
  cases r with
  | cmd =>
    show Answers _ (exec (decodeCmd v) (dropAction rest s))
    obtain h | ⟨idle, h | h | ⟨op, h⟩⟩ := exec_decodeCmd_cases v (dropAction rest s)
    · rw [h]; exact answers_next.mpr (.quiet _)
    · rw [h]; exact answers_next.mpr (.accept _ _ _ idle (.inl ⟨rfl, rfl⟩))
    · rw [h]; exact answers_next.mpr (.accept _ _ _ idle (.inr ⟨rfl, rfl⟩))
    · rw [h]; exact answers_next.mpr (.illegal _ _ idle)
  | _ => exact answers_next.mpr (.quiet _)

theorem hostAct_hostMove {a : HostAction} {rest : List HostAction} {s : State} (h : s.host.program = a :: rest) :
    Answers (HostMove s) (hostAct a rest s).outcome := by
  unfold hostAct
  cases a with
  | write r v => exact regWrite_hostMove r v rest s
  | read r => exact answers_next.mpr (.quiet _)
  | busWrite addr bytes v =>
    dsimp only
    split
    · exact answers_refused
    · exact regWrite_hostMove _ v rest s
  | busRead addr bytes =>
    dsimp only
    split
    · exact answers_refused
    · exact answers_next.mpr (.quiet _)
  | connectIn b b2 =>
    dsimp only
    split
    · exact answers_refused
    · exact answers_next.mpr (.connectIn _ _ (Bool.eq_false_of_not_eq_true ‹_›) rfl)
  | connectOut =>
    dsimp only
    split
    · exact answers_refused
    · exact answers_next.mpr (.connectOut _ (Bool.eq_false_of_not_eq_true ‹_›))
  | takeOut =>
    dsimp only
    split
    · exact answers_next.mpr (.quiet _)
    · exact answers_refused
  | wait =>
    dsimp only
    split <;> exact answers_next.mpr (.quiet _)
  | reset => exact answers_next.mpr (.reset _ ⟨rest, h⟩)

theorem hostFetch_hostMove (s : State) : Answers (HostMove s) (hostFetch s).outcome := by
  unfold hostFetch
  split
  · exact answers_next.mpr (.quiet _)
  · exact hostAct_hostMove ‹_›

/-- The HOST's own state counts only where it asks for RESET. -/
theorem HostMove.of_host {s t : State} {k : HostState} (hk : k.program = s.host.program)
    (h : HostMove { s with host := k } t) : HostMove s t := by
  cases h with
  | quiet => exact .quiet _
  | accept _ op q idle legal => exact .accept _ op q idle legal
  | illegal _ op idle => exact .illegal _ op idle
  | connectIn _ p idle start => exact .connectIn _ p idle start
  | connectOut _ idle => exact .connectOut _ idle
  | reset _ asked => exact .reset _ (hk ▸ asked)

/-! ## A step -/

/-- A step that answers a next state is a move of the ENGINE at its place, or a move of the HOST. -/
theorem step_cases {s t : State} (h : step s = .next t) :
    (∃ k : HostState, engineMove { s with host := k } s.seq = .next t) ∨ HostMove s t := by
  obtain he | hh := engineTurn_or_hostTurn s
  · left
    rw [step_engine he, engineFetch_outcome, takeTurn_snd] at h
    exact ⟨_, h⟩
  · right
    rw [step_host hh] at h
    have move := hostFetch_hostMove _ t h
    rw [takeTurn_snd] at move
    exact HostMove.of_host (k := { s.host with turns := (takeTurn s).2.host.turns }) rfl move

end Sys2Proof.Machine
end


section
/-! SUPPORT. What an ENGINE step at work keeps, and the statements about STATUS and reset (10_state.md R18 to R21, R30). -/

namespace Sys2Proof.Machine

/-! ## An ENGINE step at work -/

/-- A place of a running command at which OUT is not ended yet: any but IDLE and the one before the STATUS write. -/
def Seq.unended : Seq → Bool
  | .idle => false
  | .finish _ => false
  | _ => true

/-- What an ENGINE step before CLOSING keeps: STATUS, whether OUT is ended, the command running, and IN's position
inside IN. -/
structure Works (s t : State) : Prop where
  status : t.status = s.status
  closed : t.out.closed = s.out.closed
  running : t.seq.unended = true
  inside : s.inp.pos ≤ s.inp.bits.length → t.inp.pos ≤ t.inp.bits.length

theorem Works.of_ports {s t : State} (status : t.status = s.status) (inp : t.inp = s.inp)
    (closed : t.out.closed = s.out.closed) (running : t.seq.unended = true) : Works s t :=
  ⟨status, closed, running, inp ▸ id⟩

theorem works_buildNext (y : Sym) {s t : State} (h : Works s { t with seq := .merge }) : Works s (buildNext y t) := by
  unfold buildNext
  split <;> exact ⟨h.status, h.closed, rfl, h.inside⟩

theorem works_readField {n : Nat} {hold : BitVec n → Seq} {eof : State → State} {s : State}
    (held : ∀ v, (hold v).unended = true) (ended : ∀ s', Works s' (eof s')) :
    Answers (Works s) (readField n hold eof s).outcome :=
  answers_readField (fun v hle => ⟨rfl, rfl, held v, fun _ => hle⟩)
    ⟨(ended _).status, (ended _).closed, (ended _).running, fun _ => (ended _).inside (Nat.le_refl _)⟩

theorem works_raise (e : ErrCode) (s : State) : Works s (raise e s) := .of_ports rfl rfl rfl rfl

theorem works_popWalk {visit : WalkEntry → Seq} {q : Seq} (hv : ∀ e, (visit e).unended = true) (hq : q.unended = true)
    (s : State) : Works s (popWalk visit q s) := by
  obtain ⟨-, h⟩ | ⟨e, rest, -, h⟩ := popWalk_cases visit q s
  · rw [h]; exact .of_ports rfl rfl rfl hq
  · rw [h]; exact .of_ports rfl rfl rfl (hv e)

theorem works_arrive (c : NodeIdx) (s : State) : Works s (arrive c s) := by
  unfold arrive
  split
  · split <;> exact .of_ports rfl rfl rfl rfl
  · exact .of_ports rfl rfl rfl rfl

/-- Every ENGINE step from a phase other than IDLE and CLOSING is work. -/
theorem engineMove_works (s : State) (q : Seq) (running : q.phase ≠ .idle) (before : q.phase ≠ .closing) :
    Answers (Works s) (engineMove s q) := by
  cases q with
  | idle => exact absurd rfl running
  | close e => exact absurd rfl before
  | finish e => exact absurd rfl before
  | count => exact works_readField (fun _ => rfl) fun _ => .of_ports rfl rfl rfl rfl
  | encodeRead => exact works_readField (fun _ => rfl) fun _ => .of_ports rfl rfl rfl rfl
  | magicRead => exact works_readField (fun _ => rfl) (works_raise _)
  | treeTag => exact works_readField (fun _ => rfl) (works_raise _)
  | treeSym i => exact works_readField (fun _ => rfl) (works_raise _)
  | decodeBit =>
    dsimp only [engineMove]
    split
    · exact answers_next.mpr (.of_ports rfl rfl rfl rfl)
    · exact works_readField (fun _ => rfl) (works_raise _)
  | countClear y =>
    refine answers_next.mpr ?_
    unfold countClear
    cases nextSym y <;> exact .of_ports rfl rfl rfl rfl
  | countByte b =>
    refine answers_next.mpr ?_
    unfold countByte
    dsimp only
    split <;> exact .of_ports rfl rfl rfl rfl
  | buildLeaf y =>
    refine answers_next.mpr ?_
    unfold buildLeaf
    split
    · exact .of_ports rfl rfl rfl rfl
    · exact works_buildNext y (.of_ports rfl rfl rfl rfl)
  | buildInsert y => exact answers_next.mpr (works_buildNext y (.of_ports rfl rfl rfl rfl))
  | merge =>
    dsimp only [engineMove, merge]
    refine answers_takeMin fun a q _ => ?_
    cases q <;> exact .of_ports rfl rfl rfl rfl
  | mergeSecond a =>
    dsimp only [engineMove, mergeSecond]
    exact answers_takeMin fun _ _ _ => .of_ports rfl rfl rfl rfl
  | mergeNode a b =>
    simp only [engineMove, mergeNode]
    split
    · exact answers_fault
    · exact answers_next.mpr (.of_ports rfl rfl rfl rfl)
  | codesClear y =>
    refine answers_next.mpr ?_
    unfold codesClear
    cases nextSym y <;> exact .of_ports rfl rfl rfl rfl
  | codesStart =>
    refine answers_next.mpr ?_
    unfold codesStart
    split <;> exact .of_ports rfl rfl rfl rfl
  | codesNode i p =>
    refine answers_next.mpr ?_
    unfold codesNode
    split <;> exact .of_ports rfl rfl rfl rfl
  | codesPop => exact answers_next.mpr (works_popWalk (fun _ => rfl) rfl s)
  | headerNode i =>
    refine answers_next.mpr ?_
    split <;> exact .of_ports rfl rfl rfl rfl
  | headerPush i =>
    simp only [engineMove, headerPush]
    split
    · exact answers_fault
    · exact answers_next.mpr (.of_ports rfl rfl rfl rfl)
  | headerSym i =>
    dsimp only [engineMove]
    split
    · exact answers_next.mpr (.of_ports rfl rfl rfl rfl)
    · exact answers_refused
  | headerPop => exact answers_next.mpr (works_popWalk (fun _ => rfl) rfl s)
  | rewind => exact answers_next.mpr ⟨rfl, rfl, rfl, fun _ => Nat.zero_le _⟩
  | encodeByte b =>
    refine answers_next.mpr ?_
    unfold encodeByte
    split <;> exact .of_ports rfl rfl rfl rfl
  | magicField m =>
    refine answers_next.mpr ?_
    split <;> exact .of_ports rfl rfl rfl rfl
  | treeBit t =>
    cases t with
    | false =>
      dsimp only [engineMove]
      refine answers_allocNode fun i _ => answers_next.mpr ?_
      unfold desInternal
      dsimp only
      split <;> exact .of_ports rfl rfl rfl rfl
    | true =>
      dsimp only [engineMove]
      exact answers_allocNode fun i _ => answers_next.mpr (.of_ports rfl rfl rfl rfl)
  | treeLeaf i v =>
    refine answers_next.mpr ?_
    cases symOfField v <;> exact .of_ports rfl rfl rfl rfl
  | treeReturn j =>
    refine answers_next.mpr ?_
    unfold treeReturn
    split
    · exact .of_ports rfl rfl rfl rfl
    · split <;> exact .of_ports rfl rfl rfl rfl
  | decodeStep t =>
    dsimp only [engineMove]
    split
    · exact answers_refused
    · cases nextCur t s with
      | none => exact answers_fault
      | some c => exact answers_next.mpr (works_arrive c s)
  | _ => exact answers_next.mpr (.of_ports rfl rfl rfl rfl)

/-- Everything an ENGINE step can do at its place: nothing in IDLE, work before CLOSING, and the two steps of CLOSING. -/
theorem engineMove_cases {s t : State} (h : engineMove s s.seq = .next t) :
    (s.seq = .idle ∧ t = s) ∨ (s.seq.phase ≠ .idle ∧ s.seq.phase ≠ .closing ∧ Works s t) ∨
    (∃ e, s.seq = .close e ∧ t = closeOut e s) ∨ (∃ e, s.seq = .finish e ∧ t = finishCommand e s) := by
  cases hq : s.seq with
  | idle =>
    rw [hq] at h
    exact .inl ⟨rfl, (Host.Outcome.next.inj h).symm⟩
  | close e =>
    rw [hq] at h
    exact .inr (.inr (.inl ⟨e, rfl, (Host.Outcome.next.inj h).symm⟩))
  | finish e =>
    rw [hq] at h
    exact .inr (.inr (.inr ⟨e, rfl, (Host.Outcome.next.inj h).symm⟩))
  | _ =>
    refine .inr (.inl ⟨nofun, nofun, ?_⟩)
    exact engineMove_works s _ (by rw [hq]; nofun) (by rw [hq]; nofun) t h

theorem Seq.phase_ne_idle_of_unended {q : Seq} (h : q.unended = true) : q.phase ≠ .idle := by
  intro hq
  rw [phase_eq_idle.mp hq] at h
  cases h

/-! ## STATUS -/

theorem StatusOk.idle {s : State} (h : StatusOk s) (idle : s.status.busy = false) : s.seq = .idle := by
  obtain ⟨agree, -, -⟩ := h
  refine phase_eq_idle.mp (Classical.byContradiction fun running => ?_)
  exact absurd (agree.mpr running) (by simp [idle])

theorem statusOk_reset : StatusOk State.reset := ⟨by decide, nofun, by decide⟩

theorem StatusOk.engine {s t : State} (h : StatusOk s) (step : engineMove s s.seq = .next t) : StatusOk t := by
  obtain ⟨agree, notDone, errors⟩ := h
  obtain ⟨-, rfl⟩ | ⟨running, -, work⟩ | ⟨e, hs, rfl⟩ | ⟨e, hs, rfl⟩ := engineMove_cases step
  · exact ⟨agree, notDone, errors⟩
  · rw [StatusOk, work.status]
    exact ⟨iff_of_true (agree.mpr running) (Seq.phase_ne_idle_of_unended work.running), notDone, errors⟩
  · exact ⟨iff_of_true (agree.mpr (by simp [hs, Seq.phase])) nofun, notDone, errors⟩
  · exact ⟨by simp [Status.ended, Seq.phase], by simp [Status.ended], by simp [Status.ended]⟩

theorem StatusOk.host {s t : State} (h : StatusOk s) (move : HostMove s t) : StatusOk t := by
  obtain ⟨agree, notDone, errors⟩ := id h
  cases move with
  | quiet k => exact h
  | accept k op q idle legal =>
    have hq : q.phase ≠ .idle := by obtain ⟨-, rfl⟩ | ⟨-, rfl⟩ := legal <;> nofun
    exact ⟨iff_of_true rfl hq, fun _ => rfl, iff_of_true rfl rfl⟩
  | illegal k op idle =>
    exact ⟨by simp [Status.illegal, h.idle idle, Seq.phase], nofun, by simp [Status.illegal]⟩
  | connectIn k p idle start => exact h
  | connectOut k idle => exact h
  | reset k asked => exact statusOk_reset

/-- The rows of R21's table: what STATUS may become in a step from `s` to `t`. -/
def StatusPoint (s t : State) : Prop :=
  t.status = s.status ∨
    (s.status.busy = false ∧ ∃ op : BitVec 2, (op = 1 ∨ op = 2) ∧ t.status = s.status.accept op) ∨
    (s.status.busy = false ∧ ∃ op : BitVec 2, t.status = s.status.illegal op) ∨
    (∃ e : ErrCode, s.seq = .finish e ∧ t.status = s.status.ended e) ∨
    ((∃ rest, s.host.program = .reset :: rest) ∧ t.status = Status.reset)

/-- An ENGINE step writes STATUS only where it ends a command. -/
theorem engineMove_status {s t : State} (step : engineMove s s.seq = .next t) :
    t.status = s.status ∨ ∃ e, s.seq = .finish e ∧ t.status = s.status.ended e := by
  obtain ⟨-, rfl⟩ | ⟨-, -, work⟩ | ⟨e, -, rfl⟩ | ⟨e, hs, rfl⟩ := engineMove_cases step
  · exact .inl rfl
  · exact .inl work.status
  · exact .inl rfl
  · exact .inr ⟨e, hs, rfl⟩

theorem StatusPoint.host {s t : State} (move : HostMove s t) : StatusPoint s t := by
  cases move with
  | quiet k => exact .inl rfl
  | accept k op q idle legal => exact .inr (.inl ⟨idle, op, legal.imp And.left And.left, rfl⟩)
  | illegal k op idle => exact .inr (.inr (.inl ⟨idle, op, rfl⟩))
  | connectIn k p idle start => exact .inl rfl
  | connectOut k idle => exact .inl rfl
  | reset k asked => exact .inr (.inr (.inr (.inr ⟨asked, rfl⟩)))

/-- Settles O18: each move of the ENGINE and of the HOST keeps the invariants of STATUS and is a row of R21's table. -/
theorem statusChangesOnlyAtItsPoints : Obligations.StatusChangesOnlyAtItsPoints := by
  intro s t h
  have hok : StatusOk s → StatusOk t := fun ok => by
    obtain ⟨k, he⟩ | hh := step_cases h
    · exact StatusOk.engine (s := { s with host := k }) ok he
    · exact ok.host hh
  have hpoint : StatusPoint s t := by
    obtain ⟨k, he⟩ | hh := step_cases h
    · obtain same | ended := engineMove_status (s := { s with host := k }) he
      · exact .inl same
      · exact .inr (.inr (.inr (.inl ended)))
    · exact .host hh
  refine ⟨hok, ?_⟩
  obtain same | accepted | illegal | ⟨e, hs, ended⟩ | ⟨asked, zero⟩ := hpoint
  · exact .inl same
  · exact .inr (.inl accepted)
  · exact .inr (.inr (.inl illegal))
  · by_cases he : e = .none
    · subst he
      exact .inr (.inr (.inr (.inl ⟨hs, ended⟩)))
    · refine .inr (.inr (.inr (.inr (.inl ⟨e, he, hs, ?_⟩))))
      simpa [Status.ended, he] using ended
  · refine .inr (.inr (.inr (.inr (.inr ⟨asked, ?_⟩))))
    rw [zero]
    decide

/-- STATUS bit by bit (R20). -/
theorem Status.getLsbD_word (st : Status) (i : Nat) : st.word.getLsbD i =
    if i = 0 then st.busy else if i = 1 then st.done else if i = 2 then st.err
    else if 4 ≤ i ∧ i < 7 then st.errCode.code.getLsbD (i - 4)
    else if 8 ≤ i ∧ i < 10 then st.lastOp.getLsbD (i - 8)
    else false := by
  have append : st.word.getLsbD i = (0#22 ++ st.lastOp ++ 0#1 ++ st.errCode.code ++ 0#1 ++
    BitVec.ofBool st.err ++ BitVec.ofBool st.done ++ BitVec.ofBool st.busy).getLsbD i := rfl
  rw [append]
  simp only [BitVec.getLsbD_append]
  by_cases h : i < 10
  · interval_cases i <;> simp
  · grind

/-- Settles O17: every bit of the word is read off its table, and each field bit by bit. -/
theorem statusWordHoldsItsFields : Obligations.StatusWordHoldsItsFields := by
  intro st
  have hop : st.word.extractLsb' 8 2 = st.lastOp := by
    refine BitVec.eq_of_getLsbD_eq fun i hi => ?_
    rw [BitVec.getLsbD_extractLsb', st.getLsbD_word]
    grind
  have hzero : st.word.extractLsb' 10 22 = 0 := by
    refine BitVec.eq_of_getLsbD_eq fun i hi => ?_
    rw [BitVec.getLsbD_extractLsb', st.getLsbD_word]
    grind
  have hcode : st.word.extractLsb' 4 3 = st.errCode.code := by
    refine BitVec.eq_of_getLsbD_eq fun i hi => ?_
    rw [BitVec.getLsbD_extractLsb', st.getLsbD_word]
    grind
  refine ⟨st.getLsbD_word 0, st.getLsbD_word 1, st.getLsbD_word 2, st.getLsbD_word 3, st.getLsbD_word 7, hop,
    hzero, ?_⟩
  rw [hcode]
  cases st.errCode <;> rfl

/-- Settles O41: in the reset state PHASE is IDLE, STATUS is 0, IN is at its start and OUT is not ended. -/
theorem resetMeetsTheInvariant : Obligations.ResetMeetsTheInvariant :=
  ⟨statusOk_reset, ⟨Nat.zero_le _, nofun, nofun, nofun⟩, trivial, trivial, trivial, trivial⟩

/-- Settles O35: every clause is a value of the reset state, and both commands are accepted since BUSY is 0 there. -/
theorem resetIsIdleWithStatusZero : Obligations.ResetIsIdleWithStatusZero := by
  have accepted (f : State → State) : whenIdle f State.reset = .next (f State.reset) := whenIdle_of_idle rfl
  refine ⟨rfl, by decide, rfl, fun r => ?_, ⟨_, accepted _, rfl⟩, ⟨_, accepted _, rfl⟩⟩
  cases r <;> decide

/-- Settles O37: a HOST step drops the action; a read binds what `regRead` returns and an ignored write does nothing. -/
theorem registerReadsAndIgnoredWrites : Obligations.RegisterReadsAndIgnoredWrites := by
  intro s rest r hh
  rw [step_host hh, takeTurn_snd]
  constructor
  · intro hp
    simp only [hostFetch, hp, hostAct, outcome_done]
    cases r <;> rfl
  · intro v hr hp
    simp only [hostFetch, hp, hostAct]
    cases r with
    | cmd => exact absurd rfl hr
    | _ => rfl

end Sys2Proof.Machine
end


section
/-! SUPPORT. Every step keeps the invariant (10_state.md R20, R21, R28, 20_memory.md R40, 41_tree_builder.md R71, R75,
43_header_codec.md R84, 45_decompress.md R102): the ports for all places at once, the tables place by place. -/

namespace Sys2Proof.Machine

/-! ## The ports -/

theorem PortsOk.engine {s t : State} (h : PortsOk s) (step : engineMove s s.seq = .next t) : PortsOk t := by
  obtain ⟨inside, whole, ended, finished⟩ := id h
  obtain ⟨-, rfl⟩ | ⟨running, before, work⟩ | ⟨e, hs, rfl⟩ | ⟨e, hs, rfl⟩ := engineMove_cases step
  · exact h
  · have still : t.out.closed = false := by
      rw [work.closed, Bool.eq_false_iff]
      intro hc
      obtain hs | ⟨e, hs⟩ := ended hc
      · exact running (by rw [hs]; rfl)
      · exact before (by rw [hs]; rfl)
    refine ⟨work.inside inside, by simp [still], by simp [still], fun e he => ?_⟩
    have := work.running
    rw [he] at this
    cases this
  · refine ⟨inside, fun _ => ?_, fun _ => .inr ⟨e, rfl⟩, fun _ _ => rfl⟩
    simpa using padLen_spec s.out.bits.length
  · exact ⟨inside, whole, fun _ => .inl rfl, nofun⟩

theorem PortsOk.host {s t : State} (status : StatusOk s) (h : PortsOk s) (move : HostMove s t) : PortsOk t := by
  obtain ⟨inside, whole, ended, finished⟩ := id h
  cases move with
  | quiet k => exact h
  | accept k op q idle legal =>
    refine ⟨Nat.zero_le _, nofun, nofun, fun e he => ?_⟩
    obtain ⟨-, rfl⟩ | ⟨-, rfl⟩ := legal <;> cases he
  | illegal k op idle => exact h
  | connectIn k p idle start => exact ⟨start ▸ Nat.zero_le _, whole, ended, finished⟩
  | connectOut k idle =>
    refine ⟨inside, nofun, nofun, fun e he => ?_⟩
    have := status.idle idle
    simp_all
  | reset k asked => exact ⟨inside, whole, fun _ => .inl rfl, nofun⟩

/-! ## The tables -/

/-- The part of the invariant about the tables that the ENGINE needs at its place. -/
def PlaceOk (s : State) : Prop := QueueOk s ∧ HeaderOk s ∧ WalkOk s ∧ DecodeOk s

theorem inv_iff {s : State} : Inv s ↔ StatusOk s ∧ PortsOk s ∧ PlaceOk s := Iff.rfl

/-- The places at which the invariant asks nothing of the tables. -/
def Seq.free : Seq → Bool
  | .buildClear | .buildLeaf _ | .buildInsert _ | .merge | .mergeSecond _ | .mergeNode _ _ | .mergeInsert _ => false
  | .treeTag | .treeBit _ | .treeSym _ | .treeLeaf _ _ | .treeReturn _ | .treeBuild _ _ _ => false
  | .headerSym _ | .headerPush _ | .decodeBit | .decodeStep _ => false
  | _ => true

theorem PlaceOk.of_free {s : State} (h : s.seq.free = true) : PlaceOk s := by
  obtain ⟨q⟩ := s
  cases q <;> cases h <;> exact ⟨trivial, trivial, trivial, trivial⟩

theorem PlaceOk.host {s t : State} (h : PlaceOk s) (move : HostMove s t) : PlaceOk t := by
  cases move with
  | accept k op q idle legal =>
    obtain ⟨-, rfl⟩ | ⟨-, rfl⟩ := legal <;> exact .of_free rfl
  | reset k asked => exact .of_free rfl
  | _ => exact h

/-! ### Symbols and counters -/

theorem nextSym_eq_some {y z : Sym} (h : nextSym y = some z) : z.val = y.val + 1 := by
  unfold nextSym at h
  split at h
  · cases h; rfl
  · cases h

theorem nextSym_eq_none {y : Sym} (h : nextSym y = none) : y = sentinelSym := by
  unfold nextSym at h
  split at h
  · cases h
  next last =>
    have range : y.val < 257 := y.isLt
    have past : ¬ y.val + 1 < 257 := last
    exact Fin.ext (show y.val = 256 by omega)

theorem toNat_add_one {n : Nat} {x : BitVec n} (h : x.toNat + 1 < 2 ^ n) : (x + 1).toNat = x.toNat + 1 := by
  have one : (1 : BitVec n).toNat = 1 := BitVec.toNat_one (Nat.pos_of_ne_zero fun h0 => by subst h0; simp at h)
  rw [BitVec.toNat_add_of_lt (one.symm ▸ h), one]

/-! ### The queue -/

theorem placeOk_buildNext {y : Sym} {s : State} (sentinel : s.freq[sentinelSym] ≠ 0)
    (len : s.pq.length = s.nleaf.toNat) (bound : s.nleaf.toNat ≤ y.val + 1) (last : y = sentinelSym → s.pq ≠ []) :
    PlaceOk (buildNext y s) := by
  unfold buildNext
  split
  next z hz => exact ⟨⟨sentinel, len, nextSym_eq_some hz ▸ bound⟩, trivial, trivial, trivial⟩
  next hy =>
    have range : y.val < 257 := y.isLt
    have width : (s.nleaf.setWidth 10).toNat = s.nleaf.toNat := by simp; omega
    refine ⟨⟨last (nextSym_eq_none hy), ?_⟩, trivial, trivial, trivial⟩
    show (s.nleaf.setWidth 10).toNat + s.pq.length ≤ 514
    omega

theorem placeOk_buildLeaf {y : Sym} {s : State} (sentinel : s.freq[sentinelSym] ≠ 0)
    (len : s.pq.length = s.nleaf.toNat) (bound : s.nleaf.toNat ≤ y.val) : PlaceOk (buildLeaf y s) := by
  unfold buildLeaf
  split
  · exact ⟨⟨sentinel, len, bound⟩, trivial, trivial, trivial⟩
  next hy =>
    refine placeOk_buildNext sentinel len (Nat.le_succ_of_le bound) fun hs => ?_
    subst hs
    exact absurd ((BitVec.pos_iff_ne_zero _).mpr sentinel) hy

theorem placeOk_buildInsert {y : Sym} {s : State} (sentinel : s.freq[sentinelSym] ≠ 0)
    (len : s.pq.length = s.nleaf.toNat) (bound : s.nleaf.toNat ≤ y.val) : PlaceOk (buildInsert y s) := by
  have range : y.val < 257 := y.isLt
  have hn : (s.nleaf + 1).toNat = s.nleaf.toNat + 1 := toNat_add_one (by omega)
  refine placeOk_buildNext sentinel ?_ ?_ fun _ => List.append_ne_nil_of_right_ne_nil _ (List.cons_ne_nil _ _)
  · show (s.pq ++ [_]).length = (s.nleaf + 1).toNat
    rw [hn, List.length_append, len, List.length_singleton]
  · show (s.nleaf + 1).toNat ≤ y.val + 1
    omega

theorem placeOk_merge {s : State} (bound : s.next.toNat + s.pq.length ≤ 2 * Config.alph) :
    Answers PlaceOk (merge s) := by
  refine answers_takeMin fun a q hq => ?_
  have len := pqRemoveMin_length hq
  dsimp only
  split
  · exact .of_free rfl
  · next h =>
    refine ⟨⟨by simp_all, ?_⟩, trivial, trivial, trivial⟩
    dsimp only
    omega

theorem placeOk_mergeSecond {a : NodeIdx} {s : State} (bound : s.next.toNat + s.pq.length + 1 ≤ 2 * Config.alph) :
    Answers PlaceOk (mergeSecond a s) := by
  refine answers_takeMin fun b q hq => ⟨?_, trivial, trivial, trivial⟩
  have len := pqRemoveMin_length hq
  show s.next.toNat + q.length + 2 ≤ 2 * Config.alph
  omega

theorem placeOk_mergeNode {a b : NodeIdx} {s : State} (bound : s.next.toNat + s.pq.length + 2 ≤ 2 * Config.alph) :
    Answers PlaceOk (mergeNode a b s) := by
  unfold mergeNode
  split
  · exact answers_fault
  · exact answers_next.mpr ⟨bound, trivial, trivial, trivial⟩

theorem placeOk_mergeInsert {i : NodeIdx} {s : State} (bound : s.next.toNat + s.pq.length + 2 ≤ 2 * Config.alph) :
    PlaceOk (mergeInsert i s) := by
  have limit : s.next.toNat + s.pq.length + 2 ≤ 514 := bound
  have hn : (s.next + 1).toNat = s.next.toNat + 1 := toNat_add_one (by omega)
  refine ⟨⟨List.append_ne_nil_of_right_ne_nil _ (List.cons_ne_nil _ _), ?_⟩, trivial, trivial, trivial⟩
  show (s.next + 1).toNat + (s.pq ++ [i]).length ≤ 514
  rw [hn, List.length_append, List.length_singleton]
  omega

/-! ### The header reader -/

@[simp] theorem waitingLeft_cons (f : HdesFrame) (k : List HdesFrame) :
    waitingLeft (f :: k) = waitingLeft k + if f.left.isNone then 1 else 0 := List.countP_cons

theorem next_add_one {i : NodeIdx} {n : BitVec 10} (h : n.toNat = i.val) : (n + 1).toNat = n.toNat + 1 := by
  have range : i.val < 513 := i.isLt
  exact toNat_add_one (by omega)

theorem placeOk_desInternal {i : NodeIdx} {s : State} (counts : TreeCounts 0 s) (hi : s.next.toNat = i.val) :
    PlaceOk (desInternal i { s with next := s.next + 1 }) := by
  obtain ⟨full, cap, depth⟩ := counts
  have hn := next_add_one hi
  have limit : s.nint.toNat ≤ 256 := cap
  have hk : (s.nint + 1).toNat = s.nint.toNat + 1 := toNat_add_one (by omega)
  unfold desInternal
  dsimp only
  split
  · exact .of_free rfl
  next hcap =>
    refine ⟨trivial, ⟨?_, Nat.le_of_not_lt hcap, ?_⟩, trivial, trivial⟩
    · show (s.next + 1).toNat + waitingLeft (⟨i, none⟩ :: s.hdes) = 2 * (s.nint + 1).toNat + 0
      rw [hn, hk, waitingLeft_cons, Option.isNone_none, if_pos rfl]
      omega
    · show s.hdes.length + 1 ≤ (s.nint + 1).toNat
      omega

theorem placeOk_treeSym {i : NodeIdx} {s : State} (counts : TreeCounts 0 s) (hi : s.next.toNat = i.val) :
    PlaceOk { s with next := s.next + 1, seq := .treeSym i } := by
  obtain ⟨full, cap, depth⟩ := counts
  have hn := next_add_one hi
  refine ⟨trivial, ⟨?_, cap, depth⟩, trivial, trivial⟩
  show (s.next + 1).toNat + waitingLeft s.hdes = 2 * s.nint.toNat + 1
  omega

theorem placeOk_treeReturn {j : NodeIdx} {s : State} (counts : TreeCounts 1 s) : PlaceOk (treeReturn j s) := by
  obtain ⟨full, cap, depth⟩ := counts
  unfold treeReturn
  split
  · exact ⟨trivial, trivial, trivial, fun _ => Bool.eq_false_or_eq_true s.nodes[j].isLeaf⟩
  next f rest hf =>
    rw [hf] at full depth
    split
    next hl =>
      refine ⟨trivial, ⟨?_, cap, depth⟩, trivial, trivial⟩
      simp [hl] at full ⊢
      omega
    next l hl =>
      refine ⟨trivial, ⟨?_, cap, Nat.le_of_succ_le depth⟩, trivial, trivial⟩
      simpa [hl] using full

/-! ### The cursor -/

theorem placeOk_arrive (c : NodeIdx) (s : State) : PlaceOk (arrive c s) := by
  unfold arrive
  split
  · split
    · exact ⟨trivial, trivial, trivial, fun h => absurd rfl h⟩
    · exact .of_free rfl
  next hc => exact ⟨trivial, trivial, trivial, fun _ => .inr (by simp [hc, Node.isLeaf])⟩

theorem placeOk_decodeReset (s : State) : PlaceOk (decodeReset s) :=
  ⟨trivial, trivial, trivial, fun _ => Bool.eq_false_or_eq_true s.nodes[s.root].isLeaf⟩

/-! ### Place by place -/

theorem placeOk_readField {n : Nat} {hold : BitVec n → Seq} {eof : State → State} {s : State}
    (held : ∀ p v, PlaceOk { s with inp := p, seq := hold v }) (ended : ∀ p, PlaceOk (eof { s with inp := p })) :
    Answers PlaceOk (readField n hold eof s).outcome :=
  answers_readField (fun v _ => held _ v) (ended _)

theorem PlaceOk.engine {s : State} (h : PlaceOk s) : Answers PlaceOk (engineMove s s.seq) := by
  obtain ⟨queue, header, walk, decode⟩ := id h
  cases hq : s.seq with
  | idle => exact answers_next.mpr h
  | countClear y =>
    refine answers_next.mpr ?_
    unfold countClear
    cases nextSym y <;> exact .of_free rfl
  | count =>
    exact placeOk_readField (fun _ _ => .of_free rfl) fun _ => .of_free rfl
  | countByte b =>
    refine answers_next.mpr ?_
    unfold countByte
    dsimp only
    split <;> exact .of_free rfl
  | countEnd => exact answers_next.mpr ⟨by simp [countEnd, QueueOk], trivial, trivial, trivial⟩
  | buildClear =>
    simp only [QueueOk, hq] at queue
    exact answers_next.mpr ⟨⟨queue, rfl, Nat.le_refl _⟩, trivial, trivial, trivial⟩
  | buildLeaf y =>
    simp only [QueueOk, hq] at queue
    obtain ⟨sentinel, len, bound⟩ := queue
    exact answers_next.mpr (placeOk_buildLeaf sentinel len bound)
  | buildInsert y =>
    simp only [QueueOk, hq] at queue
    obtain ⟨sentinel, len, bound⟩ := queue
    exact answers_next.mpr (placeOk_buildInsert sentinel len bound)
  | merge =>
    simp only [QueueOk, hq] at queue
    exact placeOk_merge queue.2
  | mergeSecond a =>
    simp only [QueueOk, hq] at queue
    exact placeOk_mergeSecond queue.2
  | mergeNode a b =>
    simp only [QueueOk, hq] at queue
    exact placeOk_mergeNode queue
  | mergeInsert i =>
    simp only [QueueOk, hq] at queue
    exact answers_next.mpr (placeOk_mergeInsert queue)
  | codesClear y =>
    refine answers_next.mpr ?_
    unfold codesClear
    cases nextSym y <;> exact .of_free rfl
  | codesStart =>
    refine answers_next.mpr ?_
    unfold codesStart
    split <;> exact .of_free rfl
  | codesNode i p =>
    refine answers_next.mpr ?_
    unfold codesNode
    split <;> exact .of_free rfl
  | codesPop =>
    refine answers_next.mpr ?_
    unfold popWalk
    split <;> exact .of_free rfl
  | headerNode i =>
    refine answers_next.mpr ?_
    split
    next leaf => exact ⟨trivial, trivial, leaf, trivial⟩
    next internal => exact ⟨trivial, trivial, Bool.eq_false_of_not_eq_true internal, trivial⟩
  | headerPush i =>
    simp only [engineMove, headerPush]
    split
    · exact answers_fault
    · exact answers_next.mpr (.of_free rfl)
  | headerSym i =>
    dsimp only [engineMove]
    split
    · exact answers_next.mpr (.of_free rfl)
    · exact answers_refused
  | headerPop =>
    refine answers_next.mpr ?_
    unfold popWalk
    split <;> exact .of_free rfl
  | encodeRead =>
    exact placeOk_readField (fun _ _ => .of_free rfl) fun _ => .of_free rfl
  | encodeByte b =>
    refine answers_next.mpr ?_
    unfold encodeByte
    split <;> exact .of_free rfl
  | magicRead =>
    exact placeOk_readField (fun _ _ => .of_free rfl) fun _ => .of_free rfl
  | magicField m =>
    refine answers_next.mpr ?_
    split <;> exact .of_free rfl
  | treeClear => exact answers_next.mpr ⟨trivial, ⟨rfl, Nat.zero_le _, Nat.zero_le _⟩, trivial, trivial⟩
  | treeTag =>
    simp only [HeaderOk, hq] at header
    exact placeOk_readField (fun _ _ => ⟨trivial, header, trivial, trivial⟩)
      fun _ => .of_free rfl
  | treeBit t =>
    simp only [HeaderOk, hq] at header
    cases t with
    | false =>
      dsimp only [engineMove]
      exact answers_allocNode fun i hi => answers_next.mpr (placeOk_desInternal header hi)
    | true =>
      dsimp only [engineMove]
      exact answers_allocNode fun i hi => answers_next.mpr (placeOk_treeSym header hi)
  | treeSym i =>
    simp only [HeaderOk, hq] at header
    exact placeOk_readField (fun _ _ => ⟨trivial, header, trivial, trivial⟩)
      fun _ => .of_free rfl
  | treeLeaf i v =>
    simp only [HeaderOk, hq] at header
    refine answers_next.mpr ?_
    cases symOfField v with
    | none => exact .of_free rfl
    | some y => exact ⟨trivial, header, trivial, trivial⟩
  | treeReturn j =>
    simp only [HeaderOk, hq] at header
    exact answers_next.mpr (placeOk_treeReturn header)
  | treeBuild i l r =>
    simp only [HeaderOk, hq] at header
    exact answers_next.mpr ⟨trivial, header, trivial, trivial⟩
  | decodeBit =>
    simp only [DecodeOk, hq] at decode
    dsimp only [engineMove]
    split
    · exact answers_next.mpr (.of_free rfl)
    next live =>
      exact placeOk_readField (fun _ _ => ⟨trivial, trivial, trivial, decode, live⟩)
        fun _ => .of_free rfl
  | decodeStep t =>
    dsimp only [engineMove]
    split
    · exact answers_refused
    · cases nextCur t s with
      | none => exact answers_fault
      | some c => exact answers_next.mpr (placeOk_arrive c s)
  | decodeReset => exact answers_next.mpr (placeOk_decodeReset s)
  | _ => exact answers_next.mpr (.of_free rfl)

theorem Inv.engine {s t : State} (h : Inv s) (step : engineMove s s.seq = .next t) : Inv t := by
  obtain ⟨status, ports, place⟩ := inv_iff.mp h
  exact inv_iff.mpr ⟨status.engine step, ports.engine step, place.engine t step⟩

theorem Inv.host {s t : State} (h : Inv s) (move : HostMove s t) : Inv t := by
  obtain ⟨status, ports, place⟩ := inv_iff.mp h
  exact inv_iff.mpr ⟨status.host move, ports.host status move, place.host move⟩

/-- Settles O42: the ENGINE's moves and the HOST's keep STATUS, the ports and the tables each. -/
theorem everyStepKeepsTheInvariant : Obligations.EveryStepKeepsTheInvariant := by
  intro s t h step
  obtain ⟨k, move⟩ | move := step_cases step
  · exact Inv.engine ((inv_with_host s k).mpr h) move
  · exact h.host move

end Sys2Proof.Machine
end


section
/-! SUPPORT. What the tables hold when a command starts cannot be observed (10_state.md R29, R30, 60_exceptions.md R109).
Two runs from idle states alike outside are kept in step by a relation that says, place by place, which tables the
ENGINE still reads: those must be equal, and the arena must agree on a set of entries that holds every index the ENGINE
can still come to. -/

namespace Sys2Proof.Machine

/-! ## Outcomes side by side -/

/-- Where the first outcome is a next state, so is the second, and `R` holds between the two. -/
def Matches (R : State → State → Prop) (o p : StepOutcome) : Prop := ∀ s, o = .next s → ∃ t, p = .next t ∧ R s t

section
variable {R : State → State → Prop} {s t : State}

theorem matches_next (h : R s t) : Matches R (.next s) (.next t) := by
  intro s' hs
  cases hs
  exact ⟨t, rfl, h⟩

theorem matches_fault {r : Fault} {p : StepOutcome} : Matches R (.fault r) p := by simp [Matches]

theorem matches_refused {r : Refusal} {p : StepOutcome} : Matches R (.refused r) p := by simp [Matches]

theorem matches_readField {n : Nat} {hold : BitVec n → Seq} {eof : State → State} (inp : s.inp = t.inp)
    (held : ∀ p v, R { s with inp := p, seq := hold v } { t with inp := p, seq := hold v })
    (ended : ∀ p, R (eof { s with inp := p }) (eof { t with inp := p })) :
    Matches R (readField n hold eof s).outcome (readField n hold eof t).outcome := by
  unfold readField
  rw [← inp]
  cases s.inp.readBits n with
  | value v p => exact matches_next (held p v)
  | eof p => exact matches_next (ended p)

theorem matches_takeMin {k : NodeIdx → State → State} (min : pqRemoveMin s.nodes s.pq = pqRemoveMin t.nodes t.pq)
    (taken : ∀ a q, pqRemoveMin s.nodes s.pq = some (a, q) → R (k a { s with pq := q }) (k a { t with pq := q })) :
    Matches R (takeMin k s) (takeMin k t) := by
  unfold takeMin
  rw [← min]
  cases h : pqRemoveMin s.nodes s.pq with
  | none => exact matches_fault
  | some e => exact matches_next (taken e.1 e.2 h)

theorem matches_allocNode {k : NodeIdx → State → StepOutcome} (next : s.next = t.next)
    (allocated : ∀ i, Matches R (k i { s with next := s.next + 1 }) (k i { t with next := t.next + 1 })) :
    Matches R (allocNode k s) (allocNode k t) := by
  unfold allocNode
  rw [← next]
  cases arenaSlot s.next with
  | none => exact matches_fault
  | some i => exact next ▸ allocated i

end

/-! ## Arenas that agree -/

/-- Two arenas agree on the entries of `W`, and no child leads out of `W`. -/
def Agree (W : Set NodeIdx) (n m : Vector Node Config.nodeCap) : Prop :=
  ∀ i ∈ W, n[i] = m[i] ∧ ∀ b c, n[i].child b = some c → c ∈ W

theorem agree_empty (n m : Vector Node Config.nodeCap) : Agree ∅ n m := nofun

/-- An entry written in both arenas joins the set, when its children are in it. -/
theorem Agree.set {W : Set NodeIdx} {n m : Vector Node Config.nodeCap} (h : Agree W n m) (i : NodeIdx) {x : Node}
    (children : ∀ b c, x.child b = some c → c ∈ W) : Agree (insert i W) (n.set i x) (m.set i x) := by
  intro j hj
  by_cases hij : i = j
  · subst hij
    have written (k : Vector Node Config.nodeCap) : (k.set i x)[i] = x := Vector.getElem_set_self i.isLt
    rw [written, written]
    exact ⟨rfl, fun b c hc => Set.mem_insert_of_mem i (children b c hc)⟩
  · have kept (k : Vector Node Config.nodeCap) : (k.set i x)[j] = k[j] :=
      Vector.getElem_set_ne i.isLt j.isLt fun hv => hij (Fin.ext hv)
    obtain ⟨same, closed⟩ := h j (hj.resolve_left (Ne.symm hij))
    rw [kept, kept]
    exact ⟨same, fun b c hc => Set.mem_insert_of_mem i (closed b c hc)⟩

theorem pqMin_congr {n m : Vector Node Config.nodeCap} {q : List NodeIdx} (h : ∀ i ∈ q, n[i] = m[i]) :
    pqMin n q = pqMin m q := by
  induction q with
  | nil => rfl
  | cons a q ih =>
    rw [pqMin, pqMin, ← ih fun i hi => h i (List.mem_cons_of_mem a hi)]
    cases hq : pqMin n q with
    | none => rfl
    | some b =>
      have hb := h b (List.mem_cons_of_mem a (pqMin_mem hq))
      have ha := h a List.mem_cons_self
      have key : keyLess n b a = keyLess m b a := by simp only [keyLess, ha, hb]
      dsimp only
      rw [key]

/-! ## Vectors equal up to a symbol -/

section
variable {α : Type} {v w : Vector α Config.alph} {y : Sym}

/-- Clearing entry `y` in both extends their equality past `y`. -/
theorem getElem_set_eq_of_le (h : ∀ z < y, v[z] = w[z]) (x : α) {z : Sym} (hz : z ≤ y) :
    (v.set y x)[z] = (w.set y x)[z] := by
  by_cases hzy : y.val = z.val
  · simp [hzy]
  · have := h z (lt_of_le_of_ne hz fun he => hzy (congrArg Fin.val he.symm))
    simpa [Vector.getElem_set_ne _ _ hzy] using this

theorem getElem_set_eq_of_next (h : ∀ z < y, v[z] = w[z]) (x : α) {u : Sym} (hu : nextSym y = some u) :
    ∀ z < u, (v.set y x)[z] = (w.set y x)[z] := fun z hz =>
  getElem_set_eq_of_le h x (Nat.le_of_lt_succ (nextSym_eq_some hu ▸ hz : z.val < y.val + 1))

theorem set_eq_of_last (h : ∀ z < y, v[z] = w[z]) (x : α) (hy : nextSym y = none) : v.set y x = w.set y x :=
  Vector.ext fun i hi => getElem_set_eq_of_le (z := ⟨i, hi⟩) h x
    (nextSym_eq_none hy ▸ Nat.le_of_lt_succ hi : (⟨i, hi⟩ : Sym) ≤ y)

end

/-! ## The tables still to be read -/

/-- BUILD_LEAVES' counters and queue. -/
def LeavesAlike (W : Set NodeIdx) (s t : State) : Prop :=
  s.freq = t.freq ∧ s.nleaf = t.nleaf ∧ s.pq = t.pq ∧ ∀ i ∈ s.pq, i ∈ W

/-- MERGE's queue and arena counter. -/
def QueueAlike (W : Set NodeIdx) (s t : State) : Prop := s.next = t.next ∧ s.pq = t.pq ∧ ∀ i ∈ s.pq, i ∈ W

/-- The tree's root and the code table. -/
def CodesAlike (W : Set NodeIdx) (s t : State) : Prop := s.root = t.root ∧ s.root ∈ W ∧ s.codes = t.codes

/-- The walk stack. -/
def WalkAlike (W : Set NodeIdx) (s t : State) : Prop := s.walk = t.walk ∧ ∀ e ∈ s.walk, e.node ∈ W

/-- The header reader's counters and stack. -/
def HeaderAlike (W : Set NodeIdx) (s t : State) : Prop :=
  s.next = t.next ∧ s.nint = t.nint ∧ s.hdes = t.hdes ∧ ∀ f ∈ s.hdes, ∀ l, f.left = some l → l ∈ W

/-- The tree's root, where decoding starts again. -/
def RootAlike (W : Set NodeIdx) (s t : State) : Prop := s.root = t.root ∧ s.root ∈ W

/-- The decoder's cursor. -/
def CursorAlike (W : Set NodeIdx) (s t : State) : Prop := s.cur = t.cur ∧ s.cur ∈ W ∧ s.dstate = t.dstate

/-- The tables that the ENGINE can still read before it writes them anew, at each place, are equal in two states; arena
indices that it can still come to are in `W`. -/
def Live (W : Set NodeIdx) (s t : State) : Seq → Prop
  | .countClear y => ∀ z < y, s.freq[z] = t.freq[z]
  | .count | .countByte _ => s.freq = t.freq ∧ s.nbytes = t.nbytes
  | .countEnd | .buildClear => s.freq = t.freq
  | .buildLeaf _ => LeavesAlike W s t
  | .buildInsert _ => LeavesAlike W s t ∧ leafSlot s.nleaf ∈ W
  | .merge => QueueAlike W s t
  | .mergeSecond a => QueueAlike W s t ∧ a ∈ W
  | .mergeNode a b => QueueAlike W s t ∧ a ∈ W ∧ b ∈ W
  | .mergeInsert i => QueueAlike W s t ∧ i ∈ W
  | .codesClear y => RootAlike W s t ∧ ∀ z < y, s.codes[z] = t.codes[z]
  | .codesStart | .magicWrite | .headerStart => CodesAlike W s t
  | .codesNode i _ | .headerNode i | .headerPush i | .headerSym i => CodesAlike W s t ∧ WalkAlike W s t ∧ i ∈ W
  | .codesPop | .headerPop => CodesAlike W s t ∧ WalkAlike W s t
  | .rewind | .encodeRead | .encodeByte _ | .encodeWrite _ | .sentinel => s.codes = t.codes
  | .treeTag | .treeBit _ | .treeSym _ | .treeLeaf _ _ => HeaderAlike W s t
  | .treeReturn j => HeaderAlike W s t ∧ j ∈ W
  | .treeBuild _ l r => HeaderAlike W s t ∧ l ∈ W ∧ r ∈ W
  | .decodeBit | .decodeStep _ => RootAlike W s t ∧ CursorAlike W s t
  | .decodeEmit _ | .decodeReset => RootAlike W s t
  | .idle | .magicRead | .magicField _ | .treeClear | .close _ | .finish _ => True

/-- Two states that nothing outside can tell apart, now or later. -/
def Alike (s t : State) : Prop := sameOutside s t ∧ ∃ W, Agree W s.nodes t.nodes ∧ Live W s t s.seq

theorem Alike.outside {s t : State} (h : Alike s t) : sameOutside s t := h.1

theorem alike_of_idle {s t : State} (hs : s.seq = .idle) (same : sameOutside s t) : Alike s t :=
  ⟨same, ∅, agree_empty _ _, hs ▸ trivial⟩

theorem alike_raise {s t : State} (e : ErrCode) (status : s.status = t.status) (inp : s.inp = t.inp)
    (out : s.out = t.out) (host : s.host = t.host) : Alike (raise e s) (raise e t) :=
  ⟨⟨rfl, status, inp, out, host⟩, ∅, agree_empty _ _, trivial⟩

section
variable {W : Set NodeIdx} {s t : State}

/-! ### C_COUNT -/

theorem alike_countClear {y : Sym} (same : sameOutside s t) (live : ∀ z < y, s.freq[z] = t.freq[z]) :
    Alike (countClear y s) (countClear y t) := by
  obtain ⟨-, outside⟩ := same
  unfold countClear
  split
  next z hz => exact ⟨⟨rfl, outside⟩, ∅, agree_empty _ _, getElem_set_eq_of_next live 0 hz⟩
  next hy => exact ⟨⟨rfl, outside⟩, ∅, agree_empty _ _, set_eq_of_last live 0 hy, rfl⟩

theorem alike_countByte {b : Byte} (same : sameOutside s t) (freq : s.freq = t.freq) (nbytes : s.nbytes = t.nbytes) :
    Alike (countByte b s) (countByte b t) := by
  obtain ⟨-, outside⟩ := same
  simp only [countByte, ← freq, ← nbytes]
  split
  · exact ⟨⟨rfl, outside⟩, ∅, agree_empty _ _, trivial⟩
  · exact ⟨⟨rfl, outside⟩, ∅, agree_empty _ _, rfl, rfl⟩

/-! ### C_BUILD -/

theorem alike_buildNext {y : Sym} (same : sameOutside s t) (agree : Agree W s.nodes t.nodes)
    (live : LeavesAlike W s t) : Alike (buildNext y s) (buildNext y t) := by
  obtain ⟨-, outside⟩ := same
  obtain ⟨-, nleaf, pq, inside⟩ := id live
  unfold buildNext
  split
  · exact ⟨⟨rfl, outside⟩, W, agree, live⟩
  · exact ⟨⟨rfl, outside⟩, W, agree, by rw [nleaf], pq, inside⟩

theorem alike_buildLeaf {y : Sym} (same : sameOutside s t) (agree : Agree W s.nodes t.nodes)
    (live : LeavesAlike W s t) : Alike (buildLeaf y s) (buildLeaf y t) := by
  obtain ⟨-, outside⟩ := id same
  obtain ⟨freq, nleaf, pq, inside⟩ := id live
  simp only [buildLeaf, ← freq, ← nleaf]
  split
  · refine ⟨⟨rfl, outside⟩, insert (leafSlot s.nleaf) W, agree.set _ (x := .leaf y s.freq[y]) nofun, ?_⟩
    exact ⟨⟨rfl, rfl, pq, fun i hi => Set.mem_insert_of_mem _ (inside i hi)⟩, Set.mem_insert _ _⟩
  · exact alike_buildNext same agree live

theorem alike_buildInsert {y : Sym} (same : sameOutside s t) (agree : Agree W s.nodes t.nodes)
    (live : LeavesAlike W s t) (leaf : leafSlot s.nleaf ∈ W) : Alike (buildInsert y s) (buildInsert y t) := by
  obtain ⟨freq, nleaf, pq, inside⟩ := live
  refine alike_buildNext (W := W) same agree ⟨freq, by simp only [nleaf], by simp only [nleaf, pq], ?_⟩
  intro i hi
  obtain hi | hi := List.mem_append.mp hi
  · exact inside i hi
  · exact List.mem_singleton.mp hi ▸ leaf

theorem pqRemoveMin_alike (agree : Agree W s.nodes t.nodes) (pq : s.pq = t.pq) (inside : ∀ i ∈ s.pq, i ∈ W) :
    pqRemoveMin s.nodes s.pq = pqRemoveMin t.nodes t.pq := by
  unfold pqRemoveMin
  rw [← pq, pqMin_congr fun i hi => (agree i (inside i hi)).1]

theorem pqRemoveMin_inside {nodes : Vector Node Config.nodeCap} {p q : List NodeIdx} {a : NodeIdx}
    (inside : ∀ i ∈ p, i ∈ W) (h : pqRemoveMin nodes p = some (a, q)) : a ∈ W ∧ ∀ i ∈ q, i ∈ W := by
  obtain ⟨hm, rfl⟩ := pqRemoveMin_eq_some.mp h
  exact ⟨inside a (pqMin_mem hm), fun i hi => inside i (List.mem_of_mem_erase hi)⟩

theorem alike_merge (same : sameOutside s t) (agree : Agree W s.nodes t.nodes) (live : QueueAlike W s t) :
    Matches Alike (merge s) (merge t) := by
  obtain ⟨-, outside⟩ := same
  obtain ⟨next, pq, inside⟩ := live
  refine matches_takeMin (pqRemoveMin_alike agree pq inside) fun a q h => ?_
  obtain ⟨ha, hq⟩ := pqRemoveMin_inside inside h
  cases q with
  | nil => exact ⟨⟨rfl, outside⟩, W, agree, ⟨rfl, ha⟩, nofun⟩
  | cons b q => exact ⟨⟨rfl, outside⟩, W, agree, ⟨next, rfl, hq⟩, ha⟩

theorem alike_mergeSecond {a : NodeIdx} (same : sameOutside s t) (agree : Agree W s.nodes t.nodes)
    (live : QueueAlike W s t) (ha : a ∈ W) : Matches Alike (mergeSecond a s) (mergeSecond a t) := by
  obtain ⟨-, outside⟩ := same
  obtain ⟨next, pq, inside⟩ := live
  refine matches_takeMin (pqRemoveMin_alike agree pq inside) fun b q h => ?_
  obtain ⟨hb, hq⟩ := pqRemoveMin_inside inside h
  exact ⟨⟨rfl, outside⟩, W, agree, ⟨next, rfl, hq⟩, ha, hb⟩

/-- The children of a new internal node are the two given. -/
theorem child_internal {w : Weight} {l r : NodeIdx} (hl : l ∈ W) (hr : r ∈ W) (b : Bool) (c : NodeIdx)
    (h : (Node.internal w l r).child b = some c) : c ∈ W := by
  cases b <;> cases h <;> assumption

theorem alike_mergeNode {a b : NodeIdx} (same : sameOutside s t) (agree : Agree W s.nodes t.nodes)
    (live : QueueAlike W s t) (ha : a ∈ W) (hb : b ∈ W) : Matches Alike (mergeNode a b s) (mergeNode a b t) := by
  obtain ⟨-, outside⟩ := same
  obtain ⟨next, pq, inside⟩ := live
  unfold mergeNode
  rw [← next]
  split
  · exact matches_fault
  next i hi =>
    rw [← (agree a ha).1, ← (agree b hb).1]
    refine matches_next ⟨⟨rfl, outside⟩, insert i W, agree.set i (child_internal ha hb), ?_⟩
    exact ⟨⟨rfl, pq, fun j hj => Set.mem_insert_of_mem i (inside j hj)⟩, Set.mem_insert i W⟩

theorem alike_mergeInsert {i : NodeIdx} (same : sameOutside s t) (agree : Agree W s.nodes t.nodes)
    (live : QueueAlike W s t) (hi : i ∈ W) : Alike (mergeInsert i s) (mergeInsert i t) := by
  obtain ⟨-, outside⟩ := same
  obtain ⟨next, pq, inside⟩ := live
  refine ⟨⟨rfl, outside⟩, W, agree, by simp only [mergeInsert_next, next], by simp only [mergeInsert_pq, pq], ?_⟩
  intro j hj
  obtain hj | hj := List.mem_append.mp hj
  · exact inside j hj
  · exact List.mem_singleton.mp hj ▸ hi

/-! ### C_CODES -/

theorem alike_codesClear {y : Sym} (same : sameOutside s t) (agree : Agree W s.nodes t.nodes)
    (root : RootAlike W s t) (live : ∀ z < y, s.codes[z] = t.codes[z]) :
    Alike (codesClear y s) (codesClear y t) := by
  obtain ⟨-, outside⟩ := same
  obtain ⟨hroot, inside⟩ := id root
  unfold codesClear
  split
  next z hz => exact ⟨⟨rfl, outside⟩, W, agree, root, getElem_set_eq_of_next live _ hz⟩
  next hy => exact ⟨⟨rfl, outside⟩, W, agree, hroot, inside, set_eq_of_last live _ hy⟩

theorem RootAlike.node (root : RootAlike W s t) (agree : Agree W s.nodes t.nodes) :
    s.nodes[s.root] = t.nodes[t.root] := by
  obtain ⟨hroot, inside⟩ := root
  simp only [← hroot, (agree s.root inside).1]

theorem alike_codesStart (same : sameOutside s t) (agree : Agree W s.nodes t.nodes) (live : CodesAlike W s t) :
    Alike (codesStart s) (codesStart t) := by
  obtain ⟨-, outside⟩ := same
  obtain ⟨root, inside, codes⟩ := id live
  unfold codesStart
  rw [← RootAlike.node ⟨root, inside⟩ agree]
  cases s.nodes[s.root] with
  | leaf y w => exact ⟨⟨rfl, outside⟩, W, agree, root, inside, by simp [codes]⟩
  | internal w l r =>
    exact ⟨⟨congrArg (Seq.codesNode · []) root, outside⟩, W, agree, live, ⟨rfl, nofun⟩, inside⟩

/-- The children of an internal node of the arena stay in the set. -/
theorem Agree.children {n m : Vector Node Config.nodeCap} (agree : Agree W n m) {i l r : NodeIdx} {w : Weight}
    (hi : i ∈ W) (h : n[i] = .internal w l r) : l ∈ W ∧ r ∈ W := by
  obtain ⟨-, closed⟩ := agree i hi
  rw [h] at closed
  exact ⟨closed false l rfl, closed true r rfl⟩

theorem WalkAlike.push {e : WalkEntry} {q : Seq} (walk : WalkAlike W s t) (he : e.node ∈ W) :
    WalkAlike W (pushWalk e q s) (pushWalk e q t) := by
  obtain ⟨stack, inside⟩ := walk
  exact ⟨by simp [stack], by simpa using ⟨he, inside⟩⟩

theorem alike_codesNode {i : NodeIdx} {p : Bits} (same : sameOutside s t) (agree : Agree W s.nodes t.nodes)
    (live : CodesAlike W s t) (walk : WalkAlike W s t) (hi : i ∈ W) : Alike (codesNode i p s) (codesNode i p t) := by
  obtain ⟨-, outside⟩ := same
  obtain ⟨root, inside, codes⟩ := id live
  unfold codesNode
  rw [← (agree i hi).1]
  cases h : s.nodes[i] with
  | leaf y w => exact ⟨⟨rfl, outside⟩, W, agree, ⟨root, inside, by simp [codes]⟩, walk⟩
  | internal w l r =>
    obtain ⟨hl, hr⟩ := agree.children hi h
    exact ⟨⟨rfl, outside⟩, W, agree, live, walk.push hr, hl⟩

/-- A return to the walk stack goes on alike, where the subtrees and the end of the walk do. -/
theorem alike_popWalk {visit : WalkEntry → Seq} {q : Seq} (same : sameOutside s t) (agree : Agree W s.nodes t.nodes)
    (walk : WalkAlike W s t)
    (more : ∀ (e : WalkEntry) (k : List WalkEntry), e.node ∈ W → (∀ f ∈ k, f.node ∈ W) →
      Live W { s with walk := k, seq := visit e } { t with walk := k, seq := visit e } (visit e))
    (last : Live W { s with seq := q } { t with seq := q } q) : Alike (popWalk visit q s) (popWalk visit q t) := by
  obtain ⟨-, outside⟩ := same
  obtain ⟨stack, inside⟩ := walk
  obtain ⟨hs, es⟩ | ⟨e, k, hs, es⟩ := popWalk_cases visit q s <;>
    obtain ⟨ht, et⟩ | ⟨f, m, ht, et⟩ := popWalk_cases visit q t <;>
    rw [es, et] <;> rw [stack, ht] at hs <;> cases hs
  · exact ⟨⟨rfl, outside⟩, W, agree, last⟩
  · rw [stack, ht, List.forall_mem_cons] at inside
    obtain ⟨he, hk⟩ := inside
    exact ⟨⟨rfl, outside⟩, W, agree, more e k he hk⟩

/-! ### C_HEADER -/

theorem alike_headerNode {i : NodeIdx} (same : sameOutside s t) (agree : Agree W s.nodes t.nodes)
    (live : CodesAlike W s t ∧ WalkAlike W s t ∧ i ∈ W) :
    Alike (if s.nodes[i].isLeaf then serTag i s else serInternal i s)
      (if t.nodes[i].isLeaf then serTag i t else serInternal i t) := by
  obtain ⟨-, status, inp, out, host⟩ := same
  rw [← (agree i live.2.2).1]
  cases s.nodes[i].isLeaf <;> exact ⟨⟨rfl, status, inp, congrArg (OutPort.writeBits _) out, host⟩, W, agree, live⟩

theorem alike_headerPush {i : NodeIdx} (same : sameOutside s t) (agree : Agree W s.nodes t.nodes)
    (live : CodesAlike W s t) (walk : WalkAlike W s t) (hi : i ∈ W) :
    Matches Alike (headerPush i s) (headerPush i t) := by
  obtain ⟨-, outside⟩ := same
  unfold headerPush
  rw [← (agree i hi).1]
  cases h : s.nodes[i] with
  | leaf y w => exact matches_fault
  | internal w l r =>
    obtain ⟨hl, hr⟩ := agree.children hi h
    exact matches_next ⟨⟨rfl, outside⟩, W, agree, live, walk.push hr, hl⟩

/-! ### D_HEADER -/

theorem alike_desInternal {i : NodeIdx} (same : sameOutside s t) (agree : Agree W s.nodes t.nodes)
    (live : HeaderAlike W s t) : Alike (desInternal i s) (desInternal i t) := by
  obtain ⟨-, outside⟩ := same
  obtain ⟨next, nint, hdes, inside⟩ := live
  simp only [desInternal, ← nint, ← hdes]
  split
  · exact ⟨⟨rfl, outside⟩, ∅, agree_empty _ _, trivial⟩
  · refine ⟨⟨rfl, outside⟩, W, agree, next, rfl, rfl, ?_⟩
    exact List.forall_mem_cons.mpr ⟨nofun, inside⟩

theorem alike_desLeaf {i : NodeIdx} {y : Sym} (same : sameOutside s t) (agree : Agree W s.nodes t.nodes)
    (live : HeaderAlike W s t) : Alike (desLeaf i y s) (desLeaf i y t) := by
  obtain ⟨-, outside⟩ := same
  obtain ⟨next, nint, hdes, inside⟩ := live
  refine ⟨⟨rfl, outside⟩, insert i W, agree.set i (x := .leaf y 0) nofun, ⟨next, nint, hdes, ?_⟩, Set.mem_insert i W⟩
  exact fun f hf l hl => Set.mem_insert_of_mem i (inside f hf l hl)

theorem alike_treeReturn {j : NodeIdx} (same : sameOutside s t) (agree : Agree W s.nodes t.nodes)
    (live : HeaderAlike W s t) (hj : j ∈ W) : Alike (treeReturn j s) (treeReturn j t) := by
  obtain ⟨-, outside⟩ := same
  obtain ⟨next, nint, hdes, inside⟩ := live
  unfold treeReturn
  rw [← hdes]
  split
  · exact ⟨⟨rfl, outside⟩, W, agree, ⟨rfl, hj⟩, rfl, hj, rfl⟩
  next f rest h =>
    rw [h, List.forall_mem_cons] at inside
    obtain ⟨hf, hrest⟩ := inside
    split
    · refine ⟨⟨rfl, outside⟩, W, agree, next, nint, rfl, List.forall_mem_cons.mpr ⟨?_, hrest⟩⟩
      exact fun l hl => Option.some.inj hl ▸ hj
    next l hl => exact ⟨⟨rfl, outside⟩, W, agree, ⟨next, nint, rfl, hrest⟩, hf l hl, hj⟩

theorem alike_treeBuild {i l r : NodeIdx} (same : sameOutside s t) (agree : Agree W s.nodes t.nodes)
    (live : HeaderAlike W s t) (hl : l ∈ W) (hr : r ∈ W) : Alike (treeBuild i l r s) (treeBuild i l r t) := by
  obtain ⟨-, outside⟩ := same
  obtain ⟨next, nint, hdes, inside⟩ := live
  refine ⟨⟨rfl, outside⟩, insert i W, agree.set i (child_internal hl hr), ⟨next, nint, hdes, ?_⟩, Set.mem_insert i W⟩
  exact fun f hf k hk => Set.mem_insert_of_mem i (inside f hf k hk)

/-! ### D_DECODE -/

theorem nextCur_alike {b : Bool} (agree : Agree W s.nodes t.nodes) (root : RootAlike W s t) (cursor : CursorAlike W s t) :
    nextCur b s = nextCur b t ∧ ∀ c, nextCur b s = some c → c ∈ W := by
  obtain ⟨hroot, rootIn⟩ := root
  obtain ⟨hcur, curIn, -⟩ := cursor
  simp only [nextCur, ← hroot, ← hcur, ← (agree s.root rootIn).1, ← (agree s.cur curIn).1]
  refine ⟨trivial, fun c hc => ?_⟩
  split at hc
  · exact Option.some.inj hc ▸ rootIn
  · exact (agree s.cur curIn).2 b c hc

theorem alike_arrive {c : NodeIdx} (same : sameOutside s t) (agree : Agree W s.nodes t.nodes) (root : RootAlike W s t)
    (hc : c ∈ W) : Alike (arrive c s) (arrive c t) := by
  obtain ⟨-, outside⟩ := same
  unfold arrive
  rw [← (agree c hc).1]
  cases s.nodes[c] with
  | leaf y w =>
    dsimp only
    split
    · exact ⟨⟨rfl, outside⟩, W, agree, root, rfl, hc, rfl⟩
    · exact ⟨⟨rfl, outside⟩, W, agree, root⟩
  | internal w l r => exact ⟨⟨rfl, outside⟩, W, agree, root, rfl, hc, rfl⟩

end

/-- From states alike, the ENGINE moves alike: the place's own tables are all it reads. -/
theorem engineMove_alike {s t : State} (h : Alike s t) : Matches Alike (engineMove s s.seq) (engineMove t t.seq) := by
  obtain ⟨same, W, agree, live⟩ := id h
  obtain ⟨place, outside⟩ := id same
  obtain ⟨status, inp, out, host⟩ := id outside
  rw [← place]
  cases hq : s.seq with rw [hq] at live
  | idle => exact matches_next h
  | countClear y => exact matches_next (alike_countClear same live)
  | count =>
    exact matches_readField inp (fun _ _ => ⟨⟨rfl, status, rfl, out, host⟩, W, agree, live⟩)
      fun _ => ⟨⟨rfl, status, rfl, out, host⟩, W, agree, live.1⟩
  | countByte b => exact matches_next (alike_countByte same live.1 live.2)
  | countEnd => exact matches_next ⟨⟨rfl, outside⟩, W, agree,
    congrArg (fun freq : Vector Weight Config.alph => freq.set sentinelSym 1) live⟩
  | buildClear => exact matches_next ⟨⟨rfl, outside⟩, W, agree, live, rfl, rfl, nofun⟩
  | buildLeaf y => exact matches_next (alike_buildLeaf same agree live)
  | buildInsert y => exact matches_next (alike_buildInsert same agree live.1 live.2)
  | merge => exact alike_merge same agree live
  | mergeSecond a => exact alike_mergeSecond same agree live.1 live.2
  | mergeNode a b =>
    obtain ⟨queue, ha, hb⟩ := live
    exact alike_mergeNode same agree queue ha hb
  | mergeInsert i => exact matches_next (alike_mergeInsert same agree live.1 live.2)
  | codesClear y => exact matches_next (alike_codesClear same agree live.1 live.2)
  | codesStart => exact matches_next (alike_codesStart same agree live)
  | codesNode i p =>
    obtain ⟨codes, walk, hi⟩ := live
    exact matches_next (alike_codesNode same agree codes walk hi)
  | codesPop =>
    obtain ⟨codes, walk⟩ := live
    exact matches_next (alike_popWalk same agree walk (fun e k he hk => ⟨codes, ⟨rfl, hk⟩, he⟩) codes)
  | magicWrite =>
    exact matches_next ⟨⟨rfl, status, inp, congrArg (OutPort.writeBits _) out, host⟩, W, agree, live⟩
  | headerStart =>
    obtain ⟨root, inside, codes⟩ := id live
    exact matches_next ⟨⟨congrArg Seq.headerNode root, outside⟩, W, agree, live, ⟨rfl, nofun⟩, inside⟩
  | headerNode i => exact matches_next (alike_headerNode same agree live)
  | headerPush i =>
    obtain ⟨codes, walk, hi⟩ := live
    exact alike_headerPush same agree codes walk hi
  | headerSym i =>
    obtain ⟨codes, walk, hi⟩ := live
    dsimp only [engineMove]
    rw [← (agree i hi).1]
    split
    · exact matches_next
        ⟨⟨rfl, status, inp, congrArg (OutPort.writeBits _) out, host⟩, W, agree, codes, walk⟩
    · exact matches_refused
  | headerPop =>
    obtain ⟨codes, walk⟩ := live
    exact matches_next (alike_popWalk same agree walk (fun e k he hk => ⟨codes, ⟨rfl, hk⟩, he⟩) codes.2.2)
  | rewind => exact matches_next ⟨⟨rfl, status, congrArg InPort.rewind inp, out, host⟩, W, agree, live⟩
  | encodeRead =>
    exact matches_readField inp (fun _ _ => ⟨⟨rfl, status, rfl, out, host⟩, W, agree, live⟩)
      fun _ => ⟨⟨rfl, status, rfl, out, host⟩, W, agree, live⟩
  | encodeByte b =>
    refine matches_next ?_
    have live' : s.codes = t.codes := live
    simp only [encodeByte, ← live']
    split
    · exact ⟨⟨rfl, outside⟩, W, agree, rfl⟩
    · exact ⟨⟨rfl, outside⟩, W, agree, trivial⟩
  | encodeWrite b =>
    have live' : s.codes = t.codes := live
    exact matches_next ⟨⟨rfl, status, inp, by simp only [encodeWrite, live', out], host⟩, W, agree, live⟩
  | sentinel =>
    have live' : s.codes = t.codes := live
    exact matches_next ⟨⟨rfl, status, inp, by simp only [writeSentinel, live', out], host⟩, W, agree, trivial⟩
  | magicRead =>
    exact matches_readField inp (fun _ _ => ⟨⟨rfl, status, rfl, out, host⟩, W, agree, trivial⟩)
      fun _ => ⟨⟨rfl, status, rfl, out, host⟩, W, agree, trivial⟩
  | magicField m =>
    refine matches_next ?_
    split <;> exact ⟨⟨rfl, outside⟩, W, agree, trivial⟩
  | treeClear => exact matches_next ⟨⟨rfl, outside⟩, W, agree, rfl, rfl, rfl, nofun⟩
  | treeTag =>
    exact matches_readField inp (fun _ _ => ⟨⟨rfl, status, rfl, out, host⟩, W, agree, live⟩)
      fun _ => ⟨⟨rfl, status, rfl, out, host⟩, W, agree, trivial⟩
  | treeBit b =>
    obtain ⟨next, rest⟩ := live
    cases b with
    | false =>
      dsimp only [engineMove]
      refine matches_allocNode next fun i => matches_next (alike_desInternal (W := W) same agree ⟨?_, rest⟩)
      simp only [next]
    | true =>
      dsimp only [engineMove]
      refine matches_allocNode next fun i => matches_next ⟨⟨rfl, outside⟩, W, agree, ?_, rest⟩
      simp only [next]
  | treeSym i =>
    exact matches_readField inp (fun _ _ => ⟨⟨rfl, status, rfl, out, host⟩, W, agree, live⟩)
      fun _ => ⟨⟨rfl, status, rfl, out, host⟩, W, agree, trivial⟩
  | treeLeaf i v =>
    refine matches_next ?_
    cases symOfField v with
    | none => exact ⟨⟨rfl, outside⟩, W, agree, trivial⟩
    | some y => exact alike_desLeaf same agree live
  | treeReturn j => exact matches_next (alike_treeReturn same agree live.1 live.2)
  | treeBuild i l r =>
    obtain ⟨header, hl, hr⟩ := live
    exact matches_next (alike_treeBuild same agree header hl hr)
  | decodeBit =>
    have dstate : s.dstate = t.dstate := live.2.2.2
    dsimp only [engineMove]
    rw [← dstate]
    split
    · exact matches_next ⟨⟨rfl, outside⟩, W, agree, trivial⟩
    · exact matches_readField inp (fun _ _ => ⟨⟨rfl, status, rfl, out, host⟩, W, agree, live⟩)
        fun _ => ⟨⟨rfl, status, rfl, out, host⟩, W, agree, trivial⟩
  | decodeStep b =>
    obtain ⟨root, cursor⟩ := live
    obtain ⟨moves, inside⟩ := nextCur_alike (b := b) agree root cursor
    have dstate : s.dstate = t.dstate := cursor.2.2
    dsimp only [engineMove]
    rw [← dstate, ← moves]
    split
    · exact matches_refused
    · cases hc : nextCur b s with
      | none => exact matches_fault
      | some c => exact matches_next (alike_arrive same agree root (inside c hc))
  | decodeEmit b =>
    exact matches_next ⟨⟨rfl, status, inp, congrArg (OutPort.writeBits _) out, host⟩, W, agree, live⟩
  | decodeReset =>
    obtain ⟨root, inside⟩ := id live
    exact matches_next ⟨⟨rfl, outside⟩, W, agree, live, root, inside, rfl⟩
  | close e => exact matches_next ⟨⟨rfl, status, inp, congrArg OutPort.close out, host⟩, W, agree, trivial⟩
  | finish e => exact matches_next ⟨⟨rfl, congrArg (Status.ended e) status, inp, out, host⟩, W, agree, trivial⟩

/-! ## HOST steps -/

/-- `u` with everything that the outside can see taken from `s`. -/
def State.over (s u : State) : State :=
  { u with seq := s.seq, status := s.status, inp := s.inp, out := s.out, host := s.host }

theorem over_eq_of_sameOutside {s t : State} (h : sameOutside s t) : s.over t = t := by
  obtain ⟨seq, status, inp, out, host⟩ := h
  simp only [State.over, seq, status, inp, out, host]

theorem alike_acceptCommand {s t : State} (op : BitVec 2) {q : Seq} (same : sameOutside s t)
    (start : ∀ s t, Live ∅ s t q) : Alike (acceptCommand op q s) (acceptCommand op q t) := by
  obtain ⟨-, status, inp, out, host⟩ := same
  exact ⟨⟨rfl, congrArg (Status.accept op) status, congrArg InPort.restart inp, rfl, host⟩, ∅, agree_empty _ _,
    start _ _⟩

theorem alike_illegalCommand {s t : State} (op : BitVec 2) (h : Alike s t) :
    Alike (illegalCommand op s) (illegalCommand op t) := by
  obtain ⟨⟨place, status, ports⟩, tables⟩ := h
  exact ⟨⟨place, congrArg (Status.illegal op) status, ports⟩, tables⟩

theorem alike_whenIdle {f : State → State} {s t : State} (h : Alike s t) (hf : Alike (f s) (f t)) :
    Matches Alike (whenIdle f s) (whenIdle f t) := by
  have status := h.outside.2.1
  unfold whenIdle
  rw [← status]
  split
  · exact matches_next h
  · exact matches_next hf

/-- A command word does the same to states alike. -/
theorem exec_decodeCmd_alike {s t : State} (w : Word) (h : Alike s t) :
    Matches Alike (exec (decodeCmd w) s) (exec (decodeCmd w) t) := by
  unfold decodeCmd
  split
  · exact alike_whenIdle h (alike_illegalCommand _ h)
  split
  · exact matches_next h
  split
  · exact alike_whenIdle h (alike_acceptCommand 1 h.outside fun _ _ _ hz => absurd hz (Nat.not_lt_zero _))
  split
  · exact alike_whenIdle h (alike_acceptCommand 2 h.outside fun _ _ => trivial)
  · exact alike_whenIdle h (alike_illegalCommand _ h)

theorem regWrite_alike {s t : State} (r : Reg) (v : Word) (h : Alike s t) :
    Matches Alike (regWrite r v s).outcome (regWrite r v t).outcome := by
  cases r with
  | cmd => exact exec_decodeCmd_alike v h
  | _ => exact matches_next h

theorem alike_dropAction {s t : State} (rest : List HostAction) (h : Alike s t) :
    Alike (dropAction rest s) (dropAction rest t) := by
  obtain ⟨⟨place, status, inp, out, host⟩, tables⟩ := h
  exact ⟨⟨place, status, inp, out, by simp only [dropAction_host, host]⟩, tables⟩

theorem matches_ite {R : State → State → Prop} {c d : Prop} [Decidable c] [Decidable d] {o o' p p' : Fetched}
    (same : c ↔ d) (yes : Matches R o.outcome p.outcome) (no : Matches R o'.outcome p'.outcome) :
    Matches R (if c then o else o').outcome (if d then p else p').outcome := by
  by_cases h : c
  · rwa [if_pos h, if_pos (same.mp h)]
  · rwa [if_neg h, if_neg (mt same.mpr h)]

/-- The HOST reads only what the outside can see. -/
theorem hostAct_alike {s u : State} (a : HostAction) (rest : List HostAction) (h : Alike s (s.over u)) :
    Matches Alike (hostAct a rest s).outcome (hostAct a rest (s.over u)).outcome := by
  obtain ⟨-, tables⟩ := id h
  have drop := alike_dropAction rest h
  cases a with
  | write r v => exact regWrite_alike r v drop
  | read r => cases r <;> exact matches_next ⟨⟨rfl, rfl, rfl, rfl, rfl⟩, tables⟩
  | busWrite addr bytes v =>
    dsimp only [hostAct]
    split
    · exact matches_refused
    · exact regWrite_alike _ v drop
  | busRead addr bytes =>
    dsimp only [hostAct]
    split
    · exact matches_refused
    next r _ => cases r <;> exact matches_next ⟨⟨rfl, rfl, rfl, rfl, rfl⟩, tables⟩
  | connectIn b b2 =>
    dsimp only [hostAct]
    exact matches_ite Iff.rfl matches_refused (matches_next ⟨⟨rfl, rfl, rfl, rfl, rfl⟩, tables⟩)
  | connectOut =>
    dsimp only [hostAct]
    exact matches_ite Iff.rfl matches_refused (matches_next ⟨⟨rfl, rfl, rfl, rfl, rfl⟩, tables⟩)
  | takeOut =>
    dsimp only [hostAct]
    exact matches_ite Iff.rfl (matches_next ⟨⟨rfl, rfl, rfl, rfl, rfl⟩, tables⟩) matches_refused
  | wait =>
    dsimp only [hostAct, State.over]
    split <;> exact matches_next ⟨⟨rfl, rfl, rfl, rfl, rfl⟩, tables⟩
  | reset => exact matches_next ⟨⟨rfl, rfl, rfl, rfl, rfl⟩, ∅, agree_empty _ _, trivial⟩

theorem hostFetch_alike {s u : State} (h : Alike s (s.over u)) :
    Matches Alike (hostFetch s).outcome (hostFetch (s.over u)).outcome := by
  unfold hostFetch
  dsimp only [State.over]
  split
  · exact matches_next h
  · exact hostAct_alike _ _ h

/-! ## Steps and runs -/

theorem takeTurn_over (s u : State) : takeTurn (s.over u) = ((takeTurn s).1, (takeTurn s).2.over u) := by
  unfold takeTurn
  dsimp only [State.over]
  split <;> rfl

theorem alike_withHost {s t : State} (k : HostState) (h : Alike s t) :
    Alike { s with host := k } { t with host := k } := by
  obtain ⟨⟨place, status, inp, out, -⟩, tables⟩ := h
  exact ⟨⟨place, status, inp, out, rfl⟩, tables⟩

/-- States alike take steps alike. -/
theorem step_alike {s t : State} (h : Alike s t) : Matches Alike (step s) (step t) := by
  have eq := over_eq_of_sameOutside h.outside
  rw [← eq] at h ⊢
  have turn := takeTurn_over s t
  have taken : Alike (takeTurn s).2 ((takeTurn s).2.over t) := by
    rw [takeTurn_snd]
    exact alike_withHost _ h
  obtain he | hh := engineTurn_or_hostTurn s
  · have he' : engineTurn (s.over t) := by rw [engineTurn, turn]; exact he
    rw [step_engine he, step_engine he', turn, engineFetch_outcome, engineFetch_outcome]
    exact engineMove_alike taken
  · have hh' : hostTurn (s.over t) := by rw [hostTurn, turn]; exact hh
    rw [step_host hh, step_host hh', turn]
    exact hostFetch_alike taken

/-- A run from one of two states alike is followed from the other. -/
theorem Reaches.alike {s s' : State} (r : Reaches s s') : ∀ {t : State}, Alike s t → ∃ t', Reaches t t' ∧ Alike s' t' := by
  induction r with
  | refl s => exact fun {t} h => ⟨t, .refl t, h⟩
  | step hs _ ih =>
    intro t h
    obtain ⟨u, hu, hu'⟩ := step_alike h _ hs
    obtain ⟨t', run, alike⟩ := ih hu'
    exact ⟨t', .step hu run, alike⟩

/-- Settles O44: idle states alike outside are `Alike`, which every step keeps. -/
theorem internalTablesCannotBeObserved : Obligations.InternalTablesCannotBeObserved := by
  intro s t s' idle same run
  obtain ⟨t', run', alike⟩ := run.alike (alike_of_idle idle same)
  exact ⟨t', run', alike.outside⟩

end Sys2Proof.Machine
end


section
/-! SUPPORT. The ports (20_memory.md R31 to R50): what a read of IN and the bytes of OUT are, the one port event an
ENGINE step can make, what the HOST can do to a port, and the statements about them. -/

namespace Sys2Proof.Machine

/-! ## Fields and bytes -/

/-- Settles O6: the field read is the next `n` bits, of which `bitsOf` is the inverse of `fieldOf`. -/
theorem readBitsTakesTheNextFieldOrAnswersEof : Obligations.ReadBitsTakesTheNextFieldOrAnswersEof := by
  intro n p
  obtain ⟨enough, value⟩ | ⟨short, eof⟩ := readBits_cases n p
  · refine .inl ⟨enough, _, value, bitsOf_fieldOf _ ?_⟩
    rw [List.length_take, InPort.remaining, List.length_drop]
    omega
  · exact .inr ⟨short, eof⟩

theorem bytesOf_of_length_lt {p : Bits} (h : p.length < 8) : bytesOf p = [] := by
  unfold bytesOf
  split
  · simp only [List.length_cons] at h
    omega
  · rfl

theorem bytesOf_of_le_length {p : Bits} (h : 8 ≤ p.length) :
    bytesOf p = fieldOf 8 (p.take 8) :: bytesOf (p.drop 8) := by
  have front : bitsOf (fieldOf 8 (p.take 8)) ++ p.drop 8 = p := by
    rw [bitsOf_fieldOf _ (List.length_take_of_le h), List.take_append_drop]
  rw [← bytesOf_bitsOf_append, front]

theorem length_bytesOf (p : Bits) : (bytesOf p).length = p.length / 8 := by
  obtain h | h := Nat.lt_or_ge p.length 8
  · rw [bytesOf_of_length_lt h, Nat.div_eq_of_lt h, List.length_nil]
  · rw [bytesOf_of_le_length h, List.length_cons, length_bytesOf (p.drop 8), List.length_drop]
    omega
termination_by p.length
decreasing_by rw [List.length_drop]; omega

theorem bitsOf_getElem_bytesOf (p : Bits) (k : Nat) (hk : k < (bytesOf p).length) :
    bitsOf (bytesOf p)[k] = (p.drop (8 * k)).take 8 := by
  have whole : 8 ≤ p.length := by
    rw [length_bytesOf] at hk
    omega
  induction k generalizing p with
  | zero =>
    simp only [bytesOf_of_le_length whole, List.getElem_cons_zero]
    exact bitsOf_fieldOf _ (List.length_take_of_le whole)
  | succ k ih =>
    have hk' : k < (bytesOf (p.drop 8)).length := by
      rw [length_bytesOf] at hk ⊢
      rw [List.length_drop]
      omega
    have whole' : 8 ≤ (p.drop 8).length := by
      rw [length_bytesOf] at hk'
      omega
    simp only [bytesOf_of_le_length whole, List.getElem_cons_succ]
    rw [ih _ hk' whole', List.drop_drop, Nat.mul_succ, Nat.add_comm]

/-- Settles O8: OUT's bytes are cut off its front eight bits at a time. -/
theorem hostReceivesByteKFromBitsEightK : Obligations.HostReceivesByteKFromBitsEightK := fun o =>
  ⟨length_bytesOf o.bits, bitsOf_getElem_bytesOf o.bits⟩

/-! ## The port event of an ENGINE step -/

/-- The one port event an ENGINE step from `s` makes, or none (R35 to R40, R130). An event changes nothing but its port
and the ENGINE's place. -/
inductive PortEvent (s : State) : State → Prop where
  | none {t : State} (inp : t.inp = s.inp) (out : t.out = s.out) : PortEvent s t
  | read (n : Nat) (width : n ∈ [1, 8, 9, 32]) (p : InPort) (q : Seq)
      (answer : (∃ v, s.inp.readBits n = .value v p) ∨ s.inp.readBits n = .eof p) :
      PortEvent s { s with inp := p, seq := q }
  | rewind (place : s.seq = .rewind) : PortEvent s (rewindInput s)
  | write (p : Bits) (q : Seq) : PortEvent s { s with out := s.out.append p, seq := q }
  | close (e : ErrCode) : PortEvent s (closeOut e s)

theorem portEvent_readField {n : Nat} {hold : BitVec n → Seq} {eof : State → State} {s : State} (q : Seq)
    (width : n ∈ [1, 8, 9, 32]) (ended : ∀ s', eof s' = { s' with seq := q }) :
    Answers (PortEvent s) (readField n hold eof s).outcome := by
  unfold readField
  split
  next v p h => exact answers_next.mpr (.read n width p _ (.inl ⟨v, h⟩))
  next p h =>
    rw [ended]
    exact answers_next.mpr (.read n width p q (.inr h))

theorem portEvent_buildNext (y : Sym) {s t : State} (inp : t.inp = s.inp) (out : t.out = s.out) :
    PortEvent s (buildNext y t) := by
  unfold buildNext
  split <;> exact .none inp out

theorem portEvent_popWalk (visit : WalkEntry → Seq) (q : Seq) (s : State) : PortEvent s (popWalk visit q s) := by
  obtain ⟨-, h⟩ | ⟨e, rest, -, h⟩ := popWalk_cases visit q s <;> rw [h] <;> exact .none rfl rfl

theorem portEvent_arrive (c : NodeIdx) (s : State) : PortEvent s (arrive c s) := by
  unfold arrive
  split
  · split <;> exact .none rfl rfl
  · exact .none rfl rfl

/-- Every ENGINE step makes at most one port event, and rewinds IN only at REWIND. -/
theorem engineMove_portEvent (s : State) : Answers (PortEvent s) (engineMove s s.seq) := by
  cases place : s.seq with
  | count => exact portEvent_readField .countEnd (by decide) fun _ => rfl
  | encodeRead => exact portEvent_readField .sentinel (by decide) fun _ => rfl
  | magicRead => exact portEvent_readField (.close .badMagic) (by decide) fun _ => rfl
  | treeTag => exact portEvent_readField (.close .malformedHeader) (by decide) fun _ => rfl
  | treeSym i => exact portEvent_readField (.close .malformedHeader) (by decide) fun _ => rfl
  | decodeBit =>
    dsimp only [engineMove]
    split
    · exact answers_next.mpr (.none rfl rfl)
    · exact portEvent_readField (.close .truncatedStream) (by decide) fun _ => rfl
  | rewind => exact answers_next.mpr (.rewind place)
  | magicWrite => exact answers_next.mpr (.write _ _)
  | headerNode i =>
    refine answers_next.mpr ?_
    split <;> exact .write _ _
  | headerSym i =>
    dsimp only [engineMove]
    split
    · exact answers_next.mpr (.write _ _)
    · exact answers_refused
  | encodeWrite b => exact answers_next.mpr (.write _ _)
  | sentinel => exact answers_next.mpr (.write _ _)
  | decodeEmit b => exact answers_next.mpr (.write _ _)
  | close e => exact answers_next.mpr (.close e)
  | countClear y =>
    refine answers_next.mpr ?_
    unfold countClear
    cases nextSym y <;> exact .none rfl rfl
  | countByte b =>
    refine answers_next.mpr ?_
    unfold countByte
    dsimp only
    split <;> exact .none rfl rfl
  | buildLeaf y =>
    refine answers_next.mpr ?_
    unfold buildLeaf
    split
    · exact .none rfl rfl
    · exact portEvent_buildNext y rfl rfl
  | buildInsert y => exact answers_next.mpr (portEvent_buildNext y rfl rfl)
  | merge =>
    dsimp only [engineMove, merge]
    refine answers_takeMin fun a q _ => ?_
    cases q <;> exact .none rfl rfl
  | mergeSecond a =>
    dsimp only [engineMove, mergeSecond]
    exact answers_takeMin fun _ _ _ => .none rfl rfl
  | mergeNode a b =>
    simp only [engineMove, mergeNode]
    split
    · exact answers_fault
    · exact answers_next.mpr (.none rfl rfl)
  | codesClear y =>
    refine answers_next.mpr ?_
    unfold codesClear
    cases nextSym y <;> exact .none rfl rfl
  | codesStart =>
    refine answers_next.mpr ?_
    unfold codesStart
    split <;> exact .none rfl rfl
  | codesNode i p =>
    refine answers_next.mpr ?_
    unfold codesNode
    split <;> exact .none rfl rfl
  | codesPop => exact answers_next.mpr (portEvent_popWalk _ _ s)
  | headerPush i =>
    simp only [engineMove, headerPush]
    split
    · exact answers_fault
    · exact answers_next.mpr (.none rfl rfl)
  | headerPop => exact answers_next.mpr (portEvent_popWalk _ _ s)
  | encodeByte b =>
    refine answers_next.mpr ?_
    unfold encodeByte
    split <;> exact .none rfl rfl
  | magicField m =>
    refine answers_next.mpr ?_
    split <;> exact .none rfl rfl
  | treeBit t =>
    cases t with
    | false =>
      dsimp only [engineMove]
      refine answers_allocNode fun i _ => answers_next.mpr ?_
      unfold desInternal
      dsimp only
      split <;> exact .none rfl rfl
    | true =>
      dsimp only [engineMove]
      exact answers_allocNode fun i _ => answers_next.mpr (.none rfl rfl)
  | treeLeaf i v =>
    refine answers_next.mpr ?_
    cases symOfField v <;> exact .none rfl rfl
  | treeReturn j =>
    refine answers_next.mpr ?_
    unfold treeReturn
    split
    · exact .none rfl rfl
    · split <;> exact .none rfl rfl
  | decodeStep t =>
    dsimp only [engineMove]
    split
    · exact answers_refused
    · cases nextCur t s with
      | none => exact answers_fault
      | some c => exact answers_next.mpr (portEvent_arrive c s)
  | _ => exact answers_next.mpr (.none rfl rfl)

/-- A port event writes OUT at its end only (R38 to R40). -/
theorem PortEvent.outEvent {s t : State} (h : PortEvent s t) : outEvent s.out t.out := by
  cases h with
  | none inp out => exact .inl out
  | read n width p q answer => exact .inl rfl
  | rewind place => exact .inl rfl
  | write p q => exact .inr (.inr ⟨p, rfl⟩)
  | close e => exact .inr (.inl rfl)

theorem bits_prefix_of_outEvent {o u : OutPort} (h : outEvent o u) : o.bits <+: u.bits := by
  obtain rfl | rfl | ⟨p, rfl⟩ := h
  · exact List.prefix_refl _
  · exact List.prefix_append _ _
  · exact List.prefix_append _ _

/-- A read moves the position only. -/
theorem rewound_of_readBits {n : Nat} {p p' : InPort}
    (h : (∃ v, p.readBits n = .value v p') ∨ p.readBits n = .eof p') : p'.rewound = p.rewound := by
  obtain ⟨-, value⟩ | ⟨-, eof⟩ := readBits_cases n p
  · rw [value] at h
    obtain ⟨v, h⟩ | h := h <;> cases h
    rfl
  · rw [eof] at h
    obtain ⟨v, h⟩ | h := h <;> cases h
    rfl

/-- Only REWIND changes the sequence that IN supplies (R36). -/
theorem PortEvent.rewound {s t : State} (h : PortEvent s t) :
    t.inp.rewound = s.inp.rewound ∨ s.seq = .rewind ∧ t.seq = .encodeRead := by
  cases h with
  | none inp out => exact .inl (congrArg _ inp)
  | read n width p q answer => exact .inl (rewound_of_readBits answer)
  | rewind place => exact .inr ⟨place, rfl⟩
  | write p q => exact .inl rfl
  | close e => exact .inl rfl

/-! ## The ENGINE at the ports -/

/-- The ENGINE's turn: its move at its place, where only the HOST's list of turns is another. -/
theorem step_engineMove {s : State} (h : engineTurn s) :
    ∃ k : HostState, (takeTurn s).2 = { s with host := k } ∧ step s = engineMove { s with host := k } s.seq := by
  refine ⟨_, takeTurn_snd s, ?_⟩
  rw [step_engine h, engineFetch_outcome, takeTurn_snd]

theorem portEvent_of_step {s t : State} (he : engineTurn s) (h : step s = .next t) :
    ∃ k : HostState, PortEvent { s with host := k } t := by
  obtain ⟨k, -, move⟩ := step_engineMove he
  exact ⟨k, engineMove_portEvent { s with host := k } t (move ▸ h)⟩

/-- With OUT ended the ENGINE stands in IDLE or before the STATUS write, and neither step writes OUT. -/
theorem PortsOk.out_of_closed {s t : State} (ports : PortsOk s) (closed : s.out.closed = true)
    (move : engineMove s s.seq = .next t) : t.out = s.out := by
  obtain ⟨-, -, ended, -⟩ := ports
  obtain place | ⟨e, place⟩ := ended closed <;> rw [place] at move <;> cases move <;> rfl

/-- Settles O7: `padLen` is the padding, and under the invariant no place with OUT ended writes. -/
theorem closeBringsOutToWholeBytesAndEndsIt : Obligations.CloseBringsOutToWholeBytesAndEndsIt := by
  refine ⟨fun o => ⟨_, padLen_lt _, padLen_spec _, rfl⟩, fun s t inv he closed h => ?_⟩
  obtain ⟨-, ports, -⟩ := inv_iff.mp inv
  obtain ⟨k, -, move⟩ := step_engineMove he
  exact PortsOk.out_of_closed (s := { s with host := k }) ports closed (move ▸ h)

/-- Settles O9: every port event leaves OUT's old bits in front, and a command accepted starts on an empty OUT. -/
theorem engineOnlyAppendsToOut : Obligations.EngineOnlyAppendsToOut := by
  constructor
  · intro s t he h
    obtain ⟨k, event⟩ := portEvent_of_step he h
    exact bits_prefix_of_outEvent event.outEvent
  · intro s t idle h
    have accepted (op : BitVec 2) (q : Seq) (h : whenIdle (acceptCommand op q) s = .next t) : t.out.bits = [] := by
      rw [whenIdle_of_idle idle] at h
      cases h
      rfl
    exact h.elim (accepted _ _) (accepted _ _)

/-- Settles O12: REWIND's step is `rewindInput`, and no other port event changes the sequence supplied. -/
theorem rewindStartsTheSecondPassOnlyInCRewind : Obligations.RewindStartsTheSecondPassOnlyInCRewind := by
  constructor
  · intro s he place
    obtain ⟨k, turn, move⟩ := step_engineMove he
    rw [move, turn, place]
    rfl
  · intro s t he h changed
    obtain ⟨k, event⟩ := portEvent_of_step he h
    obtain same | ⟨before, after⟩ : _ ∨ s.seq = .rewind ∧ _ := event.rewound
    · exact absurd same changed
    · rw [before, after]
      exact ⟨rfl, rfl⟩

/-- A field longer than what remains of IN is answered with EOF (R35). -/
theorem readField_of_short {n : Nat} {hold : BitVec n → Seq} {eof : State → State} {s : State}
    (short : s.inp.remaining.length < n) :
    (readField n hold eof s).outcome = .next (eof { s with inp := { s.inp with pos := s.inp.bits.length } }) := by
  have : s.inp.bits.length < s.inp.pos + n := by
    rw [InPort.remaining, List.length_drop] at short
    omega
  rw [readField, readBits_of_lt this]
  rfl

/-- Settles O32: at each place that reads, a field that IN cannot supply gets the place's meaning of EOF. -/
theorem endOfInputMeansWhatEachPhaseSays : Obligations.EndOfInputMeansWhatEachPhaseSays := by
  intro s he
  obtain ⟨k, turn, move⟩ := step_engineMove he
  rw [move, turn]
  refine ⟨?magic, ?tag, ?symbol, ?payload, ?count, ?countEnd, ?encode⟩
  case magic => intro place short; rw [place]; exact readField_of_short short
  case tag => intro place short; rw [place]; exact readField_of_short short
  case symbol => intro i place short; rw [place]; exact readField_of_short short
  case payload =>
    intro place reading short
    rw [place]
    exact (if_neg reading).trans (readField_of_short short)
  case count => intro place short; rw [place]; exact readField_of_short short
  case countEnd => intro place; rw [place]; rfl
  case encode => intro place short; rw [place]; exact readField_of_short short

/-! ## The HOST at the ports -/

/-- The HOST's turn: one of its moves. -/
theorem hostMove_of_step {s t : State} (hh : hostTurn s) (h : step s = .next t) : HostMove s t := by
  rw [step_host hh] at h
  have move := hostFetch_hostMove _ t h
  rw [takeTurn_snd] at move
  exact HostMove.of_host (k := { s.host with turns := (takeTurn s).2.host.turns }) rfl move

/-- Settles O40: every move of the HOST but a quiet one and RESET asks for BUSY = 0. -/
theorem hostCannotDisturbARunningCommand : Obligations.HostCannotDisturbARunningCommand := by
  intro s t busy hh noReset h
  have running : s.status.busy ≠ false := by simp [busy]
  cases hostMove_of_step hh h with
  | quiet k => rfl
  | accept k op q idle legal => exact absurd idle running
  | illegal k op idle => exact absurd idle running
  | connectIn k p idle start => exact absurd idle running
  | connectOut k idle => exact absurd idle running
  | reset k asked =>
    obtain ⟨rest, hp⟩ := asked
    exact absurd hp (noReset rest)

/-- A command accepted while idle in the step from `s` to `t`, with the streams as R32 has them (log 9). -/
def Started (s t : State) : Prop :=
  s.status.busy = false ∧ t.status.busy = true ∧ (t.seq = .countClear 0 ∨ t.seq = .magicRead) ∧
    t.inp = { s.inp with pos := 0, rewound := false } ∧ t.out = { bits := [], closed := false }

/-- The ports are as they were, or a command started on them. -/
def PortsKeptOrStarted (s t : State) : Prop := (t.inp = s.inp ∧ t.out = s.out) ∨ Started s t

/-- A register write touches the ports only by the command it starts. -/
theorem regWrite_ports (r : Reg) (v : Word) (rest : List HostAction) (s : State) :
    Answers (PortsKeptOrStarted s) (regWrite r v (dropAction rest s)).outcome := by
  cases r with
  | cmd =>
    show Answers _ (exec (decodeCmd v) (dropAction rest s))
    obtain h | ⟨idle, h | h | ⟨op, h⟩⟩ := exec_decodeCmd_cases v (dropAction rest s)
    · rw [h]; exact answers_next.mpr (.inl ⟨rfl, rfl⟩)
    · rw [h]; exact answers_next.mpr (.inr ⟨idle, rfl, .inl rfl, rfl, rfl⟩)
    · rw [h]; exact answers_next.mpr (.inr ⟨idle, rfl, .inr rfl, rfl, rfl⟩)
    · rw [h]; exact answers_next.mpr (.inl ⟨rfl, rfl⟩)
  | _ => exact answers_next.mpr (.inl ⟨rfl, rfl⟩)

/-- Everything an action of the HOST can do to the ports: connect the one it names, or start a command. -/
def ActionAtPorts (a : HostAction) (s t : State) : Prop :=
  PortsKeptOrStarted s t ∨ (∃ b b2, a = .connectIn b b2 ∧ t.out = s.out) ∨ (a = .connectOut ∧ t.inp = s.inp)

theorem hostAct_ports (a : HostAction) (rest : List HostAction) (s : State) :
    Answers (ActionAtPorts a s) (hostAct a rest s).outcome := by
  unfold hostAct
  cases a with
  | write r v => exact fun t h => .inl (regWrite_ports r v rest s t h)
  | busWrite addr bytes v =>
    dsimp only
    split
    · exact answers_refused
    · exact fun t h => .inl (regWrite_ports _ v rest s t h)
  | read r => exact answers_next.mpr (.inl (.inl ⟨rfl, rfl⟩))
  | busRead addr bytes =>
    dsimp only
    split
    · exact answers_refused
    · exact answers_next.mpr (.inl (.inl ⟨rfl, rfl⟩))
  | connectIn b b2 =>
    dsimp only
    split
    · exact answers_refused
    · exact answers_next.mpr (.inr (.inl ⟨b, b2, rfl, rfl⟩))
  | connectOut =>
    dsimp only
    split
    · exact answers_refused
    · exact answers_next.mpr (.inr (.inr ⟨rfl, rfl⟩))
  | takeOut =>
    dsimp only
    split
    · exact answers_next.mpr (.inl (.inl ⟨rfl, rfl⟩))
    · exact answers_refused
  | wait =>
    dsimp only
    split <;> exact answers_next.mpr (.inl (.inl ⟨rfl, rfl⟩))
  | reset => exact answers_next.mpr (.inl (.inl ⟨rfl, rfl⟩))

/-- Settles O11: a HOST with no action left does nothing, and an action does at the ports what `hostAct_ports` says. -/
theorem hostStepTouchesNoPortButToConnectOrStart : Obligations.HostStepTouchesNoPortButToConnectOrStart := by
  intro s t hh h
  rw [step_host hh, takeTurn_snd] at h
  cases hp : s.host.program with
  | nil =>
    simp only [hostFetch, hp, outcome_done] at h
    cases h
    exact .inl ⟨rfl, rfl⟩
  | cons a rest =>
    simp only [hostFetch, hp] at h
    obtain (kept | started) | connected | connected := hostAct_ports a rest _ t h
    · exact .inl kept
    · exact .inr ⟨a, rest, rfl, .inr (.inr started)⟩
    · exact .inr ⟨a, rest, rfl, .inl connected⟩
    · exact .inr ⟨a, rest, rfl, .inr (.inl connected)⟩

/-! ## The end of a command -/

/-- The ENGINE sets DONE only where it ends the command, and OUT, ended before, stays. -/
theorem PortsOk.done_engine {s t : State} (ports : PortsOk s) (move : engineMove s s.seq = .next t)
    (before : s.status.done = false) (after : t.status.done = true) :
    ∃ e, s.seq = .finish e ∧ t.out = s.out ∧ t.out.closed = true := by
  obtain same | ⟨e, place, -⟩ := engineMove_status move
  · rw [same, before] at after
    cases after
  · obtain ⟨-, -, -, finished⟩ := id ports
    have out := ports.out_of_closed (finished e place) move
    exact ⟨e, place, out, out ▸ finished e place⟩

/-- The HOST sets DONE only by an illegal command, written while idle. -/
theorem HostMove.done {s t : State} (status : StatusOk s) (move : HostMove s t)
    (before : s.status.done = false) (after : t.status.done = true) :
    t.status.errCode = .illegalCommand ∧ t.seq = .idle ∧ t.out = s.out := by
  have unchanged : t.status ≠ s.status := fun same => by simp [same, before] at after
  cases move with
  | quiet k => exact absurd rfl unchanged
  | accept k op q idle legal => cases after
  | illegal k op idle => exact ⟨rfl, status.idle idle, rfl⟩
  | connectIn k p idle start => exact absurd rfl unchanged
  | connectOut k idle => exact absurd rfl unchanged
  | reset k asked => cases after

/-- Settles O20: of the ENGINE's moves only the end of a command sets DONE, of the HOST's only an illegal command. -/
theorem doneComesOnlyAfterClose : Obligations.DoneComesOnlyAfterClose := by
  intro s t inv h before after
  obtain ⟨status, ports, -⟩ := inv_iff.mp inv
  obtain ⟨k, move⟩ | move := step_cases h
  · exact .inl (PortsOk.done_engine (s := { s with host := k }) ports move before after)
  · exact .inr (move.done status before after)

end Sys2Proof.Machine
end


section
/-! SUPPORT. The encodings (30_encoding.md R53 to R62): what the decoder answers at a field, at a command word and at a
leaf's symbol, the length of a header, tokens out of place, the HOST's assembly, and the statements about them. -/

namespace Sys2Proof

/-! ## Fields -/

/-- A decoder that reads a field answers a token exactly where the field's bits stand in front. -/
theorem decodeField_eq_token {c : Ctx} {n : Nat} {f : BitVec n → Instr} {p rest : Bits} {i : Instr} :
    decodeField c n f p = .token i rest ↔ ∃ v, f v = i ∧ p = bitsOf v ++ rest := by
  constructor
  · intro h
    unfold decodeField at h
    split at h
    next long =>
      cases h
      exact ⟨_, rfl, by rw [bitsOf_fieldOf _ (List.length_take_of_le long), List.take_append_drop]⟩
    next => cases h
  · rintro ⟨v, rfl, rfl⟩
    simp [decodeField]

/-- `i` is a well-formed row of the context `c`, and the encoder writes `p` for it (R53, R62). -/
def Spells (c : Ctx) (p : Bits) (i : Instr) : Prop := i.wf = true ∧ i.ctx = c ∧ encode i = p

theorem Spells.append {c : Ctx} {p : Bits} {i : Instr} (h : Spells c p i) (rest : Bits) :
    i.wf = true ∧ i.ctx = c ∧ encode i ++ rest = p ++ rest := by
  obtain ⟨wf, ctx, rfl⟩ := h
  exact ⟨wf, ctx, rfl⟩

/-- When every value of a field, after the tag, spells its row, a token read from the field stands in the bits. -/
theorem spells_of_decodeField {c : Ctx} {n : Nat} {f : BitVec n → Instr} {tag p rest : Bits} {i : Instr}
    (row : ∀ v, Spells c (tag ++ bitsOf v) (f v)) (h : decodeField c n f p = .token i rest) :
    i.wf = true ∧ i.ctx = c ∧ encode i ++ rest = tag ++ p := by
  obtain ⟨v, rfl, rfl⟩ := decodeField_eq_token.mp h
  rw [← List.append_assoc]
  exact (row v).append rest

/-! ## Command words -/

/-- A command word is its reserved bits and its OP field (R54). -/
theorem reserved_append_op (w : Word) : (w.extractLsb' 2 30 ++ w.extractLsb' 0 2 : Word) = w :=
  (BitVec.extractLsb'_append_extractLsb'_eq_extractLsb' rfl).trans BitVec.extractLsb'_eq_self

/-- Reserved bits that are not all 0 decide the row, whatever the OP field holds (R54). -/
theorem decodeCmd_of_reserved {r : BitVec 30} (o : BitVec 2) (h : r ≠ 0) :
    decodeCmd (r ++ o) = .cmdIllegalRsv r o := by
  have reserved : (r ++ o : Word).extractLsb' 2 30 = r := BitVec.extractLsb'_append_eq_left
  have op : (r ++ o : Word).extractLsb' 0 2 = o := BitVec.extractLsb'_append_eq_right
  rw [decodeCmd, reserved, op, if_pos h]

theorem spells_decodeCmd (w : Word) : Spells .cmd (bitsOf w) (decodeCmd w) := by
  rw [← reserved_append_op w]
  generalize w.extractLsb' 2 30 = r, w.extractLsb' 0 2 = o
  by_cases reserved : r = 0
  · subst reserved
    revert o
    unfold Spells
    decide
  · rw [decodeCmd_of_reserved o reserved]
    exact ⟨decide_eq_true reserved, rfl, rfl⟩

/-! ## A leaf's symbol and a payload bit -/

theorem decodeLeafSym_of_le {v : BitVec 9} (h : v.toNat ≤ Config.sentinel) : decodeLeafSym v = .hdrLeaf v := if_pos h

theorem decodeLeafSym_of_lt {v : BitVec 9} (h : Config.sentinel < v.toNat) : decodeLeafSym v = .hdrLeafBadsym v :=
  if_neg (Nat.not_le_of_lt h)

theorem spells_decodeLeafSym (v : BitVec 9) : Spells .header (true :: bitsOf v) (decodeLeafSym v) := by
  obtain bad | valid := Nat.lt_or_ge Config.sentinel v.toNat
  · rw [decodeLeafSym_of_lt bad]
    exact ⟨decide_eq_true bad, rfl, rfl⟩
  · rw [decodeLeafSym_of_le valid]
    exact ⟨decide_eq_true valid, rfl, rfl⟩

theorem spells_decodeCodeBit (t : Bool) : Spells .code [t] (decodeCodeBit t) := by
  cases t <;> exact ⟨rfl, rfl, rfl⟩

/-! ## Decoding and encoding -/

/-- Settles O1: each row's bits are a field, or a tag and a field, that the row's context reads in front. -/
theorem decodeOfEncodeGivesTheInstruction : Obligations.DecodeOfEncodeGivesTheInstruction := by
  intro i rest wf
  cases i with
  | nop => exact decodeField_eq_token.mpr ⟨0, by decide, rfl⟩
  | compress => exact decodeField_eq_token.mpr ⟨1, by decide, rfl⟩
  | decompress => exact decodeField_eq_token.mpr ⟨2, by decide, rfl⟩
  | cmdIllegalOp => exact decodeField_eq_token.mpr ⟨3, by decide, rfl⟩
  | cmdIllegalRsv r o => exact decodeField_eq_token.mpr ⟨_, decodeCmd_of_reserved o (of_decide_eq_true wf), rfl⟩
  | magic m => exact decodeField_eq_token.mpr ⟨m, rfl, rfl⟩
  | hdrInternal => rfl
  | hdrLeaf sym => exact decodeField_eq_token.mpr ⟨sym, decodeLeafSym_of_le (of_decide_eq_true wf), rfl⟩
  | hdrLeafBadsym sym => exact decodeField_eq_token.mpr ⟨sym, decodeLeafSym_of_lt (of_decide_eq_true wf), rfl⟩
  | codeBitLeft => rfl
  | codeBitRight => rfl
  | inByte b => exact decodeField_eq_token.mpr ⟨b, rfl, rfl⟩
  | outSymbol b => exact decodeField_eq_token.mpr ⟨b, rfl, rfl⟩

/-- Settles O2: every value of the field that a context reads spells the row that it is decoded to. -/
theorem encodeOfDecodedTokenGivesItsBits : Obligations.EncodeOfDecodedTokenGivesItsBits := by
  intro c p i rest h
  cases c with
  | cmd => exact spells_of_decodeField (tag := []) spells_decodeCmd h
  | magic => exact spells_of_decodeField (tag := []) (fun m => ⟨rfl, rfl, rfl⟩) h
  | header =>
    match p with
    | [] => cases h
    | false :: q => cases h; exact ⟨rfl, rfl, rfl⟩
    | true :: q => exact spells_of_decodeField (tag := [true]) spells_decodeLeafSym h
  | code =>
    match p with
    | [] => cases h
    | t :: q => cases h; exact (spells_decodeCodeBit t).append rest
  | inByte => exact spells_of_decodeField (tag := []) (fun b => ⟨rfl, rfl, rfl⟩) h
  | outByte => exact spells_of_decodeField (tag := []) (fun b => ⟨rfl, rfl, rfl⟩) h

/-- Settles O3: a row's word, and the bits written out, are evaluated. -/
theorem wordsOfTheTableDecodeToTheirRows : Obligations.WordsOfTheTableDecodeToTheirRows := by
  unfold Obligations.WordsOfTheTableDecodeToTheirRows
  decide

end Sys2Proof

namespace Sys2Proof.Machine

/-! ## The length of a header -/

theorem Tree.internalCount_add_one (t : Tree) : t.internalCount + 1 = t.leafCount := by
  induction t with
  | leaf y => rfl
  | node l r left right => simp only [internalCount, leafCount]; omega

/-- A leaf has a tag and 9 bits, an internal node a tag (R56, R57). -/
theorem Tree.length_header (t : Tree) : t.header.length = 10 * t.leafCount + t.internalCount := by
  induction t with
  | leaf y => simp [header, leafCount, internalCount]
  | node l r left right =>
    simp only [header, leafCount, internalCount, List.length_cons, List.length_append]
    omega

/-- Settles O5: the header has ten bits to a leaf and one to an internal node, of which there is one fewer. -/
theorem headerOfLLeavesHasElevenLMinusOneBits : Obligations.HeaderOfLLeavesHasElevenLMinusOneBits := by
  intro t
  have count := t.internalCount_add_one
  have length := t.length_header
  omega

/-! ## Tokens out of place -/

theorem codeBit_outside {t : Bool} {s : State} (h : s.seq.phase ≠ .dDecode) :
    codeBit t s = .refused .tokenNotOffered := by
  unfold codeBit
  split
  next place => exact absurd (congrArg Seq.phase place) h
  next => rfl

/-- Settles O31: each token's meaning answers only at places of the token's phases. -/
theorem wireTokenOutsideItsPhasesIsRefused : Obligations.WireTokenOutsideItsPhasesIsRefused := by
  intro i s wire outside
  have elsewhere {q : Seq} (place : s.seq = q) : q.phase ∉ tokenPhases i := place ▸ outside
  cases i with
  | nop | compress | decompress | cmdIllegalOp | cmdIllegalRsv => exact absurd rfl wire
  | magic m =>
    cases place : s.seq with
    | magicWrite => exact absurd (.head _) (elsewhere place)
    | magicField f => exact absurd (.tail _ (.head _)) (elsewhere place)
    | _ => simp only [exec, execMagic, place]
  | hdrInternal =>
    cases place : s.seq with
    | headerNode j => exact absurd (.head _) (elsewhere place)
    | treeBit t => exact absurd (.tail _ (.head _)) (elsewhere place)
    | _ => simp only [exec, execHdrInternal, place]
  | hdrLeaf sym =>
    cases place : s.seq with
    | headerNode j | headerSym j => exact absurd (.head _) (elsewhere place)
    | treeBit t | treeLeaf j v => exact absurd (.tail _ (.head _)) (elsewhere place)
    | _ => simp only [exec, execHdrLeaf, place]
  | hdrLeafBadsym sym =>
    cases place : s.seq with
    | treeBit t | treeLeaf j v => exact absurd (.head _) (elsewhere place)
    | _ => cases field : symOfField sym <;> simp only [exec, execHdrLeafBadsym, place, field]
  | codeBitLeft | codeBitRight => exact codeBit_outside fun decoding => outside (decoding ▸ .head _)
  | inByte b =>
    cases place : s.seq with
    | countByte c => exact absurd (.head _) (elsewhere place)
    | encodeByte c => exact absurd (.tail _ (.head _)) (elsewhere place)
    | _ => simp only [exec, execInByte, place]
  | outSymbol b =>
    cases place : s.seq with
    | decodeEmit c => exact absurd (.head _) (elsewhere place)
    | _ => simp only [exec, execOutSymbol, place]

/-! ## The HOST's assembly -/

/-- In the HOST's turn its first action is done. -/
theorem step_hostAct {s : State} {a : HostAction} {rest : List HostAction} (hh : hostTurn s)
    (hp : s.host.program = a :: rest) : step s = (hostAct a rest (takeTurn s).2).outcome := by
  have hp' : (takeTurn s).2.host.program = a :: rest := by rw [takeTurn_snd]; exact hp
  rw [step_host hh, hostFetch, hp']

/-- Settles O39: each action's effect, on the state whose turn is taken. -/
theorem connectTakeAndWaitDoWhatTheHostAsks : Obligations.ConnectTakeAndWaitDoWhatTheHostAsks := by
  intro s rest hh
  have act {a : HostAction} (hp : s.host.program = a :: rest) := step_hostAct hh hp
  obtain ⟨k, turn⟩ : ∃ k, (takeTurn s).2 = { s with host := { s.host with turns := k } } := ⟨_, takeTurn_snd s⟩
  rw [turn] at act ⊢
  refine ⟨fun b b2 hp => ?_, fun hp => ?_, fun hp => ?_, fun hp => ?_⟩
  · rw [act hp]; cases h : s.status.busy <;> simp [hostAct, h]
  · rw [act hp]; cases h : s.status.busy <;> simp [hostAct, h, OutPort.fresh]
  · rw [act hp]; cases h : s.status.done <;> simp [hostAct, h, bindValue]
  · rw [act hp]; cases h : s.status.busy <;> simp [hostAct, h, bindValue, hp, dropAction, regRead]

end Sys2Proof.Machine
end

section
/-! SUPPORT. COUNT (40_frequency_counter.md R68, R69): what IN_BYTE does there and in ENCODE, the run over the input's
bytes, and the counts it leaves. -/

namespace Sys2Proof.Machine

/-! ## IN_BYTE -/

theorem exec_inByte_countByte {b : Byte} {s : State} (place : s.seq = .countByte b) :
    exec (.inByte b) s = .next (countByte b s) := by
  simp only [exec, execInByte, place, if_true]

theorem exec_inByte_encodeByte {b : Byte} {s : State} (place : s.seq = .encodeByte b) :
    exec (.inByte b) s = .next (encodeByte b s) := by
  simp only [exec, execInByte, place, if_true]

/-- Up to MAX_LEN bytes the length check passes, and the byte is counted (R68). -/
theorem countByte_of_lt {b : Byte} {s : State} (short : s.nbytes.toNat < Config.maxLen) :
    countByte b s = { s with
      nbytes := s.nbytes + 1, freq := s.freq.set (symOfByte b) (s.freq[symOfByte b] + 1), seq := .count } := by
  have fits : Config.maxLen + 1 < 2 ^ Config.weightW := by decide
  have sum : (s.nbytes + 1).toNat = s.nbytes.toNat + 1 := toNat_add_one (by omega)
  exact if_neg (by simpa only [sum] using Nat.not_lt.mpr short)

/-- Byte number MAX_LEN + 1 fails the length check (R68, R111). -/
theorem countByte_of_eq {b : Byte} {s : State} (full : s.nbytes.toNat = Config.maxLen) :
    countByte b s = { s with nbytes := s.nbytes + 1, seq := .close .inputTooLong } := by
  have sum : (s.nbytes + 1).toNat = s.nbytes.toNat + 1 := toNat_add_one (by rw [full]; decide)
  exact if_pos (by simpa only [sum, full] using Nat.lt_succ_self _)

/-- Settles O29: the two sides of COUNT's length check and of ENCODE's test of the code table. -/
theorem inByteIsCountedOrEncoded : Obligations.InByteIsCountedOrEncoded := by
  intro s b
  refine ⟨fun place short => ?_, fun place full => ?_, fun place valid => ?_, fun place invalid => ?_⟩
  · rw [exec_inByte_countByte place, countByte_of_lt short]
  · rw [exec_inByte_countByte place, countByte_of_eq full]
  · rw [exec_inByte_encodeByte place, encodeByte, if_pos valid]
  · rw [exec_inByte_encodeByte place, encodeByte, if_neg (by rw [invalid]; decide), raise]

/-! ## The run of a phase -/

/-- With no turn set a running command's next step is the ENGINE's move at its place. -/
theorem step_of_undisturbed {s : State} {q : Seq} (alone : undisturbed s) (place : s.seq = q) (running : q ≠ .idle) :
    step s = engineMove s q := by
  rw [step_undisturbed alone (place ▸ running), engineFetch_outcome, place]

/-- Induction along a loop over all symbols: from the last symbol back. -/
theorem nextSym_induction {P : Sym → Prop} (last : ∀ y, nextSym y = none → P y)
    (more : ∀ y z, nextSym y = some z → P z → P y) (y : Sym) : P y := by
  cases h : nextSym y with
  | none => exact last y h
  | some z => exact more y z h (nextSym_induction last more z)
termination_by Config.alph - y.val
decreasing_by
  have := nextSym_eq_some h
  have := z.isLt
  omega

/-- A read takes the field that stands next in IN. -/
theorem readField_of_next {n : Nat} {hold : BitVec n → Seq} {eof : State → State} {s : State} {v : BitVec n}
    {rest : Bits} (positive : 0 < n) (next : s.inp.remaining = bitsOf v ++ rest) :
    (readField n hold eof s).outcome = .next { s with inp := { s.inp with pos := s.inp.pos + n }, seq := hold v } := by
  have enough : s.inp.remaining.length = n + rest.length := by rw [next, List.length_append, length_bitsOf]
  obtain ⟨-, h⟩ | ⟨short, -⟩ := readField_cases n hold eof s
  · rw [h, next, List.take_left' (length_bitsOf v), fieldOf_bitsOf, outcome_done]
  · rw [InPort.remaining, List.length_drop] at enough
    omega

/-- After the bytes `l` of IN its other bytes remain. -/
theorem remaining_after {p : InPort} {l rest : List Byte} (bytes : p.bytes = l ++ rest) (pos : p.pos = 8 * l.length) :
    p.remaining = streamBits rest := by
  rw [InPort.remaining, InPort.bits, bytes, pos, streamBits_append, List.drop_left' (length_streamBits l)]

/-! ## The counts of a byte list -/

/-- The table that holds each symbol's count in `l` (R69; the sentinel, which is no byte's symbol, has 0). -/
def freqTable (l : List Byte) : Vector Weight Config.alph := Vector.ofFn fun y => BitVec.ofNat _ (countOf l y)

@[simp] theorem getElem_freqTable (l : List Byte) (y : Sym) : (freqTable l)[y] = BitVec.ofNat _ (countOf l y) := by
  simp [freqTable]

theorem freqTable_nil_set (y : Sym) : (freqTable []).set y 0 = freqTable [] := by
  have zero : (freqTable [])[y] = 0 := getElem_freqTable [] y
  exact zero ▸ Vector.set_getElem_self _

theorem countOf_append_singleton (l : List Byte) (b : Byte) (y : Sym) :
    countOf (l ++ [b]) y = countOf l y + if symOfByte b = y then 1 else 0 := by
  simp [countOf, List.countP_append, List.countP_singleton]

/-- Counting one byte more is one increment of its entry (R68). -/
theorem freqTable_append_singleton (l : List Byte) (b : Byte) :
    freqTable (l ++ [b]) = (freqTable l).set (symOfByte b) ((freqTable l)[symOfByte b] + 1) := by
  apply Vector.ext
  intro i hi
  by_cases same : (symOfByte b).val = i
  · subst same
    simp [freqTable, countOf_append_singleton, BitVec.ofNat_add]
  · have other : symOfByte b ≠ ⟨i, hi⟩ := fun h => same (congrArg Fin.val h)
    simp [freqTable, countOf_append_singleton, other, Vector.getElem_set_ne _ _ same]

theorem symOfByte_injective : Function.Injective symOfByte := Function.LeftInverse.injective symByte_symOfByte

theorem countOf_symOfByte (l : List Byte) (b : Byte) : countOf l (symOfByte b) = l.count b := by
  simp only [countOf, List.count, symOfByte_injective.eq_iff]
  rfl

theorem toNat_ofNat_of_le_maxLen {n : Nat} (h : n ≤ Config.maxLen) : (BitVec.ofNat Config.weightW n).toNat = n := by
  have fits : Config.maxLen < 2 ^ Config.weightW := by decide
  rw [BitVec.toNat_ofNat, Nat.mod_eq_of_lt (by omega)]

/-- No counter wraps for an input that COMPRESS accepts (R70). -/
theorem toNat_freqTable {l : List Byte} (short : l.length ≤ Config.maxLen) (b : Byte) :
    (freqTable l)[symOfByte b].toNat = l.count b := by
  rw [getElem_freqTable, countOf_symOfByte, toNat_ofNat_of_le_maxLen (List.count_le_length.trans short)]

/-! ## COUNT -/

/-- COUNT of the input of `s`, at the loop's read with the bytes `l` behind it (R68). -/
def counted (l : List Byte) (s : State) : State := { s with
  seq := .count, freq := freqTable l, nbytes := BitVec.ofNat _ l.length, inp := { s.inp with pos := 8 * l.length } }

/-- The byte `b` is read from IN and is held (R68). -/
def byteRead (b : Byte) (s : State) : State :=
  { s with inp := { s.inp with pos := s.inp.pos + 8 }, seq := .countByte b }

/-- COUNT's first lines clear every counter not cleared yet, and then NBYTES (R68). -/
theorem reaches_cleared {y : Sym} {s : State} (alone : undisturbed s) (place : s.seq = .countClear y)
    (cleared : ∀ z < y, s.freq[z] = (freqTable [])[z]) :
    Reaches s { s with freq := freqTable [], nbytes := 0, seq := .count } := by
  induction y using nextSym_induction generalizing s with
  | last y hy =>
    have whole : s.freq.set y 0 = freqTable [] := (set_eq_of_last cleared 0 hy).trans (freqTable_nil_set y)
    refine .single ?_
    rw [step_of_undisturbed alone place nofun, engineMove, countClear, hy, whole]
  | more y z hz ih =>
    have further : ∀ u < z, (s.freq.set y 0)[u] = (freqTable [])[u] :=
      freqTable_nil_set y ▸ getElem_set_eq_of_next cleared 0 hz
    refine .step ?_ (ih (s := { s with freq := s.freq.set y 0, seq := .countClear z }) alone rfl further)
    rw [step_of_undisturbed alone place nofun, engineMove, countClear, hz]

section
variable {s : State} {l rest : List Byte} {b : Byte}

/-- Counting the byte after `l` where MAX_LEN leaves room for it. -/
theorem countByte_counted (short : l.length < Config.maxLen) :
    countByte b (byteRead b (counted l s)) = counted (l ++ [b]) s := by
  have room : (byteRead b (counted l s)).nbytes.toNat < Config.maxLen :=
    (toNat_ofNat_of_le_maxLen short.le).trans_lt short
  rw [countByte_of_lt room]
  simp [byteRead, counted, freqTable_append_singleton, BitVec.ofNat_add, Nat.mul_add]

/-- COUNT's loop reads the byte after `l` and runs its body on it. -/
theorem reaches_countByte (alone : undisturbed s) (pass : s.inp.rewound = false)
    (bytes : s.inp.first = l ++ b :: rest) :
    Reaches (counted l s) (countByte b (byteRead b (counted l s))) := by
  have next : (counted l s).inp.remaining = bitsOf b ++ streamBits rest :=
    remaining_after (l := l) (rest := b :: rest) (by simp [counted, InPort.bytes, pass, bytes]) rfl
  have read : step (counted l s) = .next (byteRead b (counted l s)) :=
    (step_of_undisturbed (s := counted l s) alone rfl nofun).trans (readField_of_next (by decide) next)
  exact .step read (.single (step_of_undisturbed (s := byteRead b (counted l s)) alone rfl nofun))

/-- COUNT up to any byte within MAX_LEN (R68). -/
theorem reaches_counted (place : s.seq = .countClear 0) (alone : undisturbed s) (pass : s.inp.rewound = false)
    (start : s.inp.pos = 0) (bytes : s.inp.first = l ++ rest) (short : l.length ≤ Config.maxLen) :
    Reaches s (counted l s) := by
  induction l using List.reverseRecOn generalizing rest with
  | nil =>
    have cleared := reaches_cleared alone place nofun
    have none : { s.inp with pos := 8 * ([] : List Byte).length } = s.inp := by
      rw [List.length_nil, Nat.mul_zero, ← start]
    rwa [counted, none]
  | append_singleton l b ih =>
    rw [List.length_append, List.length_singleton] at short
    rw [List.append_assoc] at bytes
    rw [← countByte_counted short]
    exact (ih bytes (Nat.le_of_succ_le short)).trans (reaches_countByte alone pass bytes)

/-- At IN's end the loop is left, and the sentinel is counted (R69). -/
theorem reaches_countEnd (alone : undisturbed s) (pass : s.inp.rewound = false) :
    Reaches (counted s.inp.first s) (countEnd (counted s.inp.first s)) := by
  have size : s.inp.bits.length = 8 * s.inp.first.length := by simp [InPort.bits, InPort.bytes, pass]
  have ended : (counted s.inp.first s).inp.remaining.length < 8 := by simp [counted, size]
  have read : step (counted s.inp.first s) = .next { counted s.inp.first s with seq := .countEnd } := by
    rw [step_of_undisturbed (s := counted s.inp.first s) alone rfl nofun]
    refine (readField_of_short ended).trans ?_
    simp [counted, size]
  refine .step read (.single ?_)
  exact step_of_undisturbed (s := { counted s.inp.first s with seq := .countEnd }) alone rfl nofun

end

/-- Settles O45: the loop reads and counts byte by byte up to IN's end, or up to byte MAX_LEN + 1, whose body raises the
error. -/
theorem countLeavesEachBytesCount : Obligations.CountLeavesEachBytesCount := by
  intro s place alone pass start
  have run {l rest : List Byte} := reaches_counted (l := l) (rest := rest) place alone pass start
  constructor
  · intro short
    refine ⟨_, (run (List.append_nil _).symm short).trans (reaches_countEnd alone pass), rfl, ?sentinel, ?byte,
      toNat_ofNat_of_le_maxLen short, rfl⟩
    case sentinel => simp [countEnd]
    case byte =>
      intro b
      have other : sentinelSym.val ≠ (symOfByte b).val := fun h => symOfByte_ne_sentinel b (Fin.ext h.symm)
      simpa [countEnd, counted, Vector.getElem_set_ne _ _ other] using toNat_freqTable short b
  · intro long
    obtain ⟨l, b, rest, bytes, full⟩ : ∃ l b rest, s.inp.first = l ++ b :: rest ∧ l.length = 2 ^ 32 - 2 := by
      refine ⟨s.inp.first.take (2 ^ 32 - 2), s.inp.first[2 ^ 32 - 2], s.inp.first.drop (2 ^ 32 - 2 + 1), ?_,
        List.length_take_of_le long.le⟩
      rw [← List.drop_eq_getElem_cons long, List.take_append_drop]
    have body := reaches_countByte alone pass bytes
    rw [countByte_of_eq ((toNat_ofNat_of_le_maxLen full.le).trans full)] at body
    refine ⟨_, (run bytes full.le).trans body, rfl, ?_, rfl, rfl⟩
    simp [byteRead, counted, full]

end Sys2Proof.Machine
end

section
/-! SUPPORT. Under the invariant the ENGINE's move at every place answers a next state, and a HOST action is refused at
most where the spec gives it no meaning (41_tree_builder.md R71, R75, 43_header_codec.md R82, R84, 45_decompress.md
R102, 20_memory.md R48). -/

namespace Sys2Proof.Machine

/-! ## The ENGINE -/

/-- The outcome is a next state. -/
def Proceeds (o : StepOutcome) : Prop := ∃ t, o = .next t

theorem proceeds_next (t : State) : Proceeds (.next t) := ⟨t, rfl⟩

theorem proceeds_readField (n : Nat) (hold : BitVec n → Seq) (eof : State → State) (s : State) :
    Proceeds (readField n hold eof s).outcome := by
  obtain ⟨-, h⟩ | ⟨-, h⟩ := readField_cases n hold eof s <;> rw [h] <;> exact proceeds_next _

theorem proceeds_takeMin (k : NodeIdx → State → State) {s : State} (h : s.pq ≠ []) : Proceeds (takeMin k s) := by
  obtain ⟨empty, -⟩ | ⟨a, q, -, taken⟩ := takeMin_cases k s
  · exact absurd empty h
  · exact ⟨_, taken⟩

theorem proceeds_mergeNode (a b : NodeIdx) {s : State} (h : s.next.toNat < Config.nodeCap) :
    Proceeds (mergeNode a b s) := by
  unfold mergeNode
  rw [arenaSlot_of_lt h]
  exact proceeds_next _

theorem proceeds_allocNode (f : NodeIdx → State → State) {s : State} (h : s.next.toNat < Config.nodeCap) :
    Proceeds (allocNode (fun i s' => .next (f i s')) s) := ⟨_, allocNode_of_eq (i := ⟨_, h⟩) rfl⟩

/-- A full binary tree of at most 256 internal nodes leaves an arena entry for the node whose tag is read (R84). -/
theorem TreeCounts.next_lt {s : State} (h : TreeCounts 0 s) : s.next.toNat < Config.nodeCap := by
  obtain ⟨full, cap, -⟩ := h
  have limit : s.nint.toNat ≤ 256 := cap
  show s.next.toNat < 513
  omega

theorem proceeds_headerPush {i : NodeIdx} {s : State} (h : s.nodes[i].isLeaf = false) : Proceeds (headerPush i s) := by
  unfold headerPush
  split
  next leaf => rw [leaf] at h; cases h
  next => exact proceeds_next _

/-- At an internal node, and in a degenerate tree, CUR has where to go (R102, R103). -/
theorem CursorOk.nextCur {s : State} (h : CursorOk s) (live : s.dstate ≠ .terminal) (t : Bool) :
    ∃ c, nextCur t s = some c := by
  unfold Machine.nextCur
  split
  · exact ⟨_, rfl⟩
  next root =>
    have internal := (h live).resolve_left root
    cases hn : s.nodes[s.cur] with
    | leaf y w => rw [hn] at internal; cases internal
    | internal w l r => exact ⟨_, rfl⟩

/-- The ENGINE moves on from every place where the tables are as the invariant says. -/
theorem PlaceOk.proceeds {s : State} (h : PlaceOk s) : Proceeds (engineMove s s.seq) := by
  obtain ⟨queue, header, walk, decode⟩ := h
  cases hq : s.seq with
  | count | encodeRead | magicRead | treeTag | treeSym => exact proceeds_readField ..
  | merge =>
    simp only [QueueOk, hq] at queue
    dsimp only [engineMove, merge]
    exact proceeds_takeMin _ queue.1
  | mergeSecond a =>
    simp only [QueueOk, hq] at queue
    dsimp only [engineMove, mergeSecond]
    exact proceeds_takeMin _ queue.1
  | mergeNode a b =>
    simp only [QueueOk, hq] at queue
    exact proceeds_mergeNode a b (show s.next.toNat < 513 by simp only [Config.alph] at queue; omega)
  | headerPush i =>
    simp only [WalkOk, hq] at walk
    exact proceeds_headerPush walk
  | headerSym i =>
    simp only [WalkOk, hq] at walk
    exact ⟨_, if_pos walk⟩
  | treeBit t =>
    simp only [HeaderOk, hq] at header
    cases t <;> dsimp only [engineMove] <;> exact proceeds_allocNode _ header.next_lt
  | decodeBit =>
    dsimp only [engineMove]
    split
    · exact proceeds_next _
    · exact proceeds_readField ..
  | decodeStep t =>
    simp only [DecodeOk, hq] at decode
    obtain ⟨cursor, live⟩ := decode
    obtain ⟨c, hc⟩ := cursor.nextCur live t
    simp only [engineMove, if_neg live, hc]
    exact proceeds_next _
  | _ => exact proceeds_next _

/-! ## The HOST -/

/-- The outcome is a next state or one of the three refusals of a HOST action (R45, R66, R124). -/
def HostAnswers (o : StepOutcome) : Prop :=
  Proceeds o ∨ o = .refused .badRegisterAccess ∨ o = .refused .connectWhileBusy ∨ o = .refused .takeBeforeDone

theorem HostAnswers.next (t : State) : HostAnswers (.next t) := .inl (proceeds_next t)

theorem proceeds_regWrite (r : Reg) (v : Word) (s : State) : Proceeds (regWrite r v s).outcome := by
  cases r with
  | cmd =>
    obtain h | ⟨-, h | h | ⟨op, h⟩⟩ := exec_decodeCmd_cases v s <;> exact ⟨_, h⟩
  | _ => exact proceeds_next s

theorem hostAct_answers (a : HostAction) (rest : List HostAction) (s : State) :
    HostAnswers (hostAct a rest s).outcome := by
  unfold hostAct
  cases a with
  | write r v => exact .inl (proceeds_regWrite r v _)
  | busWrite addr bytes v =>
    dsimp only
    split
    · exact .inr (.inl rfl)
    · exact .inl (proceeds_regWrite _ v _)
  | busRead addr bytes =>
    dsimp only
    split
    · exact .inr (.inl rfl)
    · exact .next _
  | connectIn | connectOut =>
    dsimp only
    split
    · exact .inr (.inr (.inl rfl))
    · exact .next _
  | takeOut =>
    dsimp only
    split
    · exact .next _
    · exact .inr (.inr (.inr rfl))
  | read | wait | reset => exact .next _

theorem hostFetch_answers (s : State) : HostAnswers (hostFetch s).outcome := by
  unfold hostFetch
  split
  · exact .next s
  · exact hostAct_answers _ _ s

/-- Settles O43: in the ENGINE's turn its move proceeds at every place, in the HOST's its action proceeds or is one of
the three that are refused. -/
theorem invariantExcludesEveryFault : Obligations.InvariantExcludesEveryFault := by
  intro s h
  obtain he | hh := engineTurn_or_hostTurn s
  · obtain ⟨k, -, move⟩ := step_engineMove he
    obtain ⟨-, -, place⟩ := inv_iff.mp ((inv_with_host s k).mpr h)
    exact .inl (move ▸ place.proceeds)
  · rw [step_host hh]
    exact (hostFetch_answers _).imp_right fun refused => ⟨hh, refused⟩

end Sys2Proof.Machine
end

section
/-! SUPPORT. The queue's least key (41_tree_builder.md R72), and BUILD_LEAVES (R71): the symbols it visits, the leaves
it makes of them, and its run. -/

namespace Sys2Proof.Machine

/-! ## The queue -/

/-- The entry `a` comes no later than `b`: by WEIGHT, then by arena index, unsigned (R72). -/
def keyLe (nodes : Vector Node Config.nodeCap) (a b : NodeIdx) : Prop :=
  nodes[a].weight.toNat < nodes[b].weight.toNat ∨ (nodes[a].weight.toNat = nodes[b].weight.toNat ∧ a.val ≤ b.val)

theorem keyLe_refl (nodes : Vector Node Config.nodeCap) (a : NodeIdx) : keyLe nodes a a := .inr ⟨rfl, Nat.le_refl _⟩

theorem keyLe_trans {nodes : Vector Node Config.nodeCap} {a b c : NodeIdx} (hab : keyLe nodes a b)
    (hbc : keyLe nodes b c) : keyLe nodes a c := by
  unfold keyLe at *
  omega

theorem keyLe_of_not {nodes : Vector Node Config.nodeCap} {a b : NodeIdx} (h : ¬ keyLe nodes a b) :
    keyLe nodes b a := by
  unfold keyLe at *
  omega

theorem keyLess_iff_not_keyLe {nodes : Vector Node Config.nodeCap} {a b : NodeIdx} :
    keyLess nodes b a = true ↔ ¬ keyLe nodes a b := by
  simp only [keyLess, keyLe, Bool.or_eq_true, Bool.and_eq_true, decide_eq_true_eq, beq_iff_eq, BitVec.lt_def,
    ← BitVec.toNat_inj, Fin.lt_def]
  omega

/-- The choice between the head and the least of the tail comes no later than either. -/
theorem keyLe_ite (nodes : Vector Node Config.nodeCap) (a b : NodeIdx) :
    keyLe nodes (if keyLess nodes b a then b else a) a ∧ keyLe nodes (if keyLess nodes b a then b else a) b := by
  split
  next less => exact ⟨keyLe_of_not (keyLess_iff_not_keyLe.mp less), keyLe_refl nodes b⟩
  next less => exact ⟨keyLe_refl nodes a, Classical.not_not.mp (mt keyLess_iff_not_keyLe.mpr less)⟩

theorem keyLe_pqMin {nodes : Vector Node Config.nodeCap} {q : List NodeIdx} {a : NodeIdx}
    (h : pqMin nodes q = some a) : ∀ b ∈ q, keyLe nodes a b := by
  induction q generalizing a with
  | nil => nofun
  | cons c q ih =>
    rw [pqMin] at h
    cases hq : pqMin nodes q with
    | none =>
      rw [hq] at h
      cases h
      rw [pqMin_eq_none.mp hq]
      simpa using keyLe_refl nodes c
    | some d =>
      rw [hq] at h
      cases h
      obtain ⟨head, tail⟩ := keyLe_ite nodes c d
      exact List.forall_mem_cons.mpr ⟨head, fun b hb => keyLe_trans tail (ih hq b hb)⟩

/-- Settles O47: the least key is kept along the queue. -/
theorem removeMinTakesTheLeastKey : Obligations.RemoveMinTakesTheLeastKey := by
  intro nodes q
  refine ⟨pqRemoveMin_eq_none, fun a q' h => ?_⟩
  obtain ⟨least, rest⟩ := pqRemoveMin_eq_some.mp h
  exact ⟨pqMin_mem least, rest, keyLe_pqMin least⟩

/-! ## The symbols still to be visited -/

/-- The used symbols from symbol number `n` on, ascending (R71). -/
def usedFrom (freq : Vector Weight Config.alph) (n : Nat) : List Sym :=
  ((List.finRange Config.alph).drop n).filter fun y => freq[y] ≠ 0

theorem usedFrom_zero (freq : Vector Weight Config.alph) : usedFrom freq 0 = usedSymbols freq := by
  rw [usedFrom, List.drop_zero, usedSymbols]

theorem usedFrom_alph (freq : Vector Weight Config.alph) : usedFrom freq Config.alph = [] := by
  rw [usedFrom, List.drop_of_length_le (by simp), List.filter_nil]

/-- The visit of `y` adds it where its count is not 0. -/
def usedAt (freq : Vector Weight Config.alph) (y : Sym) : List Sym := if freq[y] = 0 then [] else [y]

theorem usedFrom_eq_append (freq : Vector Weight Config.alph) (y : Sym) :
    usedFrom freq y.val = usedAt freq y ++ usedFrom freq (y.val + 1) := by
  have bound : y.val < (List.finRange Config.alph).length := by simp
  have head : (List.finRange Config.alph)[y.val]'bound = y := by simp
  rw [usedFrom, List.drop_eq_getElem_cons bound, head, usedAt, usedFrom]
  split
  next count => rw [List.filter_cons_of_neg (by simpa using count), List.nil_append]
  next count => rw [List.filter_cons_of_pos (by simpa using count), List.singleton_append]

theorem length_usedAt_le (freq : Vector Weight Config.alph) (y : Sym) : (usedAt freq y).length ≤ 1 := by
  unfold usedAt
  split <;> simp

theorem length_usedSymbols_le (freq : Vector Weight Config.alph) : (usedSymbols freq).length ≤ Config.alph :=
  (List.length_filter_le _ _).trans (List.length_finRange).le

/-! ## The leaves made -/

/-- The arena with the leaves of `ys`, in their order, at its first entries (R71). -/
def leafNodes (freq : Vector Weight Config.alph) (ys : List Sym) (nodes : Vector Node Config.nodeCap) :
    Vector Node Config.nodeCap :=
  Vector.ofFn fun i => if h : i.val < ys.length then .leaf (ys[i.val]'h) freq[ys[i.val]'h] else nodes[i]

/-- PQ with the first `n` arena indices, in the order they were inserted (R71). -/
def leafQueue (n : Nat) : List NodeIdx := (List.range n).map fun k => leafSlot (BitVec.ofNat 9 k)

/-- BUILD_LEAVES at the place `q`, with the leaves of `ys` made and inserted (R71). -/
def withLeaves (q : Seq) (ys : List Sym) (s : State) : State := { s with
  seq := q, nodes := leafNodes s.freq ys s.nodes, pq := leafQueue ys.length, nleaf := BitVec.ofNat 9 ys.length }

/-- BUILD_LEAVES done, with the leaves of `ys` made: MERGE is next, with NEXT = L (R71). -/
def leavesDone (ys : List Sym) (s : State) : State :=
  { withLeaves .merge ys s with next := (BitVec.ofNat 9 ys.length).setWidth 10 }

theorem val_leafSlot_ofNat {n : Nat} (h : n < 512) : (leafSlot (BitVec.ofNat 9 n)).val = n := by
  simp only [leafSlot, BitVec.toNat_ofNat]
  omega

theorem map_val_leafQueue {n : Nat} (h : n ≤ Config.alph) : (leafQueue n).map Fin.val = List.range n := by
  have limit : n ≤ 257 := h
  rw [leafQueue, List.map_map]
  refine (List.map_congr_left fun k hk => ?_).trans (List.map_id _)
  have := List.mem_range.mp hk
  exact val_leafSlot_ofNat (by omega)

theorem leafNodes_nil (freq : Vector Weight Config.alph) (nodes : Vector Node Config.nodeCap) :
    leafNodes freq [] nodes = nodes := by
  simp [leafNodes]

theorem getElem_leafNodes_of_eq {freq : Vector Weight Config.alph} {ys : List Sym} {nodes : Vector Node Config.nodeCap}
    {i : NodeIdx} {k : Nat} (hi : i.val = k) (h : k < ys.length) :
    (leafNodes freq ys nodes)[i] = .leaf (ys[k]'h) freq[ys[k]'h] := by
  subst hi
  simp [leafNodes, h]

theorem getElem_leafNodes_of_le {freq : Vector Weight Config.alph} {ys : List Sym} {nodes : Vector Node Config.nodeCap}
    {i : NodeIdx} (h : ys.length ≤ i.val) : (leafNodes freq ys nodes)[i] = nodes[i] := by
  simp [leafNodes, Nat.not_lt.mpr h]

/-- One leaf more is one entry written, the next free one. -/
theorem leafNodes_append_singleton (freq : Vector Weight Config.alph) (ys : List Sym) (y : Sym)
    (nodes : Vector Node Config.nodeCap) {i : NodeIdx} (hi : i.val = ys.length) :
    (leafNodes freq ys nodes).set i (.leaf y freq[y]) = leafNodes freq (ys ++ [y]) nodes := by
  apply Vector.ext
  intro k hk
  simp only [leafNodes, Vector.getElem_set, Vector.getElem_ofFn, hi, List.length_append, List.length_singleton]
  obtain hlt | rfl | hgt := Nat.lt_trichotomy k ys.length
  · rw [if_neg hlt.ne', dif_pos hlt, dif_pos (Nat.lt_succ_of_lt hlt)]
    simp only [List.getElem_append_left hlt]
  · simp
  · rw [if_neg hgt.ne, dif_neg (Nat.not_lt.mpr hgt.le), dif_neg (Nat.not_lt.mpr hgt)]

theorem leafQueue_succ (n : Nat) : leafQueue (n + 1) = pqInsert (leafSlot (BitVec.ofNat 9 n)) (leafQueue n) := by
  simp [leafQueue, pqInsert, List.range_succ]

/-! ## The loop -/

/-- `NODE[L]` is the leaf of `y`, and is inserted (R71). -/
def addLeaf (y : Sym) (s : State) : State := { s with
  nodes := s.nodes.set (leafSlot s.nleaf) (.leaf y s.freq[y])
  pq := pqInsert (leafSlot s.nleaf) s.pq, nleaf := s.nleaf + 1 }

/-- The state in which the visit of `y` goes on: with a count, `y` has its leaf (R71). -/
def visited (y : Sym) (s : State) : State := if s.freq[y] = 0 then s else addLeaf y s

theorem buildLeaf_of_zero {y : Sym} {s : State} (count : s.freq[y] = 0) : buildLeaf y s = buildNext y s :=
  if_neg (by simp [count])

theorem buildLeaf_of_ne {y : Sym} {s : State} (count : s.freq[y] ≠ 0) : buildLeaf y s =
    { s with nodes := s.nodes.set (leafSlot s.nleaf) (.leaf y s.freq[y]), seq := .buildInsert y } :=
  if_pos ((BitVec.pos_iff_ne_zero _).mpr count)

/-- Going on does not depend on the place. -/
theorem buildNext_with_seq (y : Sym) (q : Seq) (s : State) : buildNext y { s with seq := q } = buildNext y s := by
  unfold buildNext
  split <;> rfl

/-- With no turn set, the ENGINE's move at the place of `s` is a step of the run. -/
theorem reaches_move {q : Seq} {s t : State} (alone : undisturbed s) (place : s.seq = q) (running : q ≠ .idle)
    (move : engineMove s q = .next t) : Reaches s t :=
  .single ((step_of_undisturbed alone place running).trans move)

/-- BUILD_LEAVES visits `y` in one step, or, where it makes and inserts a leaf, in two. -/
theorem reaches_visited {y : Sym} {s : State} (alone : undisturbed s) (place : s.seq = .buildLeaf y) :
    Reaches s (buildNext y (visited y s)) := by
  unfold visited
  split
  next count => exact reaches_move alone place nofun (congrArg _ (buildLeaf_of_zero count))
  next count =>
    have made := reaches_move alone place nofun (congrArg _ (buildLeaf_of_ne count))
    exact made.trans (reaches_move alone rfl nofun (congrArg _ (buildNext_with_seq y _ (addLeaf y s))))

theorem visited_withLeaves {y : Sym} {ys : List Sym} (bound : ys.length ≤ y.val) (q : Seq) (s : State) :
    visited y (withLeaves q ys s) = withLeaves q (ys ++ usedAt s.freq y) s := by
  have range : y.val < 257 := y.isLt
  have slot := val_leafSlot_ofNat (n := ys.length) (by omega)
  have count : (withLeaves q ys s).freq = s.freq := rfl
  rw [visited, usedAt, count]
  split
  · rw [List.append_nil]
  · simp only [addLeaf, withLeaves, leafNodes_append_singleton _ _ _ _ slot, ← leafQueue_succ, List.length_append,
      List.length_singleton, BitVec.ofNat_add]
    rfl

/-- BUILD_LEAVES from symbol `y` on, with the leaves of `ys` behind it (R71). -/
theorem reaches_leavesDone {s : State} (alone : undisturbed s) (y : Sym) {ys : List Sym} (bound : ys.length ≤ y.val) :
    Reaches (withLeaves (.buildLeaf y) ys s) (leavesDone (ys ++ usedFrom s.freq y.val) s) := by
  induction y using nextSym_induction generalizing ys with
  | last y hy =>
    have past : usedFrom s.freq (y.val + 1) = [] := nextSym_eq_none hy ▸ usedFrom_alph s.freq
    have visit := reaches_visited (s := withLeaves (.buildLeaf y) ys s) alone rfl
    rw [visited_withLeaves bound, buildNext, hy] at visit
    rwa [usedFrom_eq_append, past, List.append_nil]
  | more y z hz ih =>
    have visit := reaches_visited (s := withLeaves (.buildLeaf y) ys s) alone rfl
    rw [visited_withLeaves bound, buildNext, hz] at visit
    have further : (ys ++ usedAt s.freq y).length ≤ z.val := by
      have := length_usedAt_le s.freq y
      rw [List.length_append, nextSym_eq_some hz]
      omega
    rw [usedFrom_eq_append, ← List.append_assoc, ← nextSym_eq_some hz]
    exact visit.trans (ih further)

/-- BUILD_LEAVES starts with no leaf and visits every symbol. -/
theorem reaches_allLeaves {s : State} (alone : undisturbed s) (place : s.seq = .buildClear) :
    Reaches s (leavesDone (usedSymbols s.freq) s) := by
  have start : buildClear s = withLeaves (.buildLeaf 0) [] s := by
    rw [buildClear, withLeaves, leafNodes_nil]
    rfl
  have run := reaches_leavesDone alone 0 (ys := []) (Nat.zero_le _)
  rw [List.nil_append, Fin.val_zero, usedFrom_zero] at run
  exact (reaches_move alone place nofun (congrArg _ start)).trans run

theorem toNat_nleaf_leavesDone {ys : List Sym} (h : ys.length ≤ Config.alph) (s : State) :
    (leavesDone ys s).nleaf.toNat = ys.length := by
  have limit : ys.length ≤ 257 := h
  exact Nat.mod_eq_of_lt (by omega)

theorem toNat_next_leavesDone {ys : List Sym} (h : ys.length ≤ Config.alph) (s : State) :
    (leavesDone ys s).next.toNat = ys.length := by
  have limit : ys.length ≤ 257 := h
  simp only [leavesDone, BitVec.toNat_setWidth, BitVec.toNat_ofNat]
  omega

/-- Settles O46: the loop over the symbols leaves the leaves of the used ones. -/
theorem buildLeavesMakesALeafPerUsedSymbol : Obligations.BuildLeavesMakesALeafPerUsedSymbol := by
  intro s place alone
  have limit := length_usedSymbols_le s.freq
  exact ⟨_, reaches_allLeaves alone place, rfl, toNat_nleaf_leavesDone limit s, toNat_next_leavesDone limit s,
    map_val_leafQueue limit, fun _ => getElem_leafNodes_of_eq rfl, fun _ => getElem_leafNodes_of_le⟩

end Sys2Proof.Machine
end

section
/-! SUPPORT. MERGE (41_tree_builder.md R73 to R76): its steps, a round, and the forest of trees that a round keeps until
one tree is left. -/

namespace Sys2Proof.Machine

/-! ## MERGE's steps -/

section
variable {s : State} {a b i : NodeIdx} {q q' : List NodeIdx}

theorem merge_of_more (least : pqRemoveMin s.nodes s.pq = some (a, q)) (more : q ≠ []) :
    merge s = .next { s with pq := q, seq := .mergeSecond a } := by
  obtain ⟨c, q, rfl⟩ := List.exists_cons_of_ne_nil more
  rw [merge, takeMin, least]

theorem merge_of_single (single : s.pq = [a]) :
    merge s = .next { s with root := a, pq := [], seq := .codesClear 0 } := by
  have least : pqRemoveMin s.nodes s.pq = some (a, []) := by simp [single, pqRemoveMin, pqMin]
  rw [merge, takeMin, least]

theorem mergeSecond_of_some (least : pqRemoveMin s.nodes s.pq = some (b, q)) :
    mergeSecond a s = .next { s with pq := q, seq := .mergeNode a b } := by
  rw [mergeSecond, takeMin, least]

theorem mergeNode_of_eq (slot : s.next.toNat = i.val) :
    mergeNode a b s = .next { s with
      nodes := s.nodes.set i (.internal (s.nodes[a].weight + s.nodes[b].weight) a b), seq := .mergeInsert i } := by
  rw [mergeNode, arenaSlot_eq_some.mpr slot]

/-! ## A round -/

/-- `a` and `b` joined at the arena entry `i`, with `q` the other entries of PQ (R73). -/
def joined (a b i : NodeIdx) (q : List NodeIdx) (s : State) : State := { s with
  seq := .merge
  nodes := s.nodes.set i (.internal (s.nodes[a].weight + s.nodes[b].weight) a b), pq := q ++ [i], next := s.next + 1 }

/-- A round of MERGE is four steps: two removals, the new node and its insertion (R73). -/
theorem reaches_joined (alone : undisturbed s) (place : s.seq = .merge)
    (first : pqRemoveMin s.nodes s.pq = some (a, q)) (second : pqRemoveMin s.nodes q = some (b, q'))
    (slot : s.next.toNat = i.val) : Reaches s (joined a b i q' s) := by
  have more : q ≠ [] := fun empty => by simp [pqRemoveMin_eq_none.mpr empty] at second
  have one := reaches_move alone place nofun (merge_of_more first more)
  have both := one.trans (reaches_move alone rfl nofun (mergeSecond_of_some second))
  have made := both.trans (reaches_move alone rfl nofun (mergeNode_of_eq slot))
  exact made.trans (reaches_move alone rfl nofun rfl)

end

/-- Settles O48: each of MERGE's steps, and the round that they make up. -/
theorem mergeRoundJoinsTheTwoLeast : Obligations.MergeRoundJoinsTheTwoLeast := by
  intro s
  constructor
  · intro turn
    obtain ⟨k, taken, move⟩ := step_engineMove turn
    rw [taken, move]
    refine ⟨fun a q place least more => ?_, fun a b q place least => ?_, fun a b i place slot => ?_,
      fun i place => ?_, fun a place single => ?_⟩ <;> rw [place]
    · exact merge_of_more (s := { s with host := k }) least more
    · exact mergeSecond_of_some (s := { s with host := k }) least
    · exact mergeNode_of_eq (s := { s with host := k }) slot
    · rfl
    · exact merge_of_single (s := { s with host := k }) single
  · intro alone place a b i q q' first second slot
    simpa only [joined, ← place] using reaches_joined alone place first second slot

/-! ## The weight of a tree -/

/-- The sum of the counts of `ys` (R76). -/
def countSum (freq : Vector Weight Config.alph) (ys : List Sym) : Nat := (ys.map fun y => freq[y].toNat).sum

theorem countSum_append (freq : Vector Weight Config.alph) (ys zs : List Sym) :
    countSum freq (ys ++ zs) = countSum freq ys + countSum freq zs := by simp [countSum]

theorem countSum_perm {freq : Vector Weight Config.alph} {ys zs : List Sym} (h : ys.Perm zs) :
    countSum freq ys = countSum freq zs := (h.map _).sum_eq

/-- The symbols left out count 0 (R71). -/
theorem countSum_usedSymbols (freq : Vector Weight Config.alph) :
    countSum freq (usedSymbols freq) = countSum freq (List.finRange Config.alph) := by
  unfold usedSymbols
  induction List.finRange Config.alph with
  | nil => rfl
  | cons y ys ih =>
    by_cases count : freq[y] = 0
    · have zero : freq[y].toNat = 0 := by rw [count]; rfl
      rw [List.filter_cons_of_neg (by simpa using count), ih]
      simp only [countSum, List.map_cons, List.sum_cons, zero, Nat.zero_add]
    · rw [List.filter_cons_of_pos (by simpa using count)]
      simp only [countSum, List.map_cons, List.sum_cons] at ih ⊢
      rw [ih]

/-- A tree weighs what its symbols count (R75). -/
theorem Builds.weight_eq {freq : Vector Weight Config.alph} {nodes : Vector Node Config.nodeCap} {i : NodeIdx}
    {t : Tree} (builds : Builds nodes i t) (weighed : Weighed freq nodes i) :
    nodes[i].weight.toNat = countSum freq t.symbols := by
  induction builds with
  | leaf h =>
    cases weighed with
    | leaf k =>
      rw [h, Node.leaf.injEq] at k
      obtain ⟨rfl, rfl⟩ := k
      rw [h, Node.weight, Tree.symbols, countSum, List.map_singleton, List.sum_singleton]
    | node k => rw [h] at k; cases k
  | node h _ _ ihl ihr =>
    cases weighed with
    | leaf k => rw [h] at k; cases k
    | node k sum hl hr =>
      rw [h] at k
      cases k
      rw [h, Node.weight, sum, ihl hl, ihr hr, Tree.symbols, countSum_append]

/-! ## Trees in an arena that grows -/

theorem Builds.agree {W : Set NodeIdx} {n m : Vector Node Config.nodeCap} (agree : Agree W n m) {i : NodeIdx} {t : Tree}
    (builds : Builds n i t) (hi : i ∈ W) : Builds m i t := by
  induction builds with
  | leaf h => exact .leaf ((agree _ hi).1 ▸ h)
  | node h _ _ ihl ihr =>
    obtain ⟨hl, hr⟩ := agree.children hi h
    exact .node ((agree _ hi).1 ▸ h) (ihl hl) (ihr hr)

theorem Weighed.agree {freq : Vector Weight Config.alph} {W : Set NodeIdx} {n m : Vector Node Config.nodeCap}
    (agree : Agree W n m) {i : NodeIdx} (weighed : Weighed freq n i) (hi : i ∈ W) : Weighed freq m i := by
  induction weighed with
  | leaf h => exact .leaf ((agree _ hi).1 ▸ h)
  | node h sum _ _ ihl ihr =>
    obtain ⟨hl, hr⟩ := agree.children hi h
    exact .node ((agree _ hi).1 ▸ h) ((agree _ hl).1 ▸ (agree _ hr).1 ▸ sum) (ihl hl) (ihr hr)

/-- A right tree of the arena: its shape and symbols, and its weights (R75). -/
structure Rooted (freq : Vector Weight Config.alph) (nodes : Vector Node Config.nodeCap) (i : NodeIdx) (t : Tree) :
    Prop where
  builds : Builds nodes i t
  weighed : Weighed freq nodes i

theorem Rooted.agree {freq : Vector Weight Config.alph} {W : Set NodeIdx} {n m : Vector Node Config.nodeCap}
    (agree : Agree W n m) {i : NodeIdx} {t : Tree} (h : Rooted freq n i t) (hi : i ∈ W) : Rooted freq m i t :=
  ⟨h.builds.agree agree hi, h.weighed.agree agree hi⟩

/-- The children of the entries before `n` stand before their parents (R75). -/
def Ordered (nodes : Vector Node Config.nodeCap) (n : Nat) : Prop :=
  ∀ (i l r : NodeIdx) (w : Weight), i.val < n → nodes[i] = .internal w l r → l.val < i.val ∧ r.val < i.val

section
variable {freq : Vector Weight Config.alph} {nodes : Vector Node Config.nodeCap} {i a b : NodeIdx}

theorem Ordered.agree (h : Ordered nodes i.val) (x : Node) : Agree {j | j < i} nodes (nodes.set i x) := by
  intro j hj
  have other : i.val ≠ j.val := (Fin.lt_def.mp hj).ne'
  refine ⟨(Vector.getElem_set_ne i.isLt j.isLt other).symm, fun t c child => ?_⟩
  cases node : nodes[j] with
  | leaf y w => rw [node] at child; cases child
  | internal w l r =>
    obtain ⟨hl, hr⟩ := h j l r w hj node
    rw [node] at child
    exact child_internal (W := {j | j < i}) (hl.trans hj) (hr.trans hj) t c child

theorem Ordered.set_internal (h : Ordered nodes i.val) (ha : a < i) (hb : b < i) (w : Weight) :
    Ordered (nodes.set i (.internal w a b)) (i.val + 1) := by
  intro j l r v hj node
  obtain hlt | heq := Nat.lt_succ_iff_lt_or_eq.mp hj
  · rw [← (h.agree _ j hlt).1] at node
    exact h j l r v hlt node
  · obtain rfl := Fin.ext heq
    have made : Node.internal w a b = .internal v l r := (Vector.getElem_set_self j.isLt).symm.trans node
    cases made
    exact ⟨ha, hb⟩

/-- Two right trees joined at a new entry are a right tree, where the sum of their weights fits (R73, R76). -/
theorem Rooted.join {l r : Tree} (h : Ordered nodes i.val) (ha : a < i) (hb : b < i) (left : Rooted freq nodes a l)
    (right : Rooted freq nodes b r) (fits : countSum freq l.symbols + countSum freq r.symbols < 2 ^ 32) :
    Rooted freq (nodes.set i (.internal (nodes[a].weight + nodes[b].weight) a b)) i (.node l r) := by
  have agree := h.agree (.internal (nodes[a].weight + nodes[b].weight) a b)
  obtain ⟨leftBuilds, leftWeighed⟩ := left.agree agree ha
  obtain ⟨rightBuilds, rightWeighed⟩ := right.agree agree hb
  refine ⟨.node (Vector.getElem_set_self i.isLt) leftBuilds rightBuilds,
    .node (Vector.getElem_set_self i.isLt) ?_ leftWeighed rightWeighed⟩
  rw [← (agree a ha).1, ← (agree b hb).1, BitVec.toNat_add_of_lt]
  rwa [left.builds.weight_eq left.weighed, right.builds.weight_eq right.weighed]

end

/-! ## The forest -/

/-- MERGE with the trees `ts` in PQ (R73, R75): each entry of PQ is the root of a right tree and stands before NEXT, and
the arena entry made last is one of them; children stand before their parents; the trees' leaves are the used symbols;
and every round to come, one per tree but the last, has an arena entry of the 2L - 1 left. -/
structure Forest (s : State) (ts : List Tree) : Prop where
  roots : List.Forall₂ (Rooted s.freq s.nodes) s.pq ts
  below : ∀ i ∈ s.pq, i.val < s.next.toNat
  newest : ∃ i ∈ s.pq, i.val + 1 = s.next.toNat
  ordered : Ordered s.nodes s.next.toNat
  symbols : (ts.flatMap Tree.symbols).Perm (usedSymbols s.freq)
  size : s.next.toNat + ts.length = 2 * (usedSymbols s.freq).length

/-- A removal takes an entry out and leaves the others, in whatever order. -/
theorem perm_of_pqRemoveMin {nodes : Vector Node Config.nodeCap} {q q' : List NodeIdx} {a : NodeIdx}
    (h : pqRemoveMin nodes q = some (a, q')) : q.Perm (a :: q') := by
  obtain ⟨least, rfl⟩ := pqRemoveMin_eq_some.mp h
  exact List.perm_cons_erase (pqMin_mem least)

theorem exists_pqRemoveMin {q : List NodeIdx} (h : q ≠ []) (nodes : Vector Node Config.nodeCap) :
    ∃ a q', pqRemoveMin nodes q = some (a, q') := by
  obtain ⟨⟨a, q'⟩, taken⟩ := Option.ne_none_iff_exists'.mp (mt pqRemoveMin_eq_none.mp h)
  exact ⟨a, q', taken⟩

/-- A round keeps the forest, with one tree less, as long as the counts' sum fits in a weight (R73, R76). -/
theorem Forest.joined {s : State} {ts : List Tree} (h : Forest s ts) {a b i : NodeIdx} {q q' : List NodeIdx}
    (first : pqRemoveMin s.nodes s.pq = some (a, q)) (second : pqRemoveMin s.nodes q = some (b, q'))
    (slot : s.next.toNat = i.val) (fits : countSum s.freq (usedSymbols s.freq) < 2 ^ 32) :
    ∃ us, us.length + 1 = ts.length ∧ Forest (joined a b i q' s) us := by
  obtain ⟨roots, below, -, ordered, symbols, size⟩ := h
  rw [slot] at ordered below size
  have entries : s.pq.Perm (a :: b :: q') :=
    (perm_of_pqRemoveMin first).trans ((perm_of_pqRemoveMin second).cons a)
  obtain ⟨us, splitRoots, trees⟩ := List.perm_comp_forall₂ entries.symm roots
  obtain ⟨ha, hb, hq⟩ : a < i ∧ b < i ∧ ∀ j ∈ q', j < i := by
    simpa using fun j (hj : j ∈ a :: b :: q') => below j (entries.mem_iff.mpr hj)
  obtain ⟨l, _, left, tail, rfl⟩ := List.forall₂_cons_left_iff.mp splitRoots
  obtain ⟨r, us, right, rest, rfl⟩ := List.forall₂_cons_left_iff.mp tail
  have leaves : ((l :: r :: us).flatMap Tree.symbols).Perm (usedSymbols s.freq) := (trees.flatMap_right _).trans symbols
  have room : countSum s.freq l.symbols + countSum s.freq r.symbols < 2 ^ 32 := by
    rw [← countSum_perm leaves] at fits
    simp only [List.flatMap_cons, countSum_append] at fits
    omega
  have next : (s.next + 1).toNat = i.val + 1 := (next_add_one slot).trans (congrArg _ slot)
  refine ⟨us ++ [.node l r], ?length, ?roots, ?below, ?newest, ?ordered, ?symbols, ?size⟩
  case length => simp [← trees.length_eq]
  case roots =>
    have kept := (List.forall₂_and_left _ _).mpr ⟨hq, rest⟩
    refine List.rel_append (kept.imp fun j t ⟨hj, root⟩ => root.agree (ordered.agree _) hj) (.cons ?_ .nil)
    exact Rooted.join ordered ha hb left right room
  case below =>
    intro j hj
    show j.val < (s.next + 1).toNat
    rw [next]
    obtain hj | hj := List.mem_append.mp hj
    · exact Nat.lt_succ_of_lt (hq j hj)
    · exact List.mem_singleton.mp hj ▸ Nat.lt_succ_self _
  case newest => exact ⟨i, List.mem_append_right _ List.mem_cons_self, next.symm⟩
  case ordered =>
    show Ordered _ (s.next + 1).toNat
    rw [next]
    exact ordered.set_internal ha hb _
  case symbols =>
    rw [List.flatMap_append, List.flatMap_singleton]
    refine List.perm_append_comm.trans (.trans (.of_eq ?_) leaves)
    simp [Tree.symbols]
  case size =>
    show (s.next + 1).toNat + (us ++ [_]).length = 2 * (usedSymbols s.freq).length
    rw [← trees.length_eq] at size
    simp only [List.length_cons, List.length_append, List.length_nil] at size ⊢
    omega

/-- With two trees or more there is a round to run, and an arena entry for it (R73, R75). -/
theorem Forest.reaches_joined {s : State} {ts : List Tree} (h : Forest s ts) (many : 2 ≤ ts.length)
    (alone : undisturbed s) (place : s.seq = .merge) (fits : countSum s.freq (usedSymbols s.freq) < 2 ^ 32) :
    ∃ a b i q us, Reaches s (Machine.joined a b i q s) ∧ us.length + 1 = ts.length ∧
      Forest (Machine.joined a b i q s) us := by
  have entries := h.roots.length_eq
  have size := h.size
  have limit : (usedSymbols s.freq).length ≤ 257 := length_usedSymbols_le s.freq
  have room : s.next.toNat < 513 := by omega
  obtain ⟨a, q, first⟩ := exists_pqRemoveMin (q := s.pq) (List.ne_nil_of_length_pos (by omega)) s.nodes
  have one := pqRemoveMin_length first
  obtain ⟨b, q', second⟩ := exists_pqRemoveMin (q := q) (List.ne_nil_of_length_pos (by omega)) s.nodes
  obtain ⟨us, fewer, forest⟩ := h.joined first second (i := ⟨_, room⟩) rfl fits
  exact ⟨a, b, _, q', us, Machine.reaches_joined alone place first second rfl, fewer, forest⟩

/-- MERGE goes on until one tree is left (R73). -/
theorem Forest.reaches_single {n : Nat} {s : State} {ts : List Tree} (h : Forest s ts) (count : ts.length = n + 1)
    (alone : undisturbed s) (place : s.seq = .merge) (fits : countSum s.freq (usedSymbols s.freq) < 2 ^ 32) :
    ∃ (u : State) (t : Tree), Reaches s u ∧ Forest u [t] ∧
      u = { s with nodes := u.nodes, pq := u.pq, next := u.next } := by
  induction n generalizing s ts with
  | zero =>
    obtain ⟨t, rfl⟩ := List.length_eq_one_iff.mp count
    exact ⟨s, t, .refl s, h, rfl⟩
  | succ n ih =>
    obtain ⟨a, b, i, q, us, round, fewer, forest⟩ := h.reaches_joined (by omega) alone place fits
    obtain ⟨u, t, run, single, same⟩ := ih forest (by omega) alone rfl fits
    refine ⟨u, t, round.trans run, single, same.trans ?_⟩
    rw [Machine.joined, ← place]

/-- The tree left at last is taken out as ROOT (R73, R74). -/
theorem Forest.reaches_root {s : State} {ts : List Tree} (h : Forest s ts) (some : ts ≠ []) (alone : undisturbed s)
    (place : s.seq = .merge) (fits : countSum s.freq (usedSymbols s.freq) < 2 ^ 32) :
    ∃ (u : State) (root : NodeIdx) (t : Tree), Reaches s { u with root := root, pq := [], seq := .codesClear 0 } ∧
      u.pq = [root] ∧ Forest u [t] ∧ u = { s with nodes := u.nodes, pq := u.pq, next := u.next } := by
  obtain ⟨n, count⟩ := Nat.exists_eq_add_one_of_ne_zero (List.length_pos_iff.mpr some).ne'
  obtain ⟨u, t, run, single, same⟩ := h.reaches_single count alone place fits
  obtain ⟨root, pq⟩ := List.length_eq_one_iff.mp single.roots.length_eq
  have aloneStill : undisturbed u := by rw [same]; exact alone
  have placeStill : u.seq = .merge := by rw [same]; exact place
  exact ⟨u, root, t, run.trans (reaches_move aloneStill placeStill nofun (merge_of_single pq)), pq, single, same⟩

/-! ## The leaves as a forest -/

theorem Tree.length_symbols (t : Tree) : t.symbols.length = t.leafCount := by
  induction t with
  | leaf y => rfl
  | node l r ihl ihr => rw [Tree.symbols, List.length_append, ihl, ihr, Tree.leafCount]

theorem mem_usedSymbols {freq : Vector Weight Config.alph} {y : Sym} : y ∈ usedSymbols freq ↔ freq[y] ≠ 0 := by
  simp [usedSymbols]

/-- BUILD_LEAVES leaves one tree of one leaf per used symbol (R71). -/
theorem forest_leavesDone {s : State} (used : usedSymbols s.freq ≠ []) :
    Forest (leavesDone (usedSymbols s.freq) s) ((usedSymbols s.freq).map .leaf) := by
  have limit := length_usedSymbols_le s.freq
  have next := toNat_next_leavesDone limit s
  have positive := List.length_pos_iff.mpr used
  have entries : ∀ n, n < (usedSymbols s.freq).length ↔ ∃ i ∈ leafQueue (usedSymbols s.freq).length, i.val = n := by
    intro n
    rw [← List.mem_range, ← map_val_leafQueue limit, List.mem_map]
  refine ⟨?roots, ?below, ?newest, ?ordered, ?symbols, ?size⟩
  case roots =>
    show List.Forall₂ _ (leafQueue _) _
    rw [leafQueue, List.forall₂_map_left_iff, List.forall₂_map_right_iff]
    refine List.forall₂_iff_get.mpr ⟨List.length_range, fun k hk hy => ?_⟩
    rw [List.get_eq_getElem, List.get_eq_getElem, List.getElem_range]
    have slot : (leafSlot (BitVec.ofNat 9 k)).val = k :=
      val_leafSlot_ofNat (hy.trans_le (limit.trans (by decide)))
    have leaf := getElem_leafNodes_of_eq (freq := s.freq) (nodes := s.nodes) slot hy
    exact ⟨.leaf leaf, .leaf leaf⟩
  case below => exact fun i hi => next ▸ (entries i.val).mpr ⟨i, hi, rfl⟩
  case newest =>
    obtain ⟨i, hi, last⟩ := (entries ((usedSymbols s.freq).length - 1)).mp (by omega)
    exact ⟨i, hi, by omega⟩
  case ordered =>
    intro i l r w hi node
    rw [next] at hi
    have leaf := getElem_leafNodes_of_eq (freq := s.freq) (nodes := s.nodes) rfl hi
    exact absurd (leaf.symm.trans node) nofun
  case symbols => simp [List.flatMap_map, Tree.symbols, leavesDone, withLeaves]
  case size =>
    rw [next, List.length_map, Nat.two_mul]
    rfl

/-- BUILD_LEAVES in a run: MERGE is reached with the forest of the leaves, and NLEAF their number (R71). -/
theorem reaches_forest {s : State} (alone : undisturbed s) (place : s.seq = .buildClear)
    (used : usedSymbols s.freq ≠ []) :
    ∃ m : State, Reaches s m ∧ Forest m ((usedSymbols s.freq).map .leaf) ∧
      m.nleaf.toNat = (usedSymbols s.freq).length ∧
      m = { s with seq := .merge, nodes := m.nodes, pq := m.pq, nleaf := m.nleaf, next := m.next } :=
  ⟨_, reaches_allLeaves alone place, forest_leavesDone used, toNat_nleaf_leavesDone (length_usedSymbols_le _) s, rfl⟩

/-- Settles O49: the leaves are a forest, every round of MERGE keeps one, and its last tree is the one at ROOT. -/
theorem buildMakesAFullBinaryTreeWithRightWeights : Obligations.BuildMakesAFullBinaryTreeWithRightWeights := by
  intro s place alone sentinel fits
  have total := countSum_usedSymbols s.freq
  have room := total.trans_lt fits
  have used : usedSymbols s.freq ≠ [] := by
    refine List.ne_nil_of_mem (mem_usedSymbols.mpr (sentinel.trans_ne ?_))
    decide
  obtain ⟨m, toMerge, leaves, nleaf, start⟩ := reaches_forest alone place used
  have freq : m.freq = s.freq := by rw [start]
  have aloneStill : undisturbed m := by rw [start]; exact alone
  obtain ⟨u, root, tree, merged, pq, forest, same⟩ :=
    leaves.reaches_root (by simpa using used) aloneStill (by rw [start]) (freq ▸ room)
  have freqStill : u.freq = s.freq := by rw [same]; exact freq
  obtain ⟨roots, -, newest, ordered, symbols, size⟩ := forest
  rw [pq, freqStill] at roots
  obtain ⟨⟨builds, weighed⟩, -⟩ := List.forall₂_cons.mp roots
  rw [List.flatMap_singleton, freqStill] at symbols
  have count : tree.leafCount = (usedSymbols s.freq).length := by rw [← Tree.length_symbols, symbols.length_eq]
  have last : root.val + 1 = u.next.toNat := by simpa [pq] using newest
  rw [freqStill, ← count, List.length_singleton] at size
  refine ⟨{ u with root := root, pq := [], seq := .codesClear 0 }, tree, toMerge.trans merged, ?frame, builds, symbols,
    weighed, ?weight, ?nleaf, ?next, ?root, ordered⟩
  case frame => rw [same, start]
  case weight => exact (builds.weight_eq weighed).trans ((countSum_perm symbols).trans total)
  case nleaf => rw [count, ← nleaf, same]
  case next => exact Nat.eq_sub_of_add_eq size
  case root =>
    show root.val = 2 * tree.leafCount - 2
    omega

end Sys2Proof.Machine
end

section
/-! SUPPORT. An entry of the code table after `assign` (42_code_table.md R78), and a table after a list of them. -/

namespace Sys2Proof.Machine

/-! ## One entry -/

/-- Bit `k` of the word is bit `k` of the path; past the path it is 0 (R26). -/
theorem testBit_pathWord (p : Bits) (k : Nat) : (pathWord p).testBit k = p[k]?.getD false := by
  induction p generalizing k with
  | nil => simp [pathWord]
  | cons b p ih =>
    cases k with
    | zero => cases b <;> simp [pathWord, Nat.testBit_zero]
    | succ k =>
      have half : (b.toNat + 2 * pathWord p) / 2 = pathWord p := by
        have := b.toNat_le
        omega
      rw [pathWord, Nat.testBit_succ, half, ih, List.getElem?_cons_succ]

@[simp] theorem valid_assign (c : Code) (p : Bits) : (c.assign p).valid = true := rfl

section
variable {p : Bits} (fits : p.length ≤ Config.maxCodeLen)
include fits

theorem toNat_len_assign (c : Code) : (c.assign p).len.toNat = p.length := by
  have room : Config.maxCodeLen < 2 ^ 9 := by decide
  rw [Code.assign, BitVec.toNat_ofNat, Nat.mod_eq_of_lt (by omega)]

/-- The path's bits are written, and the bits past them stay (R78). -/
theorem getLsbD_bits_assign (c : Code) (k : Nat) :
    (c.assign p).bits.getLsbD k = p[k]?.getD (c.bits.getLsbD k) := by
  simp only [Code.assign, BitVec.getLsbD_or, BitVec.getLsbD_shiftLeft, BitVec.getLsbD_ushiftRight,
    BitVec.getLsbD_ofNat, testBit_pathWord]
  by_cases inside : k < p.length
  · simp [inside, inside.trans_le fits]
  · rw [Nat.not_lt] at inside
    have same : p.length + (k - p.length) = k := Nat.add_sub_cancel' inside
    by_cases word : k < Config.maxCodeLen
    · simp [inside, word, same]
    · simp [inside, word, BitVec.getLsbD_of_ge c.bits k (Nat.not_lt.mp word)]

theorem path_assign (c : Code) : (c.assign p).path = p := by
  apply List.ext_getElem
  · rw [Code.path, List.length_map, List.length_range, toNat_len_assign fits]
  · intro k _ hk
    simp [Code.path, getLsbD_bits_assign fits, hk]

end

/-! ## Several entries -/

/-- The code table after `assign(s, p)` for each pair of the list, in its order (R78). -/
def assignAll (l : List (Sym × Bits)) (codes : Vector Code Config.alph) : Vector Code Config.alph :=
  l.foldl (fun table e => table.set e.1 (table[e.1].assign e.2)) codes

theorem assignAll_append (k l : List (Sym × Bits)) (codes : Vector Code Config.alph) :
    assignAll (k ++ l) codes = assignAll l (assignAll k codes) :=
  List.foldl_append

/-- An entry that no pair names stays. -/
theorem getElem_assignAll_of_notMem {l : List (Sym × Bits)} {y : Sym} (h : y ∉ l.map Prod.fst)
    (codes : Vector Code Config.alph) : (assignAll l codes)[y] = codes[y] := by
  induction l generalizing codes with
  | nil => rfl
  | cons e l ih =>
    obtain ⟨other, rest⟩ := not_or.mp (mt List.mem_cons.mpr h)
    have apart : e.1.val ≠ y.val := fun same => other (Fin.ext same.symm)
    exact (ih rest _).trans (Vector.getElem_set_ne e.1.isLt y.isLt apart)

/-- An entry that one pair names gets that pair's code. -/
theorem getElem_assignAll_of_mem {l : List (Sym × Bits)} (distinct : (l.map Prod.fst).Nodup) {y : Sym} {p : Bits}
    (h : (y, p) ∈ l) (codes : Vector Code Config.alph) : (assignAll l codes)[y] = codes[y].assign p := by
  induction l generalizing codes with
  | nil => cases h
  | cons e l ih =>
    obtain ⟨fresh, distinct⟩ := List.nodup_cons.mp distinct
    obtain rfl | later := List.mem_cons.mp h
    · exact (getElem_assignAll_of_notMem fresh _).trans (Vector.getElem_set_self y.isLt)
    · have apart : e.1.val ≠ y.val := fun same => fresh (Fin.ext same ▸ List.mem_map_of_mem (f := Prod.fst) later)
      refine (ih distinct later _).trans (congrArg (Code.assign · p) ?_)
      exact Vector.getElem_set_ne e.1.isLt y.isLt apart

end Sys2Proof.Machine
end

section
/-! SUPPORT. The paths and codes of a tree (42_code_table.md R78, R79): their symbols, their lengths, and that no
code starts another and together they fill the code space (R81); and the code table that holds them. -/

namespace Sys2Proof.Machine

/-! ## Paths -/

theorem Tree.mem_paths_leaf {y z : Sym} {p : Bits} : (y, p) ∈ (Tree.leaf z).paths ↔ y = z ∧ p = [] := by
  simp [paths]

theorem Tree.mem_paths_node {l r : Tree} {y : Sym} {p : Bits} :
    (y, p) ∈ (Tree.node l r).paths ↔
      (∃ q, (y, q) ∈ l.paths ∧ p = false :: q) ∨ ∃ q, (y, q) ∈ r.paths ∧ p = true :: q := by
  simp [paths, eq_comm]

@[simp] theorem Tree.map_fst_paths (t : Tree) : t.paths.map Prod.fst = t.symbols := by
  induction t with
  | leaf y => rfl
  | node l r ihl ihr => simpa [paths, symbols, Function.comp_def] using congrArg₂ (· ++ ·) ihl ihr

/-- Each bit of a path leaves an internal node (R80). -/
theorem Tree.length_le_of_mem_paths {t : Tree} {y : Sym} {p : Bits} (h : (y, p) ∈ t.paths) :
    p.length ≤ t.internalCount := by
  induction t generalizing p with
  | leaf z =>
    obtain ⟨-, rfl⟩ := mem_paths_leaf.mp h
    exact Nat.le_refl 0
  | node l r ihl ihr =>
    obtain ⟨q, hq, rfl⟩ | ⟨q, hq, rfl⟩ := mem_paths_node.mp h
    · exact Nat.succ_le_succ ((ihl hq).trans (Nat.le_add_right _ _))
    · exact Nat.succ_le_succ ((ihr hq).trans (Nat.le_add_left _ _))

/-- Of two leaves the paths part where the tree parts them (R81). -/
theorem Tree.eq_of_prefix_paths {t : Tree} {y z : Sym} {p q : Bits} (hy : (y, p) ∈ t.paths) (hz : (z, q) ∈ t.paths)
    (h : p <+: q) : y = z := by
  induction t generalizing p q with
  | leaf x => exact (mem_paths_leaf.mp hy).1.trans (mem_paths_leaf.mp hz).1.symm
  | node l r ihl ihr =>
    obtain ⟨p, hp, rfl⟩ | ⟨p, hp, rfl⟩ := mem_paths_node.mp hy <;>
      obtain ⟨q, hq, rfl⟩ | ⟨q, hq, rfl⟩ := mem_paths_node.mp hz <;>
      obtain ⟨side, h⟩ := List.cons_prefix_cons.mp h
    · exact ihl hp hq h
    · cases side
    · cases side
    · exact ihr hp hq h

/-- The share of the code space that a list of codes takes (R81). -/
def kraftSum (l : List (Sym × Bits)) : ℚ := (l.map fun e => (1 / 2 : ℚ) ^ e.2.length).sum

theorem kraftSum_append (k l : List (Sym × Bits)) : kraftSum (k ++ l) = kraftSum k + kraftSum l := by
  simp [kraftSum]

/-- One bit more before every code halves the share. -/
theorem kraftSum_map_cons (b : Bool) (l : List (Sym × Bits)) :
    kraftSum (l.map fun e => (e.1, b :: e.2)) = 1 / 2 * kraftSum l := by
  simp only [kraftSum, List.map_map, Function.comp_def, List.length_cons, pow_succ', List.sum_map_mul_left]

theorem Tree.kraftSum_paths (t : Tree) : kraftSum t.paths = 1 := by
  induction t with
  | leaf y => simp [kraftSum, paths]
  | node l r ihl ihr =>
    rw [paths, kraftSum_append, kraftSum_map_cons, kraftSum_map_cons, ihl, ihr]
    norm_num

/-! ## Codes -/

theorem Tree.mem_codes_leaf {y z : Sym} {p : Bits} : (y, p) ∈ (Tree.leaf z).codes ↔ y = z ∧ p = [false] := by
  simp [codes]

@[simp] theorem Tree.map_fst_codes (t : Tree) : t.codes.map Prod.fst = t.symbols := by
  cases t with
  | leaf y => rfl
  | node l r => exact map_fst_paths _

theorem Tree.exists_mem_codes {t : Tree} {y : Sym} : (∃ p, (y, p) ∈ t.codes) ↔ y ∈ t.symbols := by
  rw [← map_fst_codes, List.mem_map]
  exact ⟨fun ⟨p, h⟩ => ⟨(y, p), h, rfl⟩, fun ⟨(_, p), h, same⟩ => ⟨p, same ▸ h⟩⟩

theorem Tree.leafCount_pos (t : Tree) : 0 < t.leafCount := t.internalCount_add_one ▸ Nat.succ_pos _

/-- A tree of two leaves or more has an internal node at its root, and its codes are its paths (R78). -/
theorem Tree.codes_eq_paths {t : Tree} (many : 2 ≤ t.leafCount) : t.codes = t.paths := by
  cases t with
  | leaf y => exact absurd many (by simp [leafCount])
  | node l r => rfl

/-- A tree of one leaf is that leaf (R79). -/
theorem Tree.eq_leaf_of_leafCount {t : Tree} (single : t.leafCount = 1) : ∃ y, t = .leaf y := by
  cases t with
  | leaf y => exact ⟨y, rfl⟩
  | node l r =>
    have := l.leafCount_pos
    have := r.leafCount_pos
    rw [leafCount] at single
    omega

theorem Tree.length_pos_of_mem_codes {t : Tree} {y : Sym} {p : Bits} (h : (y, p) ∈ t.codes) : 1 ≤ p.length := by
  cases t with
  | leaf z => exact (mem_codes_leaf.mp h).2 ▸ Nat.le_refl 1
  | node l r =>
    obtain ⟨q, -, rfl⟩ | ⟨q, -, rfl⟩ := mem_paths_node.mp h <;> exact Nat.succ_pos _

theorem Tree.length_le_of_mem_codes {t : Tree} {y : Sym} {p : Bits} (h : (y, p) ∈ t.codes) :
    p.length ≤ max 1 (t.leafCount - 1) := by
  cases t with
  | leaf z => exact (mem_codes_leaf.mp h).2 ▸ le_max_left 1 _
  | node l r =>
    rw [← internalCount_add_one, Nat.add_sub_cancel]
    exact (length_le_of_mem_paths h).trans (le_max_right _ _)

/-- There are no more leaves than symbols. -/
theorem Tree.leafCount_le {t : Tree} (distinct : t.symbols.Nodup) : t.leafCount ≤ Config.alph := by
  rw [← length_symbols]
  exact distinct.length_le_card.trans (Fintype.card_fin _).le

/-- Every code of a tree of distinct symbols fits in CBITS (R80). -/
theorem Tree.length_le_maxCodeLen {t : Tree} (distinct : t.symbols.Nodup) {y : Sym} {p : Bits}
    (h : (y, p) ∈ t.codes) : p.length ≤ Config.maxCodeLen := by
  have bound := length_le_of_mem_codes h
  have leaves : t.leafCount ≤ 257 := leafCount_le distinct
  show p.length ≤ 256
  omega

/-- No symbol's code starts another symbol's (R81). -/
theorem Tree.eq_of_prefix_codes {t : Tree} {y z : Sym} {p q : Bits} (hy : (y, p) ∈ t.codes) (hz : (z, q) ∈ t.codes)
    (h : p <+: q) : y = z := by
  cases t with
  | leaf x => exact (mem_codes_leaf.mp hy).1.trans (mem_codes_leaf.mp hz).1.symm
  | node l r => exact eq_of_prefix_paths hy hz h

/-! ## The code table of a tree -/

/-- The cleared code table (R78). -/
def emptyCodes : Vector Code Config.alph := .replicate _ Code.empty

@[simp] theorem getElem_emptyCodes (y : Sym) : emptyCodes[y] = Code.empty := Vector.getElem_replicate y.isLt

theorem emptyCodes_set (y : Sym) : emptyCodes.set y Code.empty = emptyCodes :=
  getElem_emptyCodes y ▸ Vector.set_getElem_self y.isLt

/-- The code table with the tree's codes and no other (R78, R79). -/
def codeTable (t : Tree) : Vector Code Config.alph := assignAll t.codes emptyCodes

section
variable {t : Tree} (distinct : t.symbols.Nodup) {y : Sym} {p : Bits}

theorem getElem_codeTable_of_notMem (h : y ∉ t.symbols) : (codeTable t)[y] = Code.empty :=
  (getElem_assignAll_of_notMem (t.map_fst_codes ▸ h) _).trans (getElem_emptyCodes y)

include distinct

theorem getElem_codeTable_of_mem (h : (y, p) ∈ t.codes) : (codeTable t)[y] = Code.empty.assign p := by
  rw [codeTable, getElem_assignAll_of_mem (t.map_fst_codes.symm ▸ distinct) h, getElem_emptyCodes]

theorem toNat_len_codeTable (h : (y, p) ∈ t.codes) : (codeTable t)[y].len.toNat = p.length := by
  rw [getElem_codeTable_of_mem distinct h, toNat_len_assign (Tree.length_le_maxCodeLen distinct h)]

theorem getLsbD_bits_codeTable (h : (y, p) ∈ t.codes) (k : Nat) :
    (codeTable t)[y].bits.getLsbD k = p[k]?.getD false := by
  rw [getElem_codeTable_of_mem distinct h, getLsbD_bits_assign (Tree.length_le_maxCodeLen distinct h), Code.empty]
  exact congrArg _ BitVec.getLsbD_zero

theorem path_codeTable (h : (y, p) ∈ t.codes) : (codeTable t)[y].path = p := by
  rw [getElem_codeTable_of_mem distinct h, path_assign (Tree.length_le_maxCodeLen distinct h)]

theorem valid_codeTable : (codeTable t)[y].valid = true ↔ y ∈ t.symbols := by
  constructor
  · contrapose
    intro h
    rw [getElem_codeTable_of_notMem h]
    nofun
  · intro h
    obtain ⟨p, hp⟩ := Tree.exists_mem_codes.mpr h
    rw [getElem_codeTable_of_mem distinct hp, valid_assign]

/-- The valid symbols are the leaves' symbols, in another order. -/
theorem perm_valid_codeTable :
    ((List.finRange Config.alph).filter fun y => (codeTable t)[y].valid).Perm t.symbols := by
  refine (List.perm_ext_iff_of_nodup ((List.nodup_finRange _).filter _) distinct).mpr fun y => ?_
  rw [List.mem_filter, valid_codeTable distinct]
  exact and_iff_right (List.mem_finRange y)

/-- The table's Kraft sum is that of the tree's codes (R81). -/
theorem kraftSum_codeTable :
    (((List.finRange Config.alph).filter fun y => (codeTable t)[y].valid).map
      fun y => (1 / 2 : ℚ) ^ (codeTable t)[y].len.toNat).sum = kraftSum t.codes := by
  rw [((perm_valid_codeTable distinct).map _).sum_eq, ← t.map_fst_codes, List.map_map, kraftSum]
  refine congrArg List.sum (List.map_congr_left fun e he => ?_)
  rw [Function.comp_apply, toNat_len_codeTable distinct he]

end

end Sys2Proof.Machine
end

section
/-! SUPPORT. The run of C_CODES: the table is cleared, the tree at ROOT is walked, and the table holds the tree's codes
(42_code_table.md R78 to R81). -/

namespace Sys2Proof.Machine

/-- CODEGEN's first line clears every entry not cleared yet (R78). -/
theorem reaches_codesCleared {y : Sym} {s : State} (alone : undisturbed s) (place : s.seq = .codesClear y)
    (cleared : ∀ z < y, s.codes[z] = emptyCodes[z]) :
    Reaches s { s with codes := emptyCodes, seq := .codesStart } := by
  induction y using nextSym_induction generalizing s with
  | last y hy =>
    refine reaches_move alone place nofun ?_
    rw [engineMove, codesClear, hy, set_eq_of_last cleared _ hy, emptyCodes_set]
  | more y z hz ih =>
    have further : ∀ u < z, (s.codes.set y Code.empty)[u] = emptyCodes[u] :=
      emptyCodes_set y ▸ getElem_set_eq_of_next cleared _ hz
    have first : Reaches s { s with codes := s.codes.set y Code.empty, seq := .codesClear z } := by
      refine reaches_move alone place nofun ?_
      rw [engineMove, codesClear, hz]
    exact first.trans (ih alone rfl further)

/-! ## The walk -/

/-- The leaves' paths where the root's is `p` (R78). -/
def Tree.pathsFrom (p : Bits) (t : Tree) : List (Sym × Bits) := t.paths.map fun e => (e.1, p ++ e.2)

@[simp] theorem Tree.pathsFrom_nil (t : Tree) : t.pathsFrom [] = t.paths := List.map_id _

@[simp] theorem Tree.pathsFrom_leaf (p : Bits) (y : Sym) : (Tree.leaf y).pathsFrom p = [(y, p)] := by
  simp [pathsFrom, paths]

theorem Tree.pathsFrom_node (p : Bits) (l r : Tree) :
    (Tree.node l r).pathsFrom p = l.pathsFrom (p ++ [false]) ++ r.pathsFrom (p ++ [true]) := by
  simp [pathsFrom, paths, Function.comp_def]

theorem codesNode_of_leaf {s : State} {i : NodeIdx} {y : Sym} {w : Weight} (h : s.nodes[i] = .leaf y w) (p : Bits) :
    codesNode i p s = { assignCode y p s with seq := .codesPop } := by
  rw [codesNode, h]

theorem codesNode_of_internal {s : State} {i l r : NodeIdx} {w : Weight} (h : s.nodes[i] = .internal w l r)
    (p : Bits) :
    codesNode i p s = pushWalk { node := r, path := p ++ [true] } (.codesNode l (p ++ [false])) s := by
  rw [codesNode, h]

/-- `walk(i, p)` assigns the paths of the leaves below `i`, left to right, and leaves the walk stack as it was (R78). -/
theorem Builds.reaches_walked {nodes : Vector Node Config.nodeCap} {i : NodeIdx} {t : Tree} (builds : Builds nodes i t)
    {s : State} {p : Bits} (arena : s.nodes = nodes) (alone : undisturbed s) (place : s.seq = .codesNode i p) :
    Reaches s { s with codes := assignAll (t.pathsFrom p) s.codes, seq := .codesPop } := by
  induction builds generalizing s p with
  | leaf h =>
    rw [Tree.pathsFrom_leaf]
    exact reaches_move alone place nofun (congrArg _ (codesNode_of_leaf (arena ▸ h) p))
  | @node i l r w tl tr h _ _ ihl ihr =>
    have push : Reaches s _ := reaches_move alone place nofun (congrArg _ (codesNode_of_internal (arena ▸ h) p))
    have left := push.trans (ihl arena alone rfl)
    have pop : Reaches s { s with
        codes := assignAll (tl.pathsFrom (p ++ [false])) s.codes, seq := .codesNode r (p ++ [true]) } :=
      left.trans (reaches_move alone rfl nofun rfl)
    rw [Tree.pathsFrom_node, assignAll_append]
    exact pop.trans (ihr arena alone rfl)

theorem codesStart_of_leaf {s : State} {y : Sym} {w : Weight} (h : s.nodes[s.root] = .leaf y w) :
    codesStart s = { assignCode y [false] s with seq := .magicWrite } := by
  rw [codesStart, h]

theorem codesStart_of_internal {s : State} {l r : NodeIdx} {w : Weight} (h : s.nodes[s.root] = .internal w l r) :
    codesStart s = { s with walk := [], seq := .codesNode s.root [] } := by
  rw [codesStart, h]

/-- From CODEGEN's start at ROOT the tree's codes are assigned, a degenerate tree's included (R78, R79). -/
theorem Builds.reaches_assigned {s : State} {t : Tree} (builds : Builds s.nodes s.root t) (alone : undisturbed s)
    (place : s.seq = .codesStart) :
    ∃ w, Reaches s { s with seq := .magicWrite, codes := assignAll t.codes s.codes, walk := w } := by
  cases builds with
  | leaf h => exact ⟨s.walk, reaches_move alone place nofun (congrArg _ (codesStart_of_leaf h))⟩
  | @node _ l r w tl tr h hl hr =>
    have start : Reaches s _ := reaches_move alone place nofun (congrArg _ (codesStart_of_internal h))
    have walked := start.trans ((Builds.node h hl hr).reaches_walked rfl alone rfl)
    rw [Tree.pathsFrom_nil] at walked
    exact ⟨[], walked.trans (reaches_move alone rfl nofun rfl)⟩

/-- C_CODES leaves the code table of the tree at ROOT, and changes nothing else but the walk stack (R78, R79). -/
theorem Builds.reaches_codeTable {s : State} {t : Tree} (builds : Builds s.nodes s.root t) (alone : undisturbed s)
    (place : s.seq = .codesClear 0) :
    ∃ w, Reaches s { s with seq := .magicWrite, codes := codeTable t, walk := w } := by
  have clear := reaches_codesCleared alone place nofun
  obtain ⟨w, assigned⟩ := Builds.reaches_assigned (s := { s with codes := emptyCodes, seq := .codesStart })
    builds alone rfl
  exact ⟨w, clear.trans assigned⟩

/-! ## The statements -/

/-- Settles O50: the run leaves the tree's code table, whose entries are the assigned codes. -/
theorem codegenRecordsThePathOfEachLeaf : Obligations.CodegenRecordsThePathOfEachLeaf := by
  intro s tree place alone builds distinct
  obtain ⟨w, run⟩ := builds.reaches_codeTable alone place
  refine ⟨_, run, rfl, ?entry, fun y h => getElem_codeTable_of_notMem h⟩
  case entry =>
    intro y p h
    refine ⟨(valid_codeTable distinct).mpr (Tree.exists_mem_codes.mp ⟨p, h⟩), toNat_len_codeTable distinct h,
      path_codeTable distinct h, fun k past => (getLsbD_bits_codeTable distinct h k).trans ?_,
      Tree.length_pos_of_mem_codes h, Tree.length_le_maxCodeLen distinct h, Tree.length_le_of_mem_codes h⟩
    rw [List.getElem?_eq_none past, Option.getD_none]

/-- Settles O51: in the tree's code table the valid codes are the tree's, which part where the tree parts and fill the
code space. -/
theorem codesArePrefixFreeAndComplete : Obligations.CodesArePrefixFreeAndComplete := by
  intro s tree place alone builds distinct
  obtain ⟨w, run⟩ := builds.reaches_codeTable alone place
  refine ⟨_, run, rfl, ?prefixFree, ?kraft, ?degenerate⟩
  case prefixFree =>
    intro y z apart hy hz inside
    obtain ⟨p, hp⟩ := Tree.exists_mem_codes.mpr ((valid_codeTable distinct).mp hy)
    obtain ⟨q, hq⟩ := Tree.exists_mem_codes.mpr ((valid_codeTable distinct).mp hz)
    rw [path_codeTable distinct hp, path_codeTable distinct hq] at inside
    exact apart (Tree.eq_of_prefix_codes hp hq inside)
  case kraft =>
    intro many
    refine (kraftSum_codeTable distinct).trans ?_
    rw [Tree.codes_eq_paths many, Tree.kraftSum_paths]
  case degenerate =>
    intro single
    obtain ⟨z, rfl⟩ := Tree.eq_leaf_of_leafCount single
    refine ⟨z, path_codeTable distinct List.mem_cons_self, fun y => ?_⟩
    exact (valid_codeTable distinct).trans List.mem_singleton

end Sys2Proof.Machine
end

section
/-! SUPPORT. The header's tokens where HSER writes and HDES reads them, one lemma per token and place
(30_encoding.md R58, 43_header_codec.md R82, R83). -/

namespace Sys2Proof.Machine

/-! ## HSER -/

section
variable {s : State} {i l r : NodeIdx} {y : Sym} {w : Weight}

theorem OutPort.append_append (p q : Bits) (o : OutPort) : (o.append p).append q = o.append (p ++ q) := by
  simp [OutPort.append]

/-- A leaf's tag and its symbol are the leaf's header (R56). -/
theorem serSym_serTag (y : Sym) (i : NodeIdx) (s : State) :
    serSym y (serTag i s) = { s with out := s.out.append (Tree.leaf y).header, seq := .headerPop } := by
  have tag : serTag i s = { s with out := s.out.append [true], seq := .headerSym i } := rfl
  rw [tag, serSym, OutPort.writeBits, OutPort.append_append]
  rfl

theorem headerNode_of_leaf (node : s.nodes[i] = .leaf y w) : engineMove s (.headerNode i) = .next (serTag i s) := by
  simp [engineMove, node, Node.isLeaf]

theorem headerNode_of_internal (node : s.nodes[i] = .internal w l r) :
    engineMove s (.headerNode i) = .next (serInternal i s) := by
  simp [engineMove, node, Node.isLeaf]

theorem headerSym_of_leaf (node : s.nodes[i] = .leaf y w) :
    engineMove s (.headerSym i) = .next (serSym y s) := by
  simp [engineMove, node, Node.isLeaf, Node.sym]

theorem headerPush_of_internal (node : s.nodes[i] = .internal w l r) :
    headerPush i s = .next (pushWalk { node := r, path := [] } (.headerNode l) s) := by
  rw [headerPush, node]

theorem exec_hdrInternal_headerNode (place : s.seq = .headerNode i) (node : s.nodes[i] = .internal w l r) :
    exec .hdrInternal s = .next (serInternal i s) := by
  simp only [exec, execHdrInternal, place, node]

/-- HSER writes the token of a leaf's own symbol. -/
theorem serLeafToken_of_leaf (node : s.nodes[i] = .leaf y w) (finish : Sym → State → State) :
    serLeafToken (symField y) i finish s = .next (finish y s) := by
  simp only [serLeafToken, node, if_true]

/-- After a leaf's tag HDR_LEAF is its symbol (R82). -/
theorem exec_hdrLeaf_after_tag (place : s.seq = .headerSym i) (node : s.nodes[i] = .leaf y w) :
    exec (.hdrLeaf (symField y)) s = .next (serSym y s) := by
  simp only [exec, execHdrLeaf, place, serLeafToken_of_leaf node]

/-- At a leaf HDR_LEAF is its tag and its symbol (R82). -/
theorem exec_hdrLeaf_headerNode (place : s.seq = .headerNode i) (node : s.nodes[i] = .leaf y w) :
    exec (.hdrLeaf (symField y)) s = .next (serSym y (serTag i s)) := by
  simp only [exec, execHdrLeaf, place, serLeafToken_of_leaf node]

end

/-! ## HDES -/

section
variable {s : State} {i : NodeIdx} {v : BitVec 9}

/-- The first 256 internal nodes go on the HDES stack (R83). -/
theorem desInternal_of_lt (room : s.nint.toNat < Config.intCap) :
    desInternal i s = { s with
      nint := s.nint + 1, hdes := { node := i, left := none } :: s.hdes, seq := .treeTag } := by
  have cap : s.nint.toNat < 256 := room
  have count : (s.nint + 1).toNat = s.nint.toNat + 1 := toNat_add_one (by omega)
  exact if_neg (by simpa only [count] using Nat.not_lt.mpr room)

/-- The 257th internal node is refused (R83). -/
theorem desInternal_of_eq (full : s.nint.toNat = Config.intCap) :
    desInternal i s = { s with nint := s.nint + 1, seq := .close .malformedHeader } := by
  have count : (s.nint + 1).toNat = s.nint.toNat + 1 := toNat_add_one (by rw [full]; decide)
  exact if_pos (by simpa only [count, full] using Nat.lt_succ_self _)

theorem treeBit_false_of_lt (slot : s.next.toNat = i.val) (room : s.nint.toNat < Config.intCap) :
    engineMove s (.treeBit false) = .next { s with
      next := s.next + 1, nint := s.nint + 1, hdes := { node := i, left := none } :: s.hdes, seq := .treeTag } :=
  (allocNode_of_eq (k := fun i s' => .next (desInternal i s')) slot).trans (congrArg _ (desInternal_of_lt room))

theorem treeBit_false_of_eq (slot : s.next.toNat = i.val) (full : s.nint.toNat = Config.intCap) :
    engineMove s (.treeBit false) = .next { s with
      next := s.next + 1, nint := s.nint + 1, seq := .close .malformedHeader } :=
  (allocNode_of_eq (k := fun i s' => .next (desInternal i s')) slot).trans (congrArg _ (desInternal_of_eq full))

theorem treeBit_true_of_eq (slot : s.next.toNat = i.val) :
    engineMove s (.treeBit true) = .next { s with next := s.next + 1, seq := .treeSym i } :=
  allocNode_of_eq (k := fun i s' => .next { s' with seq := .treeSym i }) slot

/-- A leaf's symbol, read, fills its entry (R83). -/
theorem treeLeaf_symField (i : NodeIdx) (y : Sym) (s : State) :
    engineMove s (.treeLeaf i (symField y)) = .next (desLeaf i y s) := by
  rw [engineMove, symOfField_symField, Option.elim_some]

theorem desLeafToken_symField (y : Sym) (i : NodeIdx) (s : State) :
    desLeafToken (symField y) i s = .next (desLeaf i y s) := by
  rw [desLeafToken, symOfField_symField]

/-- A leaf read is the same wherever the ENGINE stands: it goes on from the leaf. -/
theorem desLeafToken_with_seq (v : BitVec 9) (i : NodeIdx) (q : Seq) (s : State) :
    desLeafToken v i { s with seq := q } = desLeafToken v i s := by
  unfold desLeafToken
  cases symOfField v <;> rfl

theorem exec_hdrLeaf_treeLeaf (place : s.seq = .treeLeaf i v) : exec (.hdrLeaf v) s = desLeafToken v i s := by
  simp only [exec, execHdrLeaf, place, if_true]

theorem exec_hdrLeaf_treeBit (place : s.seq = .treeBit true) (slot : s.next.toNat = i.val) :
    exec (.hdrLeaf v) s = desLeafToken v i { s with next := s.next + 1 } := by
  simp only [exec, execHdrLeaf, place, allocNode_of_eq slot]

/-- A symbol up to 256 is not HDR_LEAF_BADSYM's (R58). -/
theorem exec_hdrLeafBadsym_of_le (valid : v.toNat ≤ Config.sentinel) (s : State) :
    exec (.hdrLeafBadsym v) s = .refused .tokenNotOffered := by
  simp only [exec, execHdrLeafBadsym, symOfField_of_le valid]

theorem exec_hdrLeafBadsym_treeLeaf (bad : Config.sentinel < v.toNat) (place : s.seq = .treeLeaf i v) :
    exec (.hdrLeafBadsym v) s = .next (raise .malformedHeader s) := by
  simp only [exec, execHdrLeafBadsym, symOfField_of_lt bad, place, if_true]

theorem exec_hdrLeafBadsym_treeBit (bad : Config.sentinel < v.toNat) (place : s.seq = .treeBit true)
    (slot : s.next.toNat = i.val) :
    exec (.hdrLeafBadsym v) s = .next (raise .malformedHeader { s with next := s.next + 1 }) := by
  simp only [exec, execHdrLeafBadsym, symOfField_of_lt bad, place, allocNode_of_eq slot]

end

/-! ## The statements -/

/-- Settles O24: the tag and the push of HSER, and the two sides of HDES's test of INT_CAP. -/
theorem hdrInternalIsWrittenAndRead : Obligations.HdrInternalIsWrittenAndRead := by
  intro s
  refine ⟨fun i l r w node => ⟨fun place => exec_hdrInternal_headerNode place node, fun turn place => ?push⟩,
    fun i place slot room => (treeBit_outcome place).trans (treeBit_false_of_lt slot room),
    fun i place slot full => (treeBit_outcome place).trans (treeBit_false_of_eq slot full)⟩
  case push =>
    obtain ⟨k, taken, move⟩ := step_engineMove turn
    rw [taken, move, place]
    exact headerPush_of_internal node

/-- Settles O25: the leaf's token at each of its four places, and the return to the walk stack after it. -/
theorem hdrLeafIsWrittenAndRead : Obligations.HdrLeafIsWrittenAndRead := by
  intro s y
  refine ⟨fun i w node => ⟨fun place => exec_hdrLeaf_after_tag place node, fun place => ?whole⟩,
    fun e rest turn place walk => ?pop, fun i place => ?symbol, fun i place slot => ?fromTag⟩
  case whole =>
    rw [exec_hdrLeaf_headerNode place node, serSym_serTag]
    rfl
  case pop =>
    obtain ⟨k, taken, move⟩ := step_engineMove turn
    rw [taken, move, place]
    simp only [engineMove, popWalk, walk]
  case symbol => rw [exec_hdrLeaf_treeLeaf place, desLeafToken_symField, desLeaf]
  case fromTag => rw [exec_hdrLeaf_treeBit place slot, desLeafToken_symField, desLeaf]

/-- Settles O26: from its symbol, and from its tag where NEXT names an arena entry. -/
theorem hdrLeafBadsymRaisesMalformedHeader : Obligations.HdrLeafBadsymRaisesMalformedHeader := by
  intro s v bad
  refine ⟨fun i place => exec_hdrLeafBadsym_treeLeaf bad place, fun place room => ?_⟩
  exact exec_hdrLeafBadsym_treeBit (i := ⟨s.next.toNat, room⟩) bad place rfl

/-- Settles O34: at its tag as after it, the token ends in the same operation on the same leaf. -/
theorem headerLeafTagAndSymbolMakeTheToken : Obligations.HeaderLeafTagAndSymbolMakeTheToken := by
  constructor
  · intro s v i place slot
    constructor
    · rw [exec_hdrLeaf_treeBit place slot, exec_hdrLeaf_treeLeaf rfl]
      exact (desLeafToken_with_seq v i _ { s with next := s.next + 1 }).symm
    · obtain bad | valid := Nat.lt_or_ge Config.sentinel v.toNat
      · rw [exec_hdrLeafBadsym_treeBit bad place slot, exec_hdrLeafBadsym_treeLeaf bad rfl]
        rfl
      · rw [exec_hdrLeafBadsym_of_le valid, exec_hdrLeafBadsym_of_le valid]
  · intro s y w i turn place node
    obtain ⟨k, taken, move⟩ := step_engineMove turn
    constructor
    · rw [taken, move, place]
      exact headerNode_of_leaf node
    · rw [exec_hdrLeaf_headerNode place node]
      exact (exec_hdrLeaf_after_tag (s := serTag i s) rfl node).symm

end Sys2Proof.Machine
end

section
/-! SUPPORT. Headers as bits, and the run of C_HEADER that writes them (43_header_codec.md R82, R86). -/

namespace Sys2Proof.Machine

/-! ## Headers of different trees -/

theorem symField_injective : Function.Injective symField := fun y z h =>
  Option.some.inj (by rw [← symOfField_symField y, h, symOfField_symField])

/-- Two fields of one width in front of other bits are told apart. -/
theorem bitsOf_append_inj {n : Nat} {v w : BitVec n} {p q : Bits} (h : bitsOf v ++ p = bitsOf w ++ q) :
    v = w ∧ p = q := by
  obtain ⟨field, rest⟩ := List.append_inj h ((length_bitsOf v).trans (length_bitsOf w).symm)
  exact ⟨by rw [← fieldOf_bitsOf v, field, fieldOf_bitsOf], rest⟩

/-- Settles O4: along both trees, the tags agree, then a leaf's symbol, or the left header and the right one. -/
theorem headerBitsDetermineTheTree : Obligations.HeaderBitsDetermineTheTree := by
  intro t
  induction t with
  | leaf y =>
    intro u p q h
    cases u with
    | leaf z =>
      obtain ⟨field, rest⟩ := bitsOf_append_inj (List.tail_eq_of_cons_eq h)
      exact ⟨congrArg _ (symField_injective field), rest⟩
    | node l r => cases List.head_eq_of_cons_eq h
  | node l r ihl ihr =>
    intro u p q h
    cases u with
    | leaf z => cases List.head_eq_of_cons_eq h
    | node l' r' =>
      have tail : (l.header ++ r.header) ++ p = (l'.header ++ r'.header) ++ q := List.tail_eq_of_cons_eq h
      rw [List.append_assoc, List.append_assoc] at tail
      obtain ⟨rfl, right⟩ := ihl _ _ _ tail
      obtain ⟨rfl, rest⟩ := ihr _ _ _ right
      exact ⟨rfl, rest⟩

/-! ## WRITE_HEADER -/

/-- `ser(i)` appends the header of the tree below `i` and leaves the walk stack as it was (R82). -/
theorem Builds.reaches_serialized {nodes : Vector Node Config.nodeCap} {i : NodeIdx} {t : Tree}
    (builds : Builds nodes i t) {s : State} (arena : s.nodes = nodes) (alone : undisturbed s)
    (place : s.seq = .headerNode i) : Reaches s { s with out := s.out.append t.header, seq := .headerPop } := by
  induction builds generalizing s with
  | @leaf i y w h =>
    have tag : Reaches s (serTag i s) := reaches_move alone place nofun (headerNode_of_leaf (arena ▸ h))
    have symbol : Reaches (serTag i s) (serSym y (serTag i s)) :=
      reaches_move alone rfl nofun (headerSym_of_leaf (s := serTag i s) (arena ▸ h))
    exact serSym_serTag y i s ▸ tag.trans symbol
  | @node i l r w tl tr h _ _ ihl ihr =>
    have tag : Reaches s (serInternal i s) := reaches_move alone place nofun (headerNode_of_internal (arena ▸ h))
    have push := tag.trans
      (reaches_move alone rfl nofun (headerPush_of_internal (s := serInternal i s) (arena ▸ h)))
    have left := push.trans (ihl arena alone rfl)
    have pop : Reaches s { s with out := (s.out.append [false]).append tl.header, seq := .headerNode r } :=
      left.trans (reaches_move alone rfl nofun rfl)
    have right := pop.trans (ihr arena alone rfl)
    rw [OutPort.append_append, OutPort.append_append] at right
    exact right

/-- Settles O52: `ser` of the root from an empty walk stack, and the return with none left. -/
theorem writeHeaderWritesTheTreeInPreorder : Obligations.WriteHeaderWritesTheTreeInPreorder := by
  intro s tree place alone builds
  have start : Reaches s (headerStart s) := reaches_move alone place nofun rfl
  have written := start.trans (Builds.reaches_serialized (s := headerStart s) builds rfl alone rfl)
  exact written.trans (reaches_move alone rfl nofun rfl)

end Sys2Proof.Machine
end

section
/-! SUPPORT. The run of D_HEADER that reads a header: the arena entries from NEXT on, in preorder, are the tree's nodes
(43_header_codec.md R83 to R85). -/

namespace Sys2Proof.Machine

/-! ## IN -/

/-- Past the bits that stand next in IN, the bits after them remain. -/
theorem remaining_past {p : InPort} {k rest : Bits} (next : p.remaining = k ++ rest) :
    ({ p with pos := p.pos + k.length } : InPort).remaining = rest := by
  rw [remaining_with_pos, ← List.drop_drop, ← InPort.remaining, next, List.drop_left]

/-- The tag that stands next in IN is read and held (R83). -/
theorem reaches_treeBit {s : State} {t : Bool} {rest : Bits} (alone : undisturbed s) (place : s.seq = .treeTag)
    (next : s.inp.remaining = t :: rest) :
    Reaches s { s with inp := { s.inp with pos := s.inp.pos + 1 }, seq := .treeBit t } := by
  refine reaches_move alone place nofun ?_
  cases t with
  | false => exact readField_of_next (v := 0#1) (by decide) next
  | true => exact readField_of_next (v := 1#1) (by decide) next

/-! ## Trees in a stretch of the arena -/

/-- How many arena entries a tree takes, one to a node (R84). -/
def Tree.size (t : Tree) : Nat := t.leafCount + t.internalCount

theorem Tree.size_node (l r : Tree) : (Tree.node l r).size = l.size + r.size + 1 := by
  simp only [size, leafCount, internalCount]
  omega

theorem Tree.size_pos (t : Tree) : 0 < t.size := Nat.add_pos_left t.leafCount_pos _

/-- The entries from `i` up to `n` alone make `t` at `i`: so does every arena that holds the same there. -/
def BuildsWithin (nodes : Vector Node Config.nodeCap) (i : NodeIdx) (n : Nat) (t : Tree) : Prop :=
  ∀ m : Vector Node Config.nodeCap, (∀ j : NodeIdx, i.val ≤ j.val → j.val < n → m[j] = nodes[j]) → Builds m i t

theorem BuildsWithin.builds {nodes : Vector Node Config.nodeCap} {i : NodeIdx} {n : Nat} {t : Tree}
    (h : BuildsWithin nodes i n t) : Builds nodes i t := h nodes fun _ _ _ => rfl

/-! ## readTree -/

/-- readTree of `t` into entry `i` runs from `s`: the header's bits are read, the tree's nodes are counted, the entries
before `i` stay, and those from `i` on are the tree; `i` is returned, and nothing else changes (R83). -/
structure ReadsTree (t : Tree) (i : NodeIdx) (s : State) (nodes : Vector Node Config.nodeCap) (next : BitVec 10)
    (nint : BitVec 9) : Prop where
  run : Reaches s { s with
    seq := .treeReturn i, nodes := nodes, next := next, nint := nint
    inp := { s.inp with pos := s.inp.pos + t.header.length } }
  next : next.toNat = i.val + t.size
  nint : nint.toNat = s.nint.toNat + t.internalCount
  kept : ∀ j : NodeIdx, j.val < i.val → nodes[j] = s.nodes[j]
  built : BuildsWithin nodes i (i.val + t.size) t

theorem getElem_set_of_ne {nodes : Vector Node Config.nodeCap} {i j : NodeIdx} (h : i.val ≠ j.val) (x : Node) :
    (nodes.set i x)[j] = nodes[j] := Vector.getElem_set_ne i.isLt j.isLt h

/-- A leaf's tag allocates its entry, and its symbol fills it (R83). -/
theorem readsTree_leaf {s : State} {i : NodeIdx} {y : Sym} {rest : Bits} (alone : undisturbed s)
    (place : s.seq = .treeTag) (bits : s.inp.remaining = (Tree.leaf y).header ++ rest) (slot : s.next.toNat = i.val) :
    ReadsTree (.leaf y) i s (s.nodes.set i (.leaf y 0)) (s.next + 1) s.nint where
  run := by
    have tag := reaches_treeBit alone place bits
    have alloc := tag.trans (reaches_move alone rfl nofun (treeBit_true_of_eq slot))
    have symbol := alloc.trans (reaches_move alone rfl nofun
      (readField_of_next (v := symField y) (by decide) (remaining_past (k := [true]) bits)))
    exact symbol.trans (reaches_move alone rfl nofun (treeLeaf_symField i y _))
  next := next_add_one slot ▸ slot ▸ rfl
  nint := rfl
  kept j hj := getElem_set_of_ne hj.ne' _
  built m same := .leaf ((same i (Nat.le_refl _) (Nat.lt_succ_self _)).trans (Vector.getElem_set_self i.isLt))

/-- HDES with the tag of the internal node `i` read from `s`, at the tag of its left subtree (R83). -/
def atLeft (i : NodeIdx) (s : State) : State := { s with
  seq := .treeTag, next := s.next + 1, nint := s.nint + 1, hdes := { node := i, left := none } :: s.hdes
  inp := { s.inp with pos := s.inp.pos + 1 } }

theorem reaches_atLeft {s : State} {i : NodeIdx} {rest : Bits} (alone : undisturbed s) (place : s.seq = .treeTag)
    (bits : s.inp.remaining = false :: rest) (slot : s.next.toNat = i.val) (room : s.nint.toNat < Config.intCap) :
    Reaches s (atLeft i s) :=
  (reaches_treeBit alone place bits).trans (reaches_move alone rfl nofun (treeBit_false_of_lt slot room))

theorem toNat_nint_atLeft {s : State} (room : s.nint.toNat < Config.intCap) (i : NodeIdx) :
    (atLeft i s).nint.toNat = s.nint.toNat + 1 := toNat_add_one (Nat.lt_of_le_of_lt room (by decide))

/-- HDES with the left subtree of the internal node `i` read from `s` and returned as `l`, at the tag of the right one
(R83). -/
def atRight (i l : NodeIdx) (tl : Tree) (nodes : Vector Node Config.nodeCap) (next : BitVec 10) (nint : BitVec 9)
    (s : State) : State := { s with
  seq := .treeTag, nodes := nodes, next := next, nint := nint, hdes := { node := i, left := some l } :: s.hdes
  inp := { s.inp with pos := s.inp.pos + 1 + tl.header.length } }

/-- An internal node's tag allocates its entry, its subtrees fill the entries after it, and it is made last (R83). -/
theorem readsTree_node {s : State} {i l r : NodeIdx} {tl tr : Tree} {rest : Bits}
    {nodes nodes' : Vector Node Config.nodeCap} {next next' : BitVec 10} {nint nint' : BitVec 9} (alone : undisturbed s)
    (place : s.seq = .treeTag) (bits : s.inp.remaining = false :: rest) (slot : s.next.toNat = i.val)
    (room : s.nint.toNat < Config.intCap) (hl : l.val = i.val + 1) (hr : r.val = l.val + tl.size)
    (left : ReadsTree tl l (atLeft i s) nodes next nint)
    (right : ReadsTree tr r (atRight i l tl nodes next nint s) nodes' next' nint') :
    ReadsTree (.node tl tr) i s (nodes'.set i (.internal 0 l r)) next' nint' where
  run := by
    have leftRead := (reaches_atLeft alone place bits slot room).trans left.run
    have rightRead := (leftRead.trans (reaches_move alone rfl nofun rfl)).trans right.run
    have returned := rightRead.trans (reaches_move alone rfl nofun rfl)
    have made := returned.trans (reaches_move alone rfl nofun rfl)
    have length : s.inp.pos + (Tree.node tl tr).header.length =
        s.inp.pos + 1 + tl.header.length + tr.header.length := by
      simp only [Tree.header, List.length_cons, List.length_append]
      omega
    rw [length]
    exact made
  next := by
    rw [right.next, Tree.size_node]
    omega
  nint := by
    have both : nint'.toNat = nint.toNat + tr.internalCount := right.nint
    rw [both, left.nint, toNat_nint_atLeft room, Tree.internalCount]
    omega
  kept j hj := calc
    (nodes'.set i (.internal 0 l r))[j] = nodes'[j] := getElem_set_of_ne hj.ne' _
    _ = nodes[j] := right.kept j (by omega)
    _ = s.nodes[j] := left.kept j (by omega)
  built m same := by
    rw [Tree.size_node] at same
    have after {j : NodeIdx} (lo : i.val < j.val) (hi : j.val < r.val + tr.size) : m[j] = nodes'[j] :=
      (same j lo.le (by omega)).trans (getElem_set_of_ne lo.ne _)
    refine .node ((same i (Nat.le_refl _) (by omega)).trans (Vector.getElem_set_self i.isLt))
      (left.built m fun j lo hi => ?_) (right.built m fun j lo hi => after (by omega) hi)
    exact (after (by omega) (by omega)).trans (right.kept j (by omega))

/-- readTree reads every tree for which the arena and INT_CAP have room (R83, R84). -/
theorem exists_readsTree (t : Tree) {s : State} {i : NodeIdx} {rest : Bits} (alone : undisturbed s)
    (place : s.seq = .treeTag) (bits : s.inp.remaining = t.header ++ rest) (slot : s.next.toNat = i.val)
    (room : i.val + t.size ≤ Config.nodeCap) (cap : s.nint.toNat + t.internalCount ≤ Config.intCap) :
    ∃ nodes next nint, ReadsTree t i s nodes next nint := by
  induction t generalizing s i rest with
  | leaf y => exact ⟨_, _, _, readsTree_leaf alone place bits slot⟩
  | node tl tr ihl ihr =>
    rw [Tree.size_node] at room
    rw [Tree.internalCount] at cap
    have counted : s.nint.toNat < Config.intCap := by omega
    have count := toNat_nint_atLeft counted i
    have tail : s.inp.remaining = [false] ++ (tl.header ++ (tr.header ++ rest)) := by
      rw [bits, Tree.header, ← List.append_assoc tl.header]
      rfl
    obtain ⟨l, hl⟩ : ∃ l : NodeIdx, l.val = i.val + 1 := ⟨⟨i.val + 1, by have := tl.size_pos; omega⟩, rfl⟩
    obtain ⟨r, hr⟩ : ∃ r : NodeIdx, r.val = l.val + tl.size :=
      ⟨⟨l.val + tl.size, by have := tr.size_pos; omega⟩, rfl⟩
    have leftSlot : (atLeft i s).next.toNat = l.val := by rw [hl, ← slot]; exact next_add_one slot
    obtain ⟨nodes, next, nint, left⟩ := ihl (s := atLeft i s) alone rfl (remaining_past tail) leftSlot
      (by omega) (by omega)
    have leftCount := left.nint
    obtain ⟨nodes', next', nint', right⟩ := ihr (s := atRight i l tl nodes next nint s) alone rfl
      (remaining_past (remaining_past tail)) (left.next.trans hr.symm) (by omega)
      (show nint.toNat + tr.internalCount ≤ Config.intCap by omega)
    exact ⟨_, _, _, readsTree_node alone place tail slot counted hl hr left right⟩

/-- Settles O55: readTree of the header from entry 0, and its return with no call pending. -/
theorem readHeaderRebuildsTheTree : Obligations.ReadHeaderRebuildsTheTree := by
  intro s tree rest place alone bits cap
  have leaves := tree.internalCount_add_one
  have size : tree.size = 2 * tree.leafCount - 1 := by rw [Tree.size]; omega
  have room : (0 : NodeIdx).val + tree.size ≤ 513 := by rw [size]; show 0 + _ ≤ _; omega
  have start : Reaches s (treeClear s) := reaches_move alone place nofun rfl
  obtain ⟨nodes, next, nint, reads⟩ := exists_readsTree tree (s := treeClear s) (i := 0) alone rfl bits rfl room
    ((Nat.zero_add _).trans_le cap)
  have root := (start.trans reads.run).trans (reaches_move alone rfl nofun rfl)
  have used : next.toNat = 2 * tree.leafCount - 1 := reads.next.trans ((Nat.zero_add _).trans size)
  exact ⟨_, root, rfl, rfl, rfl, rfl, reads.built.builds, used, rfl, remaining_past bits, rfl, rfl, rfl⟩

end Sys2Proof.Machine
end

section
/-! SUPPORT. The command words (44_compress.md R87 to R91): what each row's word does while idle and while BUSY. -/

namespace Sys2Proof.Machine

/-- Settles O13: an idle block takes the command. -/
theorem acceptedCommandsStartTheirFirstPhase : Obligations.AcceptedCommandsStartTheirFirstPhase := fun _ idle =>
  ⟨whenIdle_of_idle idle, whenIdle_of_idle idle⟩

/-- A command word is the one the encoder writes for its row (R53). -/
theorem eq_of_encode_decodeCmd {w v : Word} (h : encode (decodeCmd w) = bitsOf v) : w = v := by
  obtain ⟨-, -, bits⟩ := spells_decodeCmd w
  rw [← fieldOf_bitsOf w, ← bits, h, fieldOf_bitsOf]

/-- Settles O14: the encoder writes 0 for NOP, and 0 is decoded to it. -/
theorem nopHasNoEffect : Obligations.NopHasNoEffect := by
  refine ⟨fun w => ⟨fun nop => eq_of_encode_decodeCmd (congrArg encode nop), ?_⟩, fun _ => rfl⟩
  rintro rfl
  decide

/-- Settles O15: every outcome of a command word but the same state asks for BUSY = 0. -/
theorem commandWhileBusyIsIgnored : Obligations.CommandWhileBusyIsIgnored := by
  intro w s busy
  obtain ignored | ⟨idle, -⟩ := exec_decodeCmd_cases w s
  · exact ignored
  · exact absurd busy (by simp [idle])

/-- A word with no reserved bit set and OP = 11 (R89). -/
theorem decodeCmd_of_op_three {w : Word} (reserved : w.extractLsb' 2 30 = 0) (op : w.extractLsb' 0 2 = 3) :
    decodeCmd w = .cmdIllegalOp := by
  simp [decodeCmd, reserved, op]

theorem exec_cmdIllegalRsv {s : State} (idle : s.status.busy = false) (r : BitVec 30) (o : BitVec 2) :
    exec (.cmdIllegalRsv r o) s = .next (illegalCommand o s) := whenIdle_of_idle idle

theorem exec_cmdIllegalOp {s : State} (idle : s.status.busy = false) :
    exec .cmdIllegalOp s = .next (illegalCommand 3 s) := whenIdle_of_idle idle

/-- Settles O16: reserved bits decide the row, and without them OP = 11 does; both rows are `illegal(op)`. -/
theorem illegalCommandsEndAtOnce : Obligations.IllegalCommandsEndAtOnce := by
  intro s idle
  refine ⟨fun w illegal => ?_, exec_cmdIllegalOp idle, fun r o _ => exec_cmdIllegalRsv idle r o⟩
  by_cases reserved : w.extractLsb' 2 30 = 0
  · have op : w.extractLsb' 0 2 = 3 := illegal.resolve_left (absurd reserved)
    rw [decodeCmd_of_op_three reserved op, op]
    exact exec_cmdIllegalOp idle
  · have row : decodeCmd w = .cmdIllegalRsv (w.extractLsb' 2 30) (w.extractLsb' 0 2) := if_pos reserved
    rw [row]
    exact exec_cmdIllegalRsv idle _ _

end Sys2Proof.Machine
end

section
/-! SUPPORT. The order of the phases (44_compress.md R92, 45_decompress.md R100): how the ENGINE's and the HOST's moves
change PHASE. -/

namespace Sys2Proof.Machine

/-- The state `t` after an ENGINE step in phase `p`: the same phase, one that follows it, or D_DECODE entered at the
end of D_HEADER with the decoder at the root (R92, R100). -/
inductive PhaseMove (p : Phase) (t : State) : Prop where
  | stay (same : t.seq.phase = p)
  | go (follows : t.seq.phase ∈ p.successors) (elsewhere : t.seq.phase ≠ .dDecode)
  | decode (header : p = .dHeader) (entered : t.seq.phase = .dDecode) (start : t.dstate = .atRoot)
    (root : t.cur = t.root)

theorem phaseMove_buildNext (y : Sym) (s : State) : PhaseMove .cBuild (buildNext y s) := by
  unfold buildNext
  split <;> exact .stay rfl

theorem phaseMove_arrive (c : NodeIdx) (s : State) : PhaseMove .dDecode (arrive c s) := by
  unfold arrive
  split
  · split <;> exact .stay rfl
  · exact .stay rfl

/-- A return to the walk stack visits a subtree put off, or ends the phase. -/
theorem phaseMove_popWalk {p : Phase} {visit : WalkEntry → Seq} {q : Seq} (s : State)
    (inside : ∀ e, (visit e).phase = p) (follows : q.phase ∈ p.successors) (elsewhere : q.phase ≠ .dDecode) :
    PhaseMove p (popWalk visit q s) := by
  obtain ⟨-, h⟩ | ⟨e, rest, -, h⟩ := popWalk_cases visit q s
  · rw [h]; exact .go follows elsewhere
  · rw [h]; exact .stay (inside e)

/-- readTree's return decodes next, with the decoder at the root, or goes on in the header (R83, R100). -/
theorem phaseMove_treeReturn (j : NodeIdx) (s : State) : PhaseMove .dHeader (treeReturn j s) := by
  unfold treeReturn
  split
  · exact .decode rfl rfl rfl rfl
  · split <;> exact .stay rfl

/-- An error leads to CLOSING from a phase that may raise one (R92, R100, R110). -/
theorem phaseMove_raise {p : Phase} (error : .closing ∈ p.successors) (e : ErrCode) (s : State) :
    PhaseMove p (raise e s) := .go error nofun

/-- Every ENGINE step moves PHASE in the order of COMPRESS or of DECOMPRESS, or keeps it. -/
theorem engineMove_phase {s : State} {q : Seq} (place : s.seq = q) : Answers (PhaseMove q.phase) (engineMove s q) := by
  cases q with
  | idle => exact answers_next.mpr (.stay (congrArg _ place))
  | count => exact answers_readField (fun _ _ => .stay rfl) (.stay rfl)
  | encodeRead => exact answers_readField (fun _ _ => .stay rfl) (.go (.head _) nofun)
  | magicRead | treeTag | treeSym =>
    exact answers_readField (fun _ _ => .stay rfl) (phaseMove_raise (.tail _ (.head _)) _ _)
  | decodeBit =>
    dsimp only [engineMove]
    split
    · exact answers_next.mpr (.go (.head _) nofun)
    · exact answers_readField (fun _ _ => .stay rfl) (phaseMove_raise (.head _) _ _)
  | countEnd | magicWrite | rewind | sentinel | finish => exact answers_next.mpr (.go (.head _) nofun)
  | countClear y =>
    refine answers_next.mpr ?_
    unfold countClear
    cases nextSym y <;> exact .stay rfl
  | countByte b =>
    refine answers_next.mpr ?_
    unfold countByte
    dsimp only
    split
    · exact phaseMove_raise (.tail _ (.head _)) _ _
    · exact .stay rfl
  | buildLeaf y =>
    refine answers_next.mpr ?_
    unfold buildLeaf
    split
    · exact .stay rfl
    · exact phaseMove_buildNext y s
  | buildInsert y => exact answers_next.mpr (phaseMove_buildNext y _)
  | merge =>
    dsimp only [engineMove, merge]
    refine answers_takeMin fun a q _ => ?_
    cases q with
    | nil => exact .go (.head _) nofun
    | cons => exact .stay rfl
  | mergeSecond a =>
    dsimp only [engineMove, mergeSecond]
    exact answers_takeMin fun _ _ _ => .stay rfl
  | mergeNode a b =>
    simp only [engineMove, mergeNode]
    split
    · exact answers_fault
    · exact answers_next.mpr (.stay rfl)
  | codesClear y =>
    refine answers_next.mpr ?_
    unfold codesClear
    cases nextSym y <;> exact .stay rfl
  | codesStart =>
    refine answers_next.mpr ?_
    unfold codesStart
    split
    · exact .go (.head _) nofun
    · exact .stay rfl
  | codesNode i p =>
    refine answers_next.mpr ?_
    unfold codesNode
    split <;> exact .stay rfl
  | codesPop | headerPop => exact answers_next.mpr (phaseMove_popWalk s (fun _ => rfl) (.head _) nofun)
  | headerNode i =>
    refine answers_next.mpr ?_
    split <;> exact .stay rfl
  | headerPush i =>
    simp only [engineMove, headerPush]
    split
    · exact answers_fault
    · exact answers_next.mpr (.stay rfl)
  | headerSym i =>
    dsimp only [engineMove]
    split
    · exact answers_next.mpr (.stay rfl)
    · exact answers_refused
  | encodeByte b =>
    refine answers_next.mpr ?_
    unfold encodeByte
    split
    · exact .stay rfl
    · exact phaseMove_raise (.tail _ (.head _)) _ _
  | magicField m =>
    refine answers_next.mpr ?_
    split
    · exact .go (.head _) nofun
    · exact phaseMove_raise (.tail _ (.head _)) _ _
  | treeBit t =>
    cases t with
    | false =>
      dsimp only [engineMove]
      refine answers_allocNode fun i _ => answers_next.mpr ?_
      unfold desInternal
      dsimp only
      split
      · exact phaseMove_raise (.tail _ (.head _)) _ _
      · exact .stay rfl
    | true =>
      dsimp only [engineMove]
      exact answers_allocNode fun i _ => answers_next.mpr (.stay rfl)
  | treeLeaf i v =>
    refine answers_next.mpr ?_
    cases symOfField v with
    | none => exact phaseMove_raise (.tail _ (.head _)) _ _
    | some y => exact .stay rfl
  | treeReturn j => exact answers_next.mpr (phaseMove_treeReturn j s)
  | decodeStep t =>
    dsimp only [engineMove]
    split
    · exact answers_refused
    · cases nextCur t s with
      | none => exact answers_fault
      | some c => exact answers_next.mpr (phaseMove_arrive c s)
  | _ => exact answers_next.mpr (.stay rfl)

/-- The HOST starts a command in its first phase from IDLE, resets the block, or leaves the ENGINE's place alone. -/
theorem HostMove.seq {s t : State} (status : StatusOk s) (move : HostMove s t) :
    t.seq = s.seq ∨ (s.seq = .idle ∧ (t.seq = .countClear 0 ∨ t.seq = .magicRead)) ∨
      ((∃ rest, s.host.program = .reset :: rest) ∧ t.seq = .idle) := by
  cases move with
  | quiet k => exact .inl rfl
  | accept k op q idle legal => exact .inr (.inl ⟨status.idle idle, legal.imp And.right And.right⟩)
  | illegal k op idle => exact .inl rfl
  | connectIn k p idle start => exact .inl rfl
  | connectOut k idle => exact .inl rfl
  | reset k asked => exact .inr (.inr ⟨asked, rfl⟩)

/-- Settles O19: the ENGINE's moves keep to the order, and of the HOST's only the start of a command and RESET change
PHASE. -/
theorem phasesFollowTheirOrder : Obligations.PhasesFollowTheirOrder := by
  intro s t status h
  obtain ⟨k, move⟩ | move := step_cases h
  · cases engineMove_phase rfl t move with
    | stay same => exact ⟨.inl same, fun outside here => absurd (same.symm.trans here) outside⟩
    | go follows elsewhere => exact ⟨.inr (.inl follows), fun _ here => absurd here elsewhere⟩
    | decode header entered start root =>
      refine ⟨.inr (.inl ?_), fun _ _ => ⟨start, root⟩⟩
      rw [entered, header]
      exact .head _
  · obtain same | ⟨idle, first | first⟩ | ⟨asked, idle⟩ := move.seq status
    · rw [same]
      exact ⟨.inl rfl, fun outside here => absurd here outside⟩
    · rw [idle, first]
      exact ⟨.inr (.inl (.head _)), nofun⟩
    · rw [idle, first]
      exact ⟨.inr (.inl (.tail _ (.head _))), nofun⟩
    · rw [idle]
      exact ⟨.inr (.inr ⟨asked, rfl⟩), nofun⟩

end Sys2Proof.Machine
end

section
/-! SUPPORT. The token that a step runs or reads (30_encoding.md R62, 20_memory.md R52): commands at CMD, the tokens the
ENGINE holds, and those it reads from IN. -/

namespace Sys2Proof.Machine

/-! ## MAGIC -/

/-- Settles O22: C_MAGIC writes the marker, and D_MAGIC's field is compared with it. -/
theorem magicIsWrittenAndCompared : Obligations.MagicIsWrittenAndCompared := by
  intro s
  refine ⟨fun place => ?write, fun place => ?same, fun m place other => ?other⟩
  case write =>
    rw [exec, execMagic, place]
    exact if_pos rfl
  case same => rw [exec_magic_magicField place, if_pos rfl]
  case other => rw [exec_magic_magicField place, if_neg other]; rfl

/-! ## Commands -/

/-- A word's bits are decoded at CMD to its row (R54, R87). -/
theorem decodeCmd_of_decode {w : Word} {i : Instr} (h : decode .cmd (bitsOf w) = .token i []) : decodeCmd w = i := by
  obtain ⟨v, row, bits⟩ := decodeField_eq_token.mp h
  obtain ⟨rfl, -⟩ := bitsOf_append_inj ((List.append_nil _).trans bits)
  exact row

/-- A HOST turn that writes a word to CMD runs the command decoded from it (R52, R87). -/
theorem step_writeCmd {s : State} {w : Word} {rest : List HostAction} {i : Instr} (hh : hostTurn s)
    (hp : s.host.program = .write .cmd w :: rest) (command : decode .cmd (bitsOf w) = .token i []) :
    step s = exec i (dropAction rest (takeTurn s).2) := by
  rw [step_hostAct hh hp, ← decodeCmd_of_decode command]
  rfl

/-! ## Tokens the ENGINE holds -/

/-- Where the ENGINE holds a token its step is that token's (R62). -/
theorem engineFetch_of_heldToken {s : State} {i : Instr} (held : heldToken s.seq = some i) :
    engineFetch s = .run i s := by
  unfold engineFetch
  generalize s.seq = q at held ⊢
  cases q with
  | countByte | encodeByte | magicWrite | magicField | treeLeaf | decodeStep | decodeEmit =>
    cases held
    rfl
  | treeBit t =>
    cases t with
    | false => cases held; rfl
    | true => cases held
  | _ => cases held

/-! ## Tokens read from IN -/

theorem decodeLeafSym_injective : Function.Injective decodeLeafSym := by
  intro v w h
  obtain ⟨-, -, left⟩ := spells_decodeLeafSym v
  obtain ⟨-, -, right⟩ := spells_decodeLeafSym w
  have bits : bitsOf v = bitsOf w := List.tail_eq_of_cons_eq (left.symm.trans ((congrArg encode h).trans right))
  rw [← fieldOf_bitsOf v, bits, fieldOf_bitsOf]

theorem decodeCodeBit_injective : Function.Injective decodeCodeBit := by
  unfold Function.Injective
  decide

/-- A payload token is the bit in front (R62, R102). -/
theorem eq_cons_of_decode_code {p rest : Bits} {t : Bool} (h : decode .code p = .token (decodeCodeBit t) rest) :
    p = t :: rest := by
  cases p with
  | nil => cases h
  | cons u q =>
    obtain ⟨bit, rfl⟩ := Decoded.token.inj h
    rw [decodeCodeBit_injective bit]

/-- HDR_INTERNAL is the tag 0 in front (R56, R62). -/
theorem eq_cons_of_decode_hdrInternal {p rest : Bits} (h : decode .header p = .token .hdrInternal rest) :
    p = false :: rest := by
  obtain ⟨-, -, bits⟩ := encodeOfDecodedTokenGivesItsBits _ _ _ _ h
  exact bits.symm

section
variable {s : State} {rest : Bits} {eof : State → State}

/-- The token decoded from a field at the front of IN is the one whose field a read holds (R35, R62). -/
theorem readField_of_decodeField {c : Ctx} {n : Nat} {f : BitVec n → Instr} {v : BitVec n} {hold : BitVec n → Seq}
    (positive : 0 < n) (injective : Function.Injective f)
    (token : decodeField c n f s.inp.remaining = .token (f v) rest) :
    (readField n hold eof s).outcome = .next { s with inp := { s.inp with pos := s.inp.pos + n }, seq := hold v } := by
  obtain ⟨u, row, bits⟩ := decodeField_eq_token.mp token
  obtain rfl := injective row
  exact readField_of_next positive bits

/-- A read of one bit holds the bit in front. -/
theorem readField_bit {hold : Bool → Seq} {t : Bool} (next : s.inp.remaining = t :: rest) :
    (readField 1 (fun v => hold (v = 1)) eof s).outcome =
      .next { s with inp := { s.inp with pos := s.inp.pos + 1 }, seq := hold t } := by
  cases t with
  | false => exact readField_of_next (v := 0#1) (by decide) next
  | true => exact readField_of_next (v := 1#1) (by decide) next

end

/-- Settles O33: a command is decoded at CMD, a token held or written is run, and a token read is the one that IN's next
bits are decoded to. -/
theorem stepRunsTheDecodedInstruction : Obligations.StepRunsTheDecodedInstruction := by
  intro s
  refine ⟨fun w rest i => step_writeCmd, fun turn => ?_⟩
  have held {i : Instr} (token : heldToken s.seq = some i) : step s = exec i (takeTurn s).2 := by
    rw [step_engine turn, engineFetch_of_heldToken (i := i), outcome_run]
    rwa [takeTurn_snd]
  refine ⟨fun i => held, ?_⟩
  obtain ⟨k, taken, move⟩ := step_engineMove turn
  have moved {q : Seq} (place : s.seq = q) : step s = engineMove { s with host := k } q := by rw [move, place]
  rw [taken]
  refine ⟨fun j l r w place node => ?internal, fun j y w place node => ?leaf, fun j place slot => ?tag, fun rest =>
    ⟨fun m place token => ?magic, fun b place token => ?count, fun b place token => ?encode,
      fun b place reading token => ?payload, fun place token => ?zero, fun place tag => ?one,
      fun j v place token => ?symbol⟩⟩
  all_goals refine (moved place).trans ?_
  case internal =>
    have token := exec_hdrInternal_headerNode (s := { s with host := k }) place node
    exact (headerNode_of_internal (s := { s with host := k }) node).trans token.symm
  case leaf =>
    have token := exec_hdrLeaf_after_tag (s := { s with host := k }) place node
    exact (headerSym_of_leaf (s := { s with host := k }) node).trans token.symm
  case tag => exact treeBit_true_of_eq (s := { s with host := k }) slot
  case magic => exact readField_of_decodeField (by decide) (fun _ _ => Instr.magic.inj) token
  case count => exact readField_of_decodeField (by decide) (fun _ _ => Instr.inByte.inj) token
  case encode => exact readField_of_decodeField (by decide) (fun _ _ => Instr.inByte.inj) token
  case payload => exact (if_neg reading).trans (readField_bit (eq_cons_of_decode_code token))
  case zero => exact readField_bit (eq_cons_of_decode_hdrInternal token)
  case one =>
    obtain ⟨rest, bits⟩ := List.head?_eq_some_iff.mp tag
    exact readField_bit bits
  case symbol => exact readField_of_decodeField (by decide) decodeLeafSym_injective token

end Sys2Proof.Machine
end

section
/-! SUPPORT. C_ENCODE's run over the second pass (44_compress.md R95): read, look up, write, byte by byte. -/

namespace Sys2Proof.Machine

/-- C_ENCODE over the second pass of `s`, at the loop's read with the bytes `l` encoded (R95). -/
def encoded (l : List Byte) (s : State) : State := { s with
  seq := .encodeRead
  inp := { s.inp with pos := 8 * l.length }
  out := s.out.append (l.flatMap fun b => s.codes[symOfByte b].path) }

/-- The byte `b` is read from IN after `l` and is held (R95). -/
def encodeHeld (l : List Byte) (b : Byte) (s : State) : State :=
  { encoded l s with inp := { s.inp with pos := 8 * (l.length + 1) }, seq := .encodeByte b }

section
variable {s : State} {l rest : List Byte} {b : Byte}

theorem encoded_nil (place : s.seq = .encodeRead) (start : s.inp.pos = 0) : encoded [] s = s := by
  have first : { s.inp with pos := 8 * ([] : List Byte).length } = s.inp := by
    rw [List.length_nil, Nat.mul_zero, ← start]
  have none : s.out.append [] = s.out := by simp [OutPort.append]
  rw [encoded, List.flatMap_nil, none, first, ← place]

/-- Writing the code of the byte after `l` (R39, R95). -/
theorem encodeWrite_encodeHeld (l : List Byte) (b : Byte) (s : State) :
    encodeWrite b (encodeHeld l b s) = encoded (l ++ [b]) s := by
  simp [encodeWrite, encodeHeld, encoded, OutPort.append_append]

theorem encodeByte_of_valid (valid : s.codes[symOfByte b].valid = true) :
    encodeByte b s = { s with seq := .encodeWrite b } := if_pos valid

theorem encodeByte_of_invalid (invalid : s.codes[symOfByte b].valid = false) :
    encodeByte b s = raise .inputMismatch s := if_neg (Bool.eq_false_iff.mp invalid)

variable (alone : undisturbed s) (pass : s.inp.rewound = true)
include alone pass

/-- The loop reads the byte after `l` and looks it up (R95). -/
theorem reaches_encodeByte (bytes : s.inp.second = l ++ b :: rest) :
    Reaches (encoded l s) (encodeByte b (encodeHeld l b s)) := by
  have next : (encoded l s).inp.remaining = bitsOf b ++ streamBits rest :=
    remaining_after (l := l) (rest := b :: rest) (by simp [encoded, InPort.bytes, pass, bytes]) rfl
  have read : Reaches (encoded l s) (encodeHeld l b s) :=
    reaches_move (s := encoded l s) alone rfl nofun (readField_of_next (by decide) next)
  exact read.trans (reaches_move (s := encodeHeld l b s) alone rfl nofun rfl)

/-- The loop over bytes that have codes (R95). -/
theorem reaches_encoded (place : s.seq = .encodeRead) (start : s.inp.pos = 0) (bytes : s.inp.second = l ++ rest)
    (valid : ∀ c ∈ l, s.codes[symOfByte c].valid = true) : Reaches s (encoded l s) := by
  induction l using List.reverseRecOn generalizing rest with
  | nil => exact (encoded_nil place start).symm ▸ .refl s
  | append_singleton l b ih =>
    rw [List.append_assoc] at bytes
    obtain ⟨validBefore, validHere⟩ := List.forall_mem_append.mp valid
    have lookup := reaches_encodeByte alone pass bytes
    rw [encodeByte_of_valid (s := encodeHeld l b s) (validHere b List.mem_cons_self)] at lookup
    have write := reaches_move (s := { encodeHeld l b s with seq := .encodeWrite b }) alone rfl nofun rfl
    exact ((ih bytes validBefore).trans lookup).trans (encodeWrite_encodeHeld l b s ▸ write)

/-- At the end of the second pass C_SENTINEL is next (R95). -/
theorem reaches_sentinel : Reaches (encoded s.inp.second s) { encoded s.inp.second s with seq := .sentinel } := by
  have size : s.inp.bits.length = 8 * s.inp.second.length := by simp [InPort.bits, InPort.bytes, pass]
  have ended : (encoded s.inp.second s).inp.remaining.length < 8 := by simp [encoded, size]
  refine reaches_move (s := encoded s.inp.second s) alone rfl nofun ((readField_of_short ended).trans ?_)
  simp [encoded, size]

end

/-- Settles O53: the loop over the bytes with codes, and then the end of IN, or the byte without one. -/
theorem encodeWritesEachBytesCode : Obligations.EncodeWritesEachBytesCode := by
  intro s place alone pass start
  constructor
  · intro valid
    exact (reaches_encoded alone pass place start (List.append_nil _).symm valid).trans (reaches_sentinel alone pass)
  · intro pre post b bytes valid invalid
    have lookup := reaches_encodeByte alone pass bytes
    rw [encodeByte_of_invalid (s := encodeHeld pre b s) invalid] at lookup
    exact (reaches_encoded alone pass place start bytes valid).trans lookup

end Sys2Proof.Machine
end

section
/-! SUPPORT. COMPRESS from its acceptance to IDLE (44_compress.md R91, R98): the tree and the codes it makes of its
input, and the output it writes with them. -/

namespace Sys2Proof.Machine

/-! ## The counts of COMPRESS -/

/-- The counts that COUNT leaves for the input `l`: each byte's, and 1 for the sentinel (R69). -/
def inputCounts (l : List Byte) : Vector Weight Config.alph := (freqTable l).set sentinelSym 1

theorem countOf_eq_count (l : List Byte) (y : Sym) : countOf l y = (l.map symOfByte).count y := by
  rw [countOf, List.count, List.countP_map]
  rfl

theorem countOf_sentinelSym (l : List Byte) : countOf l sentinelSym = 0 := by
  rw [countOf_eq_count, List.count_eq_zero]
  intro h
  obtain ⟨b, -, hb⟩ := List.mem_map.mp h
  exact symOfByte_ne_sentinel b hb

theorem toNat_inputCounts {l : List Byte} (short : l.length ≤ Config.maxLen) (y : Sym) :
    (inputCounts l)[y].toNat = countOf l y + if y = sentinelSym then 1 else 0 := by
  by_cases h : y = sentinelSym
  · subst h
    simp [inputCounts, countOf_sentinelSym]
  · have other : sentinelSym.val ≠ y.val := fun same => h (Fin.ext same.symm)
    have counter : (inputCounts l)[y] = (freqTable l)[y] := Vector.getElem_set_ne _ _ other
    have fits : countOf l y ≤ Config.maxLen := List.countP_le_length.trans short
    rw [counter, getElem_freqTable, toNat_ofNat_of_le_maxLen fits, if_neg h, Nat.add_zero]

theorem mem_usedSymbols_inputCounts {l : List Byte} (short : l.length ≤ Config.maxLen) (y : Sym) :
    y ∈ usedSymbols (inputCounts l) ↔ y = sentinelSym ∨ 0 < countOf l y := by
  rw [mem_usedSymbols, ← BitVec.toNat_ne_iff_ne, toNat_inputCounts short]
  split <;> simp [*, Nat.pos_iff_ne_zero]

/-- The counts add up to the input's length and the sentinel's 1 (R70, R76). -/
theorem sum_inputCounts {l : List Byte} (short : l.length ≤ Config.maxLen) :
    ((List.finRange Config.alph).map fun y => (inputCounts l)[y].toNat).sum = l.length + 1 := by
  have bytes : ∑ y : Sym, countOf l y = l.length := by
    simp only [countOf_eq_count, ← Multiset.coe_count]
    rw [Multiset.sum_count_eq_card fun _ _ => Finset.mem_univ _, Multiset.coe_card, List.length_map]
  rw [← Fin.sum_univ_def]
  simp only [toNat_inputCounts short, Finset.sum_add_distrib, bytes, Finset.sum_ite_eq', Finset.mem_univ, if_true]

theorem nodup_usedSymbols (freq : Vector Weight Config.alph) : (usedSymbols freq).Nodup :=
  (List.nodup_finRange _).filter _

/-! ## The tree and the codes -/

/-- The code tree that COMPRESS makes of the input `l` is at ROOT, and its codes are in the code table (R71 to R79). -/
structure HoldsTree (l : List Byte) (t : Tree) (s : State) : Prop where
  builds : Builds s.nodes s.root t
  distinct : t.symbols.Nodup
  symbols : ∀ y, y ∈ t.symbols ↔ y = sentinelSym ∨ 0 < countOf l y
  codes : s.codes = codeTable t

theorem HoldsTree.path_eq {l : List Byte} {t : Tree} {s : State} (h : HoldsTree l t s) {y : Sym} {p : Bits}
    (code : (y, p) ∈ t.codes) : s.codes[y].path = p := by
  rw [h.codes, path_codeTable h.distinct code]

/-- Each byte of the input has a code. -/
theorem HoldsTree.valid {l : List Byte} {t : Tree} {s : State} (h : HoldsTree l t s) {b : Byte} (hb : b ∈ l) :
    s.codes[symOfByte b].valid = true := by
  rw [h.codes, valid_codeTable h.distinct, h.symbols, countOf_symOfByte]
  exact .inr (List.count_pos_iff.mpr hb)

/-- What was written to an empty OUT is what it is ended with (R40). -/
theorem endedWith_fresh (p : Bits) : endedWith p (OutPort.fresh.append p).close :=
  closeBringsOutToWholeBytesAndEndsIt.1 { bits := p, closed := false }

/-- A run to CLOSING goes on for two steps, to IDLE (R97, R110). -/
theorem Reaches.finished {s t : State} {e : ErrCode} (run : Reaches s t) (alone : undisturbed t)
    (place : t.seq = .close e) : Reaches s (finishCommand e (closeOut e t)) :=
  (run.trans (reaches_move alone place nofun rfl)).trans (reaches_move (s := closeOut e t) alone rfl nofun rfl)

section
variable {s : State} (alone : undisturbed s)
include alone

/-- C_COUNT leaves the input's counts (R68, R69). -/
theorem reaches_inputCounts (place : s.seq = .countClear 0) (pass : s.inp.rewound = false) (start : s.inp.pos = 0)
    (short : s.inp.first.length ≤ Config.maxLen) :
    ∃ u, Reaches s u ∧ u = { s with
      seq := .buildClear, freq := inputCounts s.inp.first, nbytes := u.nbytes
      inp := { s.inp with pos := 8 * s.inp.first.length } } :=
  ⟨_, (reaches_counted place alone pass start (List.append_nil _).symm short).trans (reaches_countEnd alone pass), rfl⟩

/-- C_BUILD and C_CODES make the code tree of the counts (R71 to R79). -/
theorem reaches_holdsTree {l : List Byte} (place : s.seq = .buildClear) (counts : s.freq = inputCounts l)
    (short : l.length ≤ Config.maxLen) :
    ∃ (u : State) (t : Tree), Reaches s u ∧ HoldsTree l t u ∧
      u = { s with
        seq := .magicWrite, nodes := u.nodes, root := u.root, pq := [], nleaf := u.nleaf, next := u.next
        codes := u.codes, walk := u.walk } := by
  have sentinel : s.freq[sentinelSym] = 1 := by simp [counts, inputCounts]
  have fits : l.length + 1 < 2 ^ 32 := by
    have limit : l.length ≤ 2 ^ 32 - 2 := short
    omega
  obtain ⟨m, t, built, frame, builds, symbols, -⟩ :=
    buildMakesAFullBinaryTreeWithRightWeights s place alone sentinel (by rwa [counts, sum_inputCounts short])
  have aloneStill : undisturbed m := by rw [frame]; exact alone
  obtain ⟨w, coded⟩ := builds.reaches_codeTable aloneStill (by rw [frame])
  refine ⟨_, t, built.trans coded, ⟨builds, symbols.nodup_iff.mpr (nodup_usedSymbols _), fun y => ?_, rfl⟩, ?_⟩
  · rw [symbols.mem_iff, counts, mem_usedSymbols_inputCounts short]
  · rw [frame]

/-! ## The output -/

/-- From C_ENCODE to the end: the code of each byte of the second pass and the sentinel's code are written
(R95 to R97). -/
theorem reaches_payload (place : s.seq = .encodeRead) (pass : s.inp.rewound = true) (start : s.inp.pos = 0)
    (valid : ∀ b ∈ s.inp.second, s.codes[symOfByte b].valid = true) :
    Reaches s { s with
      seq := .idle, status := s.status.ended .none, inp := { s.inp with pos := 8 * s.inp.second.length }
      out := (s.out.append ((s.inp.second.flatMap fun b => s.codes[symOfByte b].path) ++
        s.codes[sentinelSym].path)).close } := by
  obtain ⟨bytes, -⟩ := encodeWritesEachBytesCode s place alone pass start
  have sentinel := (bytes valid).trans (reaches_move alone rfl nofun rfl)
  have ended := sentinel.finished alone rfl
  rw [← OutPort.append_append]
  exact ended

/-- From C_MAGIC to the end: the marker, the header of the tree at ROOT, the code of each byte of the second pass and
the sentinel's code are written (R93 to R97). -/
theorem Builds.reaches_stream {t : Tree} (builds : Builds s.nodes s.root t) (place : s.seq = .magicWrite)
    (valid : ∀ b ∈ s.inp.second, s.codes[symOfByte b].valid = true) :
    Reaches s { s with
      seq := .idle, status := s.status.ended .none, walk := []
      inp := { s.inp with rewound := true, pos := 8 * s.inp.second.length }
      out := (s.out.append (bitsOf Config.huffMagic ++ t.header ++
        (s.inp.second.flatMap fun b => s.codes[symOfByte b].path) ++ s.codes[sentinelSym].path)).close } := by
  have marker : Reaches s { s with out := s.out.writeBits Config.huffMagic, seq := .headerStart } :=
    reaches_move alone place nofun rfl
  have header := marker.trans (writeHeaderWritesTheTreeInPreorder _ t rfl alone builds)
  have rewound := header.trans (reaches_move alone rfl nofun rfl)
  have payload := rewound.trans (reaches_payload alone rfl rfl rfl valid)
  simpa [OutPort.append, OutPort.writeBits, rewindInput, InPort.rewind] using payload

end

/-- Settles O54: from the accepted command the input is counted, its tree and codes are made, and the stream is
written. -/
theorem compressWritesMarkerHeaderCodesAndSentinel : Obligations.CompressWritesMarkerHeaderCodesAndSentinel := by
  intro s idle alone same short
  obtain ⟨c, counted, counts⟩ :=
    reaches_inputCounts (s := acceptCommand 1 (.countClear 0) s) alone rfl rfl rfl short
  have aloneCounted : undisturbed c := by rw [counts]; exact alone
  obtain ⟨m, tree, made, holds, frame⟩ :=
    reaches_holdsTree (l := s.inp.first) aloneCounted (by rw [counts]) (by rw [counts]; rfl) short
  rw [counts] at frame
  have second : m.inp.second = s.inp.first := by rw [frame]; exact same
  have out : m.out = OutPort.fresh := by rw [frame]; rfl
  have status : m.status = s.status.accept 1 := by rw [frame]; rfl
  have aloneStill : undisturbed m := by rw [frame]; exact alone
  have written := holds.builds.reaches_stream aloneStill (by rw [frame]) (second ▸ fun b hb => holds.valid hb)
  refine ⟨_, _, tree, whenIdle_of_idle idle, (counted.trans made).trans written, rfl, ?status, holds.builds,
    holds.symbols, fun y p => holds.path_eq, ?out⟩
  case status => rw [status]; rfl
  case out =>
    rw [second, out]
    exact endedWith_fresh _

end Sys2Proof.Machine
end

section
/-! SUPPORT. DECODE_STEP (45_decompress.md R102 to R105): where a payload bit moves CUR, a byte's output, and the
statements about them. -/

namespace Sys2Proof.Machine

/-! ## Where CUR moves -/

theorem eq_sentinelSym_iff {y : Sym} : y = sentinelSym ↔ y.val = 256 := Fin.ext_iff

section
variable {s : State} {i l r : NodeIdx} {y : Sym} {w : Weight}

/-- In a degenerate tree every bit leads to the root leaf (R103). -/
theorem nextCur_of_leaf (root : s.nodes[s.root] = .leaf y w) (b : Bool) : nextCur b s = some s.root := by
  rw [nextCur, root]
  rfl

/-- Under an internal root an internal node's bit chooses a child (R102). -/
theorem nextCur_of_internal (root : s.nodes[s.root].isLeaf = false) (cur : s.nodes[s.cur] = .internal w l r)
    (b : Bool) : nextCur b s = some (if b then r else l) := by
  rw [nextCur, root, cur]
  rfl

theorem arrive_of_internal (node : s.nodes[i] = .internal w l r) :
    arrive i s = { s with cur := i, dstate := .descending, seq := .decodeBit } := by
  rw [arrive, node]

theorem arrive_of_leaf (node : s.nodes[i] = .leaf y w) : arrive i s =
    if y.val = 256 then { s with cur := i, dstate := .terminal, seq := .decodeBit }
    else { s with cur := i, seq := .decodeEmit (symByte y) } := by
  simp only [arrive, node, eq_sentinelSym_iff]

theorem arrive_of_sentinel (node : s.nodes[i] = .leaf sentinelSym w) :
    arrive i s = { s with cur := i, dstate := .terminal, seq := .decodeBit } := arrive_of_leaf node

theorem arrive_of_byte (node : s.nodes[i] = .leaf y w) (byte : y ≠ sentinelSym) :
    arrive i s = { s with cur := i, seq := .decodeEmit (symByte y) } :=
  (arrive_of_leaf node).trans (if_neg (mt eq_sentinelSym_iff.mpr byte))

/-- The payload bit that the ENGINE holds moves CUR (R102). -/
theorem exec_decodeCodeBit_of_nextCur {b : Bool} (live : s.dstate ≠ .terminal) (place : s.seq = .decodeStep b)
    (move : nextCur b s = some i) : exec (decodeCodeBit b) s = .next (arrive i s) := by
  rw [exec_decodeCodeBit place, if_neg live, move, Option.elim_some]

end

/-- Settles O27: the bit chooses the child, and the child's kind and symbol decide what is next. -/
theorem codeBitsMoveToTheChosenChild : Obligations.CodeBitsMoveToTheChosenChild := by
  intro s w w' l r l' r' live root cur
  have inner : s.nodes[s.root].isLeaf = false := by rw [root]; rfl
  have move {b : Bool} (place : s.seq = .decodeStep b) :=
    exec_decodeCodeBit_of_nextCur live place (nextCur_of_internal inner cur b)
  refine ⟨fun place => (move place).trans (congrArg _ (?_ : arrive l s = _)),
    fun place => (move place).trans (congrArg _ (?_ : arrive r s = _))⟩
  all_goals
    split
    next node => exact arrive_of_internal node
    next node => exact arrive_of_leaf node

/-- Settles O30: the byte is appended, and the next step is `decodeReset`. -/
theorem outSymbolWritesTheByteAndReturnsToTheRoot : Obligations.OutSymbolWritesTheByteAndReturnsToTheRoot := by
  intro s
  refine ⟨fun b place => ?write, fun turn place => ?reset⟩
  case write =>
    simp only [exec, execOutSymbol, place, if_true]
    rfl
  case reset =>
    obtain ⟨k, taken, move⟩ := step_engineMove turn
    rw [taken, move, place]
    rfl

/-! ## DECODE_STEP in a run -/

/-- The payload bit `b` is read from IN and is held (R102). -/
def bitRead (b : Bool) (s : State) : State :=
  { s with inp := { s.inp with pos := s.inp.pos + 1 }, seq := .decodeStep b }

section
variable {s : State} (alone : undisturbed s) (place : s.seq = .decodeBit) (live : s.dstate ≠ .terminal)
include alone place live

/-- With a payload bit left, DECODE_STEP reads it and moves CUR (R102). -/
theorem reaches_arrive {b : Bool} {rest : Bits} {c : NodeIdx} (next : s.inp.remaining = b :: rest)
    (move : nextCur b s = some c) :
    Reaches s (arrive c (bitRead b s)) := by
  have read : Reaches s (bitRead b s) :=
    reaches_move alone place nofun ((if_neg live).trans (readField_bit next))
  refine read.trans (reaches_move alone rfl nofun ((if_neg live).trans ?_))
  exact congrArg (Option.elim · _ _) move

/-- With no payload bit left, TRUNCATED_STREAM is raised (R102, R107). -/
theorem reaches_truncatedStream (ended : s.inp.remaining = []) :
    Reaches s { s with inp := { s.inp with pos := s.inp.bits.length }, seq := .close .truncatedStream } := by
  refine reaches_move alone place nofun ((if_neg live).trans (readField_of_short ?_))
  rw [ended]
  exact Nat.one_pos

end

/-- At the sentinel's leaf decoding is over (R105). -/
theorem reaches_close_of_sentinel {s : State} {i : NodeIdx} {w : Weight} (alone : undisturbed s)
    (node : s.nodes[i] = .leaf sentinelSym w) :
    Reaches (arrive i s) { s with cur := i, dstate := .terminal, seq := .close .none } := by
  rw [arrive_of_sentinel node]
  exact reaches_move alone rfl nofun rfl

/-- Settles O28: any bit leads to the root leaf; the sentinel there ends decoding, and so does the end of IN. -/
theorem degenerateTreeIsDecodedByOneBit : Obligations.DegenerateTreeIsDecodedByOneBit := by
  intro s y w live root
  have move (b : Bool) := nextCur_of_leaf root b
  have closed : endedWith s.out.bits s.out.close := closeBringsOutToWholeBytesAndEndsIt.1 s.out
  refine ⟨fun b place => ⟨fun sentinel => ?sentinel, fun byte => ?byte⟩,
    fun alone place sentinel b rest next => ?run, fun alone place ended => ?truncated⟩
  case sentinel =>
    obtain rfl := eq_sentinelSym_iff.mpr sentinel
    rw [exec_decodeCodeBit_of_nextCur live place (move b), arrive_of_sentinel root]
  case byte =>
    rw [exec_decodeCodeBit_of_nextCur live place (move b), arrive_of_byte root (mt eq_sentinelSym_iff.mp byte)]
    rfl
  case run =>
    obtain rfl := eq_sentinelSym_iff.mpr sentinel
    have arrived := reaches_arrive alone place live next (move b)
    have run := arrived.trans (reaches_close_of_sentinel alone root)
    exact ⟨_, run.finished alone rfl, rfl, remaining_past (k := [b]) next, closed, rfl⟩
  case truncated =>
    have run := reaches_truncatedStream alone place live ended
    exact ⟨_, run.finished alone rfl, rfl, closed, rfl⟩

end Sys2Proof.Machine
end

section
/-! SUPPORT. D_DECODE's run (45_decompress.md R102 to R105): the payload bits lead from the root to a leaf, code after
code, up to the sentinel's or to the end of IN. -/

namespace Sys2Proof.Machine

/-! ## Down the tree -/

/-- Under the internal root `root`, the bits lead from one arena entry down to another (R10, R102). -/
inductive Leads (nodes : Vector Node Config.nodeCap) (root : NodeIdx) : NodeIdx → Bits → NodeIdx → Prop where
  | here (i : NodeIdx) : Leads nodes root i [] i
  | bit {i l r j : NodeIdx} {w : Weight} {b : Bool} {p : Bits} (inner : nodes[root].isLeaf = false)
      (node : nodes[i] = .internal w l r) (below : Leads nodes root (if b then r else l) p j) :
      Leads nodes root i (b :: p) j

section
variable {nodes : Vector Node Config.nodeCap} {root i j : NodeIdx} {t : Tree} {y : Sym} {p q : Bits}

/-- A leaf's path leads to it. -/
theorem Builds.leads (builds : Builds nodes i t) (inner : nodes[root].isLeaf = false) (path : (y, p) ∈ t.paths) :
    ∃ j w, nodes[j] = .leaf y w ∧ Leads nodes root i p j := by
  induction builds generalizing p with
  | leaf node =>
    obtain ⟨rfl, rfl⟩ := Tree.mem_paths_leaf.mp path
    exact ⟨_, _, node, .here _⟩
  | node node _ _ ihl ihr =>
    obtain ⟨q, left, rfl⟩ | ⟨q, right, rfl⟩ := Tree.mem_paths_node.mp path
    · obtain ⟨j, w, leaf, below⟩ := ihl left
      exact ⟨j, w, leaf, .bit inner node below⟩
    · obtain ⟨j, w, leaf, below⟩ := ihr right
      exact ⟨j, w, leaf, .bit inner node below⟩

/-- With bits left on the way, the entry reached so far is an internal node. -/
theorem Leads.exists_internal {b : Bool} (leads : Leads nodes root i (p ++ b :: q) j) :
    ∃ k l r w, nodes[k] = .internal w l r ∧ Leads nodes root i p k := by
  induction p generalizing i with
  | nil =>
    cases leads with
    | bit _ node _ => exact ⟨i, _, _, _, node, .here i⟩
  | cons c p ih =>
    cases leads with
    | bit inner node below =>
      obtain ⟨k, l, r, w, internal, above⟩ := ih below
      exact ⟨k, l, r, w, internal, .bit inner node above⟩

end

/-- The first bit of a code moves CUR from the root, and the others lead on to the symbol's leaf, in a degenerate tree
none (R102, R103). -/
theorem Builds.exists_nextCur {s : State} {t : Tree} (builds : Builds s.nodes s.root t) (cursor : s.cur = s.root)
    {y : Sym} {p : Bits} (code : (y, p) ∈ t.codes) :
    ∃ b q c j w, p = b :: q ∧ nextCur b s = some c ∧ Leads s.nodes s.root c q j ∧ s.nodes[j] = .leaf y w := by
  cases builds with
  | leaf node =>
    obtain ⟨rfl, rfl⟩ := Tree.mem_codes_leaf.mp code
    exact ⟨_, _, _, _, _, rfl, nextCur_of_leaf node false, .here _, node⟩
  | node node left right =>
    have inner : s.nodes[s.root].isLeaf = false := by rw [node]; rfl
    have move := nextCur_of_internal inner (cursor.symm ▸ node)
    obtain ⟨q, path, rfl⟩ | ⟨q, path, rfl⟩ := Tree.mem_paths_node.mp code
    · obtain ⟨j, w, leaf, below⟩ := left.leads inner path
      exact ⟨_, _, _, j, w, rfl, move false, below, leaf⟩
    · obtain ⟨j, w, leaf, below⟩ := right.leads inner path
      exact ⟨_, _, _, j, w, rfl, move true, below, leaf⟩

/-! ## Descending -/

/-- From `s` to `u` `n` bits of IN are read, and nothing else changes but the decoder's cursor and the ENGINE's
place. -/
def Descended (n : Nat) (s u : State) : Prop := u = { s with
  inp := { s.inp with pos := s.inp.pos + n }, cur := u.cur, dstate := u.dstate, seq := u.seq }

theorem Descended.trans {m n : Nat} {s t u : State} (h : Descended m s t) (k : Descended n t u) :
    Descended (m + n) s u := by
  unfold Descended at *
  rw [k, h, ← Nat.add_assoc]

theorem Descended.cons {n : Nat} {s t u : State} (k : Descended n t u) (h : Descended 1 s t) :
    Descended (n + 1) s u := Nat.add_comm n 1 ▸ h.trans k

/-- Bits that lead from one entry to another move CUR there (R102). -/
theorem Leads.reaches_entry {nodes : Vector Node Config.nodeCap} {root i j : NodeIdx} {p rest : Bits}
    (leads : Leads nodes root i p j) {s : State} (arena : s.nodes = nodes) (top : s.root = root)
    (alone : undisturbed s) (next : s.inp.remaining = p ++ rest) :
    ∃ u, Reaches (arrive i s) (arrive j u) ∧ Descended p.length s u := by
  induction leads generalizing s with
  | here i => exact ⟨s, .refl _, rfl⟩
  | @bit i l r j w b p inner node _ ih =>
    subst arena top
    have arrived := arrive_of_internal node
    have move := nextCur_of_internal (s := { s with cur := i, dstate := .descending, seq := .decodeBit }) inner node b
    have step := reaches_arrive (s := { s with cur := i, dstate := .descending, seq := .decodeBit })
      alone rfl nofun next move
    obtain ⟨u, run, descended⟩ := ih (s := bitRead b { s with cur := i, dstate := .descending, seq := .decodeBit })
      rfl rfl alone (remaining_past (k := [b]) next)
    exact ⟨u, arrived ▸ step.trans run, descended.cons rfl⟩

/-! ## A code -/

/-- D_DECODE before a code of the tree `t`: the decoder is at the root (R102). -/
structure AtRoot (t : Tree) (s : State) : Prop where
  alone : undisturbed s
  place : s.seq = .decodeBit
  start : s.dstate = .atRoot
  cursor : s.cur = s.root
  builds : Builds s.nodes s.root t

/-- `n` bits of IN are decoded from `s` and `p` is written to OUT, with the decoder back where it was. -/
def decoded (p : Bits) (n : Nat) (s : State) : State :=
  { s with inp := { s.inp with pos := s.inp.pos + n }, out := s.out.append p }

section
variable {t : Tree} {s : State} (h : AtRoot t s)
include h

theorem AtRoot.kept (p : Bits) (n : Nat) : AtRoot t (decoded p n s) :=
  ⟨h.alone, h.place, h.start, h.cursor, h.builds⟩

theorem AtRoot.live : s.dstate ≠ .terminal := by
  rw [h.start]
  nofun

/-- A first bit's move and the bits after it bring CUR to an entry (R102, R103). -/
theorem AtRoot.reaches_entry {b : Bool} {c j : NodeIdx} {q rest : Bits} (move : nextCur b s = some c)
    (leads : Leads s.nodes s.root c q j) (next : s.inp.remaining = b :: q ++ rest) :
    ∃ u, Reaches s (arrive j u) ∧ Descended (b :: q).length s u := by
  have step := reaches_arrive h.alone h.place h.live next move
  obtain ⟨u, run, descended⟩ := leads.reaches_entry (s := bitRead b s) rfl rfl h.alone
    (remaining_past (k := [b]) next)
  exact ⟨u, step.trans run, descended.cons rfl⟩

/-- A code of the tree brings CUR to its symbol's leaf (R102, R103). -/
theorem AtRoot.reaches_leaf {y : Sym} {p rest : Bits} (code : (y, p) ∈ t.codes)
    (next : s.inp.remaining = p ++ rest) :
    ∃ j w u, s.nodes[j] = .leaf y w ∧ Reaches s (arrive j u) ∧ Descended p.length s u := by
  obtain ⟨b, q, c, j, w, rfl, move, leads, leaf⟩ := h.builds.exists_nextCur h.cursor code
  obtain ⟨u, run, descended⟩ := h.reaches_entry move leads next
  exact ⟨j, w, u, leaf, run, descended⟩

/-- A byte's code writes the byte and leaves the decoder at the root (R102, R104). -/
theorem AtRoot.reaches_byte {b : Byte} {p rest : Bits} (code : (symOfByte b, p) ∈ t.codes)
    (next : s.inp.remaining = p ++ rest) : Reaches s (decoded (bitsOf b) p.length s) := by
  obtain ⟨j, w, u, leaf, run, descended⟩ := h.reaches_leaf code next
  have aloneStill : undisturbed u := by rw [descended]; exact h.alone
  have node : u.nodes[j] = .leaf (symOfByte b) w := by rw [descended]; exact leaf
  rw [arrive_of_byte node (symOfByte_ne_sentinel b), symByte_symOfByte] at run
  have written := run.trans (reaches_move aloneStill rfl nofun rfl)
  have reset := written.trans (reaches_move aloneStill rfl nofun rfl)
  have back : decodeReset { u with cur := j, seq := .decodeReset, out := u.out.writeBits b } =
      decoded (bitsOf b) p.length s := by
    rw [descended]
    simp [decoded, decodeReset, OutPort.writeBits, h.place, h.start, h.cursor]
  exact back ▸ reset

/-- The sentinel's code ends decoding (R105). -/
theorem AtRoot.reaches_sentinel {p rest : Bits} (code : (sentinelSym, p) ∈ t.codes)
    (next : s.inp.remaining = p ++ rest) :
    ∃ v, Reaches s v ∧ v.seq = .close .none ∧ Descended p.length s v := by
  obtain ⟨j, w, u, leaf, run, descended⟩ := h.reaches_leaf code next
  have aloneStill : undisturbed u := by rw [descended]; exact h.alone
  have node : u.nodes[j] = .leaf sentinelSym w := by rw [descended]; exact leaf
  exact ⟨_, run.trans (reaches_close_of_sentinel aloneStill node), rfl, descended.trans (n := 0) rfl⟩

/-- The end of IN inside a code raises TRUNCATED_STREAM (R102, R107). -/
theorem AtRoot.reaches_truncated {y : Sym} {p q : Bits} (code : (y, p) ∈ t.codes) (front : q <+: p) (part : q ≠ p)
    (ended : s.inp.remaining = q) :
    ∃ v, Reaches s v ∧ v.seq = .close .truncatedStream ∧ v.out = s.out ∧ v.status = s.status ∧
      v.host = s.host := by
  cases q with
  | nil => exact ⟨_, reaches_truncatedStream h.alone h.place h.live ended, rfl, rfl, rfl, rfl⟩
  | cons b q =>
    obtain ⟨r, rfl⟩ := front
    obtain ⟨d, r, rfl⟩ := List.exists_cons_of_ne_nil fun none : r = [] => part (by rw [none, List.append_nil])
    obtain ⟨_, _, c, j, w, same, move, leads, -⟩ := h.builds.exists_nextCur h.cursor code
    cases same
    obtain ⟨k, l, r', w, internal, above⟩ := leads.exists_internal
    have next : s.inp.remaining = b :: q ++ [] := ended.trans (List.append_nil _).symm
    obtain ⟨u, run, descended⟩ := h.reaches_entry move above next
    have aloneStill : undisturbed u := by rw [descended]; exact h.alone
    have node : u.nodes[k] = .internal w l r' := by rw [descended]; exact internal
    have none : u.inp.remaining = [] := by rw [descended]; exact remaining_past next
    rw [arrive_of_internal node] at run
    refine ⟨_, run.trans (reaches_truncatedStream aloneStill rfl nofun none), rfl, ?_⟩
    rw [descended]
    exact ⟨rfl, rfl, rfl⟩

/-! ## Codes of bytes -/

/-- Codes of bytes write the bytes, one after another (R102, R104). -/
theorem AtRoot.reaches_bytes {bytes : List Byte} {ps : List Bits} {rest : Bits}
    (codes : List.Forall₂ (fun b p => (symOfByte b, p) ∈ t.codes) bytes ps)
    (next : s.inp.remaining = ps.flatten ++ rest) :
    Reaches s (decoded (streamBits bytes) ps.flatten.length s) := by
  induction codes generalizing s with
  | nil =>
    have none : decoded (streamBits []) ([] : List Bits).flatten.length s = s := by
      simp [decoded, OutPort.append]
    rw [none]
    exact .refl s
  | @cons b p bytes ps code _ ih =>
    rw [List.flatten_cons, List.append_assoc] at next
    have tail := ih (h.kept (bitsOf b) p.length) (remaining_past next)
    have both := (h.reaches_byte code next).trans tail
    simpa [decoded, OutPort.append, Nat.add_assoc] using both

end

/-! ## The statements -/

/-- OUT in whole bytes is ended without padding (R40, R43). -/
theorem close_of_whole {o : OutPort} (whole : o.bits.length % 8 = 0) :
    o.close = { bits := o.bits, closed := true } := by
  simp [OutPort.close, whole]

theorem close_append_streamBits {o : OutPort} (whole : o.bits.length % 8 = 0) (bytes : List Byte) :
    (o.append (streamBits bytes)).close = { bits := o.bits ++ streamBits bytes, closed := true } :=
  close_of_whole (by rw [append_bits, List.length_append, length_streamBits]; omega)

/-- Settles O56: the bytes' codes, the sentinel's, and the two steps of CLOSING. -/
theorem decodeWritesTheBytesUpToTheSentinel : Obligations.DecodeWritesTheBytesUpToTheSentinel := by
  intro s tree bytes ps pe rest place start cursor alone builds whole codes sentinel next
  have root : AtRoot tree s := ⟨alone, place, start, cursor, builds⟩
  rw [List.append_assoc] at next
  have past := remaining_past next
  obtain ⟨v, run, closing, descended⟩ :=
    (root.kept (streamBits bytes) ps.flatten.length).reaches_sentinel sentinel past
  have aloneStill : undisturbed v := by rw [descended]; exact alone
  refine ⟨_, ((root.reaches_bytes codes next).trans run).finished aloneStill closing, rfl, ?rest, ?out, ?status⟩
  case rest => rw [descended]; exact remaining_past past
  case out => rw [descended]; exact close_append_streamBits whole bytes
  case status => rw [descended]; rfl

/-- Settles O57: the bytes' codes, the end of IN inside the next one, and the two steps of CLOSING. -/
theorem truncatedPayloadKeepsTheBytesDecoded : Obligations.TruncatedPayloadKeepsTheBytesDecoded := by
  intro s tree bytes ps q p y place start cursor alone builds whole codes code front part next
  have root : AtRoot tree s := ⟨alone, place, start, cursor, builds⟩
  obtain ⟨v, run, closing, out, status, host⟩ :=
    (root.kept (streamBits bytes) ps.flatten.length).reaches_truncated code front part (remaining_past next)
  have aloneStill : undisturbed v := by rw [undisturbed, host]; exact alone
  refine ⟨_, ((root.reaches_bytes codes next).trans run).finished aloneStill closing, rfl, ?out, ?status⟩
  case out => exact (congrArg OutPort.close out).trans (close_append_streamBits whole bytes)
  case status => exact congrArg (Status.ended _) status

end Sys2Proof.Machine
end

section
/-! SUPPORT. DECOMPRESS from its acceptance (45_decompress.md R99 to R101), and the round trip through COMPRESS and
DECOMPRESS (45_decompress.md R106). -/

namespace Sys2Proof.Machine

/-! ## The marker -/

/-- A command starts at IN's first bit (R32). -/
theorem remaining_acceptCommand (op : BitVec 2) (q : Seq) (s : State) :
    (acceptCommand op q s).inp.remaining = streamBits s.inp.first := rfl

section
variable {s : State} (alone : undisturbed s) (place : s.seq = .magicRead)
include alone place

/-- D_MAGIC holds the 32 bits that stand next in IN (R101). -/
theorem reaches_magicField {m : Word} {rest : Bits} (next : s.inp.remaining = bitsOf m ++ rest) :
    Reaches s { s with inp := { s.inp with pos := s.inp.pos + 32 }, seq := .magicField m } :=
  reaches_move alone place nofun (readField_of_next (by decide) next)

/-- The marker leads to D_HEADER (R101). -/
theorem reaches_treeClear (marker : bitsOf Config.huffMagic <+: s.inp.remaining) :
    Reaches s { s with inp := { s.inp with pos := s.inp.pos + 32 }, seq := .treeClear } := by
  obtain ⟨rest, next⟩ := marker
  exact (reaches_magicField alone place next.symm).trans (reaches_move alone rfl nofun (congrArg _ (if_pos rfl)))

/-- Any other input raises BAD_MAGIC, one too short for a marker at the read, another at the comparison (R101). -/
theorem reaches_badMagic (other : ¬ bitsOf Config.huffMagic <+: s.inp.remaining) :
    ∃ p, Reaches s { s with inp := p, seq := .close .badMagic } := by
  obtain short | long := Nat.lt_or_ge s.inp.remaining.length 32
  · exact ⟨_, reaches_move alone place nofun (readField_of_short short)⟩
  · have next : s.inp.remaining = bitsOf (fieldOf 32 (s.inp.remaining.take 32)) ++ s.inp.remaining.drop 32 := by
      rw [bitsOf_fieldOf _ (List.length_take_of_le long), List.take_append_drop]
    have apart : fieldOf 32 (s.inp.remaining.take 32) ≠ Config.huffMagic := fun same =>
      other ⟨_, (same ▸ next).symm⟩
    have held := reaches_magicField alone place next
    exact ⟨_, held.trans (reaches_move alone rfl nofun (congrArg _ (if_neg apart)))⟩

end

/-- Settles O23: the marker leads to D_HEADER, and anything else through CLOSING to IDLE. -/
theorem readMagicAcceptsOnlyTheMarker : Obligations.ReadMagicAcceptsOnlyTheMarker := by
  intro s idle alone
  have accepted : exec .decompress s = .next (acceptCommand 2 .magicRead s) := whenIdle_of_idle idle
  refine ⟨fun marker => ⟨_, _, accepted, reaches_treeClear alone rfl marker, rfl, rfl⟩, fun other => ?_⟩
  obtain ⟨p, run⟩ := reaches_badMagic (s := acceptCommand 2 .magicRead s) alone rfl other
  have empty : OutPort.fresh.close.bits = [] := congrArg OutPort.bits (close_of_whole rfl)
  exact ⟨_, _, accepted, run.finished alone rfl, rfl, empty, rfl⟩

/-! ## Streams as bytes and as bits -/

theorem bytesOf_streamBits (l : List Byte) : bytesOf (streamBits l) = l := by
  induction l with
  | nil => rfl
  | cons b l ih => rw [streamBits_cons, bytesOf_bitsOf_append, ih]

/-- Bits in whole bytes are the bits of their bytes (R33, R41). -/
theorem streamBits_bytesOf {p : Bits} (whole : p.length % 8 = 0) : streamBits (bytesOf p) = p := by
  obtain short | long := Nat.lt_or_ge p.length 8
  · have none : p = [] := List.eq_nil_of_length_eq_zero (by omega)
    rw [none]
    rfl
  · have rest := streamBits_bytesOf (p := p.drop 8) (by rw [List.length_drop]; omega)
    rw [bytesOf_of_le_length long, streamBits_cons, rest, bitsOf_fieldOf _ (List.length_take_of_le long),
      List.take_append_drop]
termination_by p.length
decreasing_by rw [List.length_drop]; omega

/-- What OUT is ended with stands at the front of the bits of its bytes (R40, R41). -/
theorem prefix_streamBits_of_endedWith {p : Bits} {o : OutPort} (ended : endedWith p o) :
    p <+: streamBits o.bytes := by
  obtain ⟨pad, -, whole, rfl⟩ := ended
  rw [OutPort.bytes, streamBits_bytesOf (by rw [List.length_append, List.length_replicate, whole])]
  exact List.prefix_append _ _

/-! ## Trees with one code to a symbol -/

/-- Two leaves have two paths. -/
theorem Tree.nodup_map_snd_paths (t : Tree) : (t.paths.map Prod.snd).Nodup := by
  induction t with
  | leaf y => exact List.nodup_singleton []
  | node l r ihl ihr =>
    have branches : (Tree.node l r).paths.map Prod.snd =
        (l.paths.map Prod.snd).map (List.cons false) ++ (r.paths.map Prod.snd).map (List.cons true) := by
      simp [paths, Function.comp_def]
    rw [branches]
    refine (ihl.map List.cons_injective).append (ihr.map List.cons_injective) fun p left right => ?_
    obtain ⟨q, -, rfl⟩ := List.mem_map.mp left
    obtain ⟨q', -, other⟩ := List.mem_map.mp right
    cases other

theorem Tree.nodup_map_snd_codes (t : Tree) : (t.codes.map Prod.snd).Nodup := by
  cases t with
  | leaf y => exact List.nodup_singleton [false]
  | node l r => exact nodup_map_snd_paths _

/-- Where the symbol decides the code, no symbol has two leaves. -/
theorem Tree.nodup_symbols {t : Tree} {code : Sym → Bits} (codes : ∀ y p, (y, p) ∈ t.codes → code y = p) :
    t.symbols.Nodup := by
  have same : t.symbols.map code = t.codes.map Prod.snd := by
    rw [← map_fst_codes, List.map_map]
    exact List.map_congr_left fun e he => codes e.1 e.2 he
  exact List.Nodup.of_map code (same ▸ t.nodup_map_snd_codes)

/-- A symbol of the tree has the code that the symbol decides. -/
theorem Tree.mem_codes_of_mem_symbols {t : Tree} {code : Sym → Bits} (codes : ∀ y p, (y, p) ∈ t.codes → code y = p)
    {y : Sym} (h : y ∈ t.symbols) : (y, code y) ∈ t.codes := by
  obtain ⟨p, hp⟩ := exists_mem_codes.mpr h
  rwa [codes y p hp]

/-! ## DECOMPRESS of a whole stream -/

/-- DECOMPRESS of the marker, the header of a tree, codes of bytes and the sentinel's code ends with success and the
bytes, whatever comes after (R100 to R105). -/
theorem decompress_stream {s : State} (idle : s.status.busy = false) (alone : undisturbed s) {t : Tree}
    {bytes : List Byte} {ps : List Bits} {pe : Bits} (small : t.internalCount ≤ 256)
    (codes : List.Forall₂ (fun b p => (symOfByte b, p) ∈ t.codes) bytes ps) (sentinel : (sentinelSym, pe) ∈ t.codes)
    (stream : bitsOf Config.huffMagic ++ t.header ++ ps.flatten ++ pe <+: streamBits s.inp.first) :
    ∃ x z : State, exec .decompress s = .next x ∧ Reaches x z ∧ z.seq = .idle ∧
      z.status.done = true ∧ z.status.err = false ∧ z.out.bytes = bytes := by
  obtain ⟨rest, stream⟩ := stream
  have bits : (acceptCommand 2 .magicRead s).inp.remaining =
      bitsOf Config.huffMagic ++ (t.header ++ (ps.flatten ++ pe ++ rest)) := by
    rw [remaining_acceptCommand, ← stream]
    simp only [List.append_assoc]
  have marker := reaches_treeClear (s := acceptCommand 2 .magicRead s) alone rfl ⟨_, bits.symm⟩
  have header := remaining_past bits
  rw [length_bitsOf] at header
  obtain ⟨u, read, place, start, -, cursor, builds, -, -, payload, out, -, host⟩ :=
    readHeaderRebuildsTheTree { acceptCommand 2 .magicRead s with
      inp := { s.inp.restart with pos := 32 }, seq := .treeClear } t _ rfl alone header small
  have aloneStill : undisturbed u := by rw [undisturbed, host]; exact alone
  have whole : u.out.bits.length % 8 = 0 := by rw [out]; rfl
  obtain ⟨z, run, done, -, written, status⟩ := decodeWritesTheBytesUpToTheSentinel u t bytes ps pe rest place start
    cursor aloneStill builds whole codes sentinel payload
  refine ⟨_, z, whenIdle_of_idle idle, (marker.trans read).trans run, done, by rw [status], by rw [status], ?_⟩
  rw [written, out]
  exact bytesOf_streamBits bytes

/-- Settles O58: the stream that COMPRESS writes is one that DECOMPRESS reads, with the same tree and codes. -/
theorem decompressOfCompressGivesTheBytesBack : Obligations.DecompressOfCompressGivesTheBytesBack := by
  intro s idle alone same short
  obtain ⟨t, u, tree, accepted, run, done, status, -, symbols, codes, ended⟩ :=
    compressWritesMarkerHeaderCodesAndSentinel s idle alone same short
  refine ⟨t, u, accepted, run, done, by rw [status], by rw [status], fun v extra idle alone first => ?_⟩
  have code {y : Sym} (h : y ∈ tree.symbols) := Tree.mem_codes_of_mem_symbols codes h
  have small : tree.internalCount ≤ 256 := by
    have leaves : tree.leafCount ≤ 257 := Tree.leafCount_le (Tree.nodup_symbols codes)
    have := tree.internalCount_add_one
    omega
  have bytes : List.Forall₂ (fun b p => (symOfByte b, p) ∈ tree.codes) s.inp.first
      (s.inp.first.map fun b => u.codes[symOfByte b].path) := by
    rw [List.forall₂_map_right_iff, List.forall₂_same]
    intro b hb
    refine code ((symbols _).mpr (.inr ?_))
    rw [countOf_symOfByte]
    exact List.count_pos_iff.mpr hb
  refine decompress_stream idle alone small bytes (code ((symbols _).mpr (.inl rfl))) ?_
  rw [← List.flatMap_def, first, streamBits_append]
  exact (prefix_streamBits_of_endedWith ended).trans (List.prefix_append _ _)

end Sys2Proof.Machine
end

section
/-! SUPPORT. The error entry and the end with success (60_exceptions.md R110, 44_compress.md R97): the two steps of
CLOSING. -/

namespace Sys2Proof.Machine

/-- Settles O21: the ENGINE's first step in CLOSING ends OUT, the second writes STATUS and returns to IDLE. -/
theorem raisedErrorClosesOutAndReturnsToIdle : Obligations.RaisedErrorClosesOutAndReturnsToIdle := by
  intro e s
  have ended : endedWith s.out.bits s.out.close := closeBringsOutToWholeBytesAndEndsIt.1 s.out
  refine ⟨rfl, fun alone => ?run, fun turn place => ?close, fun turn place => ?finish⟩
  case run => exact ⟨_, (Reaches.refl (raise e s)).finished alone rfl, ended, rfl⟩
  case close =>
    obtain ⟨k, taken, move⟩ := step_engineMove turn
    rw [taken, move, place]
    exact ⟨_, ended, rfl⟩
  case finish =>
    obtain ⟨k, taken, move⟩ := step_engineMove turn
    rw [taken, move, place]
    rfl

end Sys2Proof.Machine
end

section
/-! SUPPORT. One table operation of an ENGINE step (70_reset_and_hazards.md R130): what a step can do to the tables,
and, with its port event, the statement that it does at most one of the two. -/

namespace Sys2Proof.Machine

/-! ## The tables -/

/-- The internal tables: FREQ, NODE, PQ, the code table, the two stacks and the decoder cursor (R22 to R28). -/
structure Tables where
  freq : Vector Weight Config.alph
  nodes : Vector Node Config.nodeCap
  pq : List NodeIdx
  codes : Vector Code Config.alph
  walk : List WalkEntry
  hdes : List HdesFrame
  cursor : NodeIdx × DState

/-- The tables of a state. -/
def State.tables (s : State) : Tables :=
  { freq := s.freq, nodes := s.nodes, pq := s.pq, codes := s.codes, walk := s.walk, hdes := s.hdes
    cursor := (s.cur, s.dstate) }

/-- The tables after at most one table operation (R130; log 6). -/
inductive TableOp (a : Tables) : Tables → Prop where
  | none : TableOp a a
  | freq (y : Sym) (w : Weight) : TableOp a { a with freq := a.freq.set y w }
  | nodes (i : NodeIdx) (n : Node) : TableOp a { a with nodes := a.nodes.set i n }
  | pq (q : List NodeIdx) (op : oneQueueOp a.nodes a.pq q) : TableOp a { a with pq := q }
  | codes (y : Sym) (c : Code) : TableOp a { a with codes := a.codes.set y c }
  | walk (k : List WalkEntry) (op : oneStackOp a.walk k) : TableOp a { a with walk := k }
  | hdes (k : List HdesFrame) (op : oneStackOp a.hdes k) : TableOp a { a with hdes := k }
  | cursor (c : NodeIdx × DState) : TableOp a { a with cursor := c }

section
variable {α : Type} {n : Nat} {k : List α}

theorem oneEntry_refl [NeZero n] (v : Vector α n) : oneEntry v v := ⟨0, fun _ _ => rfl⟩

theorem oneEntry_set (v : Vector α n) (i : Fin n) (x : α) : oneEntry v (v.set i x) :=
  ⟨i, fun j other => Vector.getElem_set_ne i.isLt j.isLt fun same => other (Fin.ext same.symm)⟩

theorem oneStackOp_refl (k : List α) : oneStackOp k k := .inl rfl

theorem oneStackOp_clear : oneStackOp k [] := .inr (.inl rfl)

theorem oneStackOp_push (e : α) : oneStackOp k (e :: k) := .inr (.inr (.inl ⟨e, rfl⟩))

theorem oneStackOp_pop {e : α} {rest : List α} (h : k = e :: rest) : oneStackOp k rest :=
  .inr (.inr (.inr (.inl ⟨e, h⟩)))

theorem oneStackOp_top {e : α} {rest : List α} (h : k = e :: rest) (f : α) : oneStackOp k (f :: rest) :=
  .inr (.inr (.inr (.inr ⟨e, f, rest, h, rfl⟩)))

end

section
variable {nodes : Vector Node Config.nodeCap} {q : List NodeIdx}

theorem oneQueueOp_refl : oneQueueOp nodes q q := .inl rfl

theorem oneQueueOp_clear : oneQueueOp nodes q [] := .inr (.inl rfl)

theorem oneQueueOp_insert (i : NodeIdx) : oneQueueOp nodes q (pqInsert i q) := .inr (.inr (.inl ⟨i, rfl⟩))

theorem oneQueueOp_removeMin {a : NodeIdx} {r : List NodeIdx} (h : pqRemoveMin nodes q = some (a, r)) :
    oneQueueOp nodes q r := .inr (.inr (.inr ⟨a, h⟩))

end

/-! ## What one operation leaves -/

/-- Each table has one entry written at most, PQ and the stacks had one operation at most. -/
theorem TableOp.each {a b : Tables} (h : TableOp a b) :
    oneEntry a.freq b.freq ∧ oneEntry a.nodes b.nodes ∧ oneEntry a.codes b.codes ∧
    oneQueueOp a.nodes a.pq b.pq ∧ oneStackOp a.walk b.walk ∧ oneStackOp a.hdes b.hdes := by
  have freq := oneEntry_refl a.freq
  have nodes := oneEntry_refl a.nodes
  have codes := oneEntry_refl a.codes
  have pq := oneQueueOp_refl (nodes := a.nodes) (q := a.pq)
  have walk := oneStackOp_refl a.walk
  have hdes := oneStackOp_refl a.hdes
  cases h with
  | none | cursor => exact ⟨freq, nodes, codes, pq, walk, hdes⟩
  | freq y w => exact ⟨oneEntry_set _ y w, nodes, codes, pq, walk, hdes⟩
  | nodes i n => exact ⟨freq, oneEntry_set _ i n, codes, pq, walk, hdes⟩
  | pq q op => exact ⟨freq, nodes, codes, op, walk, hdes⟩
  | codes y c => exact ⟨freq, nodes, oneEntry_set _ y c, pq, walk, hdes⟩
  | walk k op => exact ⟨freq, nodes, codes, pq, op, hdes⟩
  | hdes k op => exact ⟨freq, nodes, codes, pq, walk, op⟩

/-- Which tables differ, in the order of `touched`. -/
def touchedTables (a b : Tables) : List Bool :=
  [decide (b.freq ≠ a.freq), decide (b.nodes ≠ a.nodes), decide (b.pq ≠ a.pq), decide (b.codes ≠ a.codes),
    decide (b.walk ≠ a.walk), decide (b.hdes ≠ a.hdes),
    decide (¬(b.cursor.1 = a.cursor.1 ∧ b.cursor.2 = a.cursor.2))]

theorem touched_eq (s t : State) : touched s t =
    decide (t.inp ≠ s.inp) :: decide (t.out ≠ s.out) :: touchedTables s.tables t.tables := rfl

theorem touchedTables_self (a : Tables) : touchedTables a a = List.replicate 7 false := by simp [touchedTables]

/-- One operation touches one table at most. -/
theorem TableOp.count_touchedTables_le {a b : Tables} (h : TableOp a b) : (touchedTables a b).count true ≤ 1 := by
  cases h with
  | none => simp [touchedTables_self]
  | _ => simp [touchedTables, List.count_cons, apply_ite (· ≤ 1)]

/-! ## The operation of an ENGINE step -/

/-- What every ENGINE step from `s` keeps to: the HOST's own state stays, and the tables have one operation at most. -/
structure TableMove (s t : State) : Prop where
  host : t.host = s.host
  op : TableOp s.tables t.tables

theorem tableMove_buildNext (y : Sym) {s t : State} (h : TableMove s t) : TableMove s (buildNext y t) := by
  unfold buildNext
  split <;> exact ⟨h.host, h.op⟩

theorem tableMove_readField {n : Nat} {hold : BitVec n → Seq} {eof : State → State} {s : State} (q : Seq)
    (ended : ∀ s', eof s' = { s' with seq := q }) : Answers (TableMove s) (readField n hold eof s).outcome :=
  answers_readField (fun _ _ => ⟨rfl, .none⟩) (by rw [ended]; exact ⟨rfl, .none⟩)

theorem tableMove_popWalk (visit : WalkEntry → Seq) (q : Seq) (s : State) : TableMove s (popWalk visit q s) := by
  obtain ⟨-, h⟩ | ⟨e, rest, hw, h⟩ := popWalk_cases visit q s
  · rw [h]; exact ⟨rfl, .none⟩
  · rw [h]; exact ⟨rfl, .walk _ (oneStackOp_pop hw)⟩

theorem tableMove_arrive (c : NodeIdx) (s : State) : TableMove s (arrive c s) := by
  unfold arrive
  split
  · split
    · exact ⟨rfl, .cursor (c, .terminal)⟩
    · exact ⟨rfl, .cursor (c, s.dstate)⟩
  · exact ⟨rfl, .cursor (c, .descending)⟩

theorem tableMove_treeReturn (j : NodeIdx) (s : State) : TableMove s (treeReturn j s) := by
  unfold treeReturn
  split
  · exact ⟨rfl, .cursor (j, .atRoot)⟩
  next f rest hk =>
    split
    · exact ⟨rfl, .hdes _ (oneStackOp_top hk _)⟩
    · exact ⟨rfl, .hdes _ (oneStackOp_pop hk)⟩

/-- Every ENGINE step does at most one table operation (R130). -/
theorem engineMove_tableMove (s : State) (q : Seq) : Answers (TableMove s) (engineMove s q) := by
  cases q with
  | count | encodeRead | magicRead | treeTag | treeSym => exact tableMove_readField _ fun _ => rfl
  | decodeBit =>
    dsimp only [engineMove]
    split
    · exact answers_next.mpr ⟨rfl, .none⟩
    · exact tableMove_readField _ fun _ => rfl
  | countClear y =>
    refine answers_next.mpr ?_
    unfold countClear
    cases nextSym y <;> exact ⟨rfl, .freq y 0⟩
  | countByte b =>
    refine answers_next.mpr ?_
    unfold countByte
    dsimp only
    split
    · exact ⟨rfl, .none⟩
    · exact ⟨rfl, .freq _ _⟩
  | countEnd => exact answers_next.mpr ⟨rfl, .freq _ _⟩
  | buildClear => exact answers_next.mpr ⟨rfl, .pq _ oneQueueOp_clear⟩
  | buildLeaf y =>
    refine answers_next.mpr ?_
    unfold buildLeaf
    split
    · exact ⟨rfl, .nodes _ _⟩
    · exact tableMove_buildNext y ⟨rfl, .none⟩
  | buildInsert y => exact answers_next.mpr (tableMove_buildNext y ⟨rfl, .pq _ (oneQueueOp_insert _)⟩)
  | merge =>
    dsimp only [engineMove, merge]
    refine answers_takeMin fun a q least => ?_
    cases q <;> exact ⟨rfl, .pq _ (oneQueueOp_removeMin least)⟩
  | mergeSecond a =>
    dsimp only [engineMove, mergeSecond]
    exact answers_takeMin fun _ _ least => ⟨rfl, .pq _ (oneQueueOp_removeMin least)⟩
  | mergeNode a b =>
    simp only [engineMove, mergeNode]
    split
    · exact answers_fault
    · exact answers_next.mpr ⟨rfl, .nodes _ _⟩
  | mergeInsert i => exact answers_next.mpr ⟨rfl, .pq _ (oneQueueOp_insert i)⟩
  | codesClear y =>
    refine answers_next.mpr ?_
    unfold codesClear
    cases nextSym y <;> exact ⟨rfl, .codes y .empty⟩
  | codesStart =>
    refine answers_next.mpr ?_
    unfold codesStart
    split
    · exact ⟨rfl, .codes _ _⟩
    · exact ⟨rfl, .walk _ oneStackOp_clear⟩
  | codesNode i p =>
    refine answers_next.mpr ?_
    unfold codesNode
    split
    · exact ⟨rfl, .codes _ _⟩
    · exact ⟨rfl, .walk _ (oneStackOp_push _)⟩
  | codesPop | headerPop => exact answers_next.mpr (tableMove_popWalk _ _ s)
  | headerStart => exact answers_next.mpr ⟨rfl, .walk _ oneStackOp_clear⟩
  | headerNode i =>
    refine answers_next.mpr ?_
    split <;> exact ⟨rfl, .none⟩
  | headerPush i =>
    simp only [engineMove, headerPush]
    split
    · exact answers_fault
    · exact answers_next.mpr ⟨rfl, .walk _ (oneStackOp_push _)⟩
  | headerSym i =>
    dsimp only [engineMove]
    split
    · exact answers_next.mpr ⟨rfl, .none⟩
    · exact answers_refused
  | encodeByte b =>
    refine answers_next.mpr ?_
    unfold encodeByte
    split <;> exact ⟨rfl, .none⟩
  | magicField m =>
    refine answers_next.mpr ?_
    split <;> exact ⟨rfl, .none⟩
  | treeClear => exact answers_next.mpr ⟨rfl, .hdes _ oneStackOp_clear⟩
  | treeBit t =>
    cases t with
    | false =>
      dsimp only [engineMove]
      refine answers_allocNode fun i _ => answers_next.mpr ?_
      unfold desInternal
      dsimp only
      split
      · exact ⟨rfl, .none⟩
      · exact ⟨rfl, .hdes _ (oneStackOp_push _)⟩
    | true =>
      dsimp only [engineMove]
      exact answers_allocNode fun i _ => answers_next.mpr ⟨rfl, .none⟩
  | treeLeaf i v =>
    refine answers_next.mpr ?_
    cases symOfField v with
    | none => exact ⟨rfl, .none⟩
    | some y => exact ⟨rfl, .nodes i _⟩
  | treeReturn j => exact answers_next.mpr (tableMove_treeReturn j s)
  | treeBuild i l r => exact answers_next.mpr ⟨rfl, .nodes i _⟩
  | decodeStep t =>
    dsimp only [engineMove]
    split
    · exact answers_refused
    · cases nextCur t s with
      | none => exact answers_fault
      | some c => exact answers_next.mpr (tableMove_arrive c s)
  | decodeReset => exact answers_next.mpr ⟨rfl, .cursor (s.root, .atRoot)⟩
  | _ => exact answers_next.mpr ⟨rfl, .none⟩

/-! ## The statement -/

/-- A port event moves IN by one read or by the rewind (R35, R36). -/
theorem PortEvent.inEvent {s t : State} (h : PortEvent s t) : inEvent s.inp t.inp := by
  cases h with
  | none inp out => exact .inl inp
  | read n width p q answer => exact .inr (.inr ⟨n, width, answer⟩)
  | rewind place => exact .inr (.inl rfl)
  | write p q => exact .inl rfl
  | close e => exact .inl rfl

/-- A step without a port event leaves both ports; a step with one changes that port and the ENGINE's place alone. -/
theorem PortEvent.frame {s t : State} (h : PortEvent s t) :
    (t.inp = s.inp ∧ t.out = s.out) ∨
      (t.inp = s.inp ∨ t.out = s.out) ∧ t = { s with seq := t.seq, inp := t.inp, out := t.out } := by
  cases h with
  | none inp out => exact .inl ⟨inp, out⟩
  | read n width p q answer => exact .inr ⟨.inr rfl, rfl⟩
  | rewind place => exact .inr ⟨.inr rfl, rfl⟩
  | write p q => exact .inr ⟨.inl rfl, rfl⟩
  | close e => exact .inr ⟨.inl rfl, rfl⟩

/-- At most one port or table is touched. -/
theorem count_touched_le {s t : State} (event : PortEvent s t) (move : TableMove s t) :
    (touched s t).count true ≤ 1 := by
  obtain ⟨inp, out⟩ | ⟨kept, frame⟩ := event.frame
  · simpa [touched_eq, inp, out] using move.op.count_touchedTables_le
  · have tables : t.tables = s.tables := by rw [frame]; rfl
    rw [touched_eq, tables, touchedTables_self]
    obtain inp | out := kept
    · by_cases out : t.out = s.out <;> simp [inp, out]
    · by_cases inp : t.inp = s.inp <;> simp [inp, out]

/-- Settles O10: the step's port event and its table operation, of which the one leaves no room for the other. -/
theorem engineStepIsOnePortEventOrOneTableOperation :
    Obligations.EngineStepIsOnePortEventOrOneTableOperation := by
  intro s t turn h
  obtain ⟨k, taken, move⟩ := step_engineMove turn
  rw [move] at h
  have event : PortEvent { s with host := k } t := engineMove_portEvent { s with host := k } t h
  have tables : TableMove { s with host := k } t := engineMove_tableMove _ _ t h
  have one : (touched s t).count true ≤ 1 := count_touched_le (s := { s with host := k }) event tables
  refine ⟨?ports, fun changed => ?frame, one, event.inEvent, event.outEvent, tables.op.each⟩
  case ports => exact event.frame.elim (fun kept => .inl kept.1) And.left
  case frame =>
    obtain ⟨inp, out⟩ | ⟨-, frame⟩ := event.frame
    · exact (changed.elim (fun h => h inp) fun h => h out).elim
    · exact taken ▸ frame

end Sys2Proof.Machine
end

section
/-! SUPPORT. RESET (70_reset_and_hazards.md R121) and the bus accesses that reach a register (R127,
20_memory.md R45). -/

namespace Sys2Proof.Machine

/-! ## RESET -/

/-- Settles O36: the HOST's RESET is `resetBlock`, which keeps the streams and the HOST's own state. -/
theorem resetAbandonsTheCommand : Obligations.ResetAbandonsTheCommand := by
  intro s rest turn asked
  have act : step s = .next (resetBlock (dropAction rest (takeTurn s).2)) := step_hostAct turn asked
  have zero : Status.reset.word = 0 := by decide
  have inp : (takeTurn s).2.inp = s.inp := by rw [takeTurn_snd]
  have out : (takeTurn s).2.out = s.out := by rw [takeTurn_snd]
  exact ⟨_, act, rfl, zero, inp, out, rfl⟩

/-! ## Bus accesses -/

theorem regAtOffset_eq_some {off : Nat} {r : Reg} : regAtOffset off = some r ↔ off = r.offset := by
  constructor
  · intro found
    have := List.find?_some found
    exact (of_decide_eq_true this).symm
  · rintro rfl
    cases r <;> rfl

/-- A bus access reaches the register `r` exactly when it is 4 bytes wide at the address of `r` (R45). -/
theorem regAtBus_eq_some {addr bytes : Nat} {r : Reg} :
    regAtBus addr bytes = some r ↔ bytes = 4 ∧ addr = Config.regBase + r.offset := by
  rw [regAtBus, Option.ite_none_right_eq_some, regAtOffset_eq_some]
  omega

/-- The offsets of the window are 0x00, 0x04, 0x08 and 0x0C (R18). -/
theorem offset_mem (r : Reg) : r.offset ∈ [0x00, 0x04, 0x08, 0x0C] := by cases r <;> decide

/-- Any other access reaches no register (R127). -/
theorem regAtBus_eq_none {addr bytes : Nat}
    (other : ¬ (bytes = 4 ∧ ∃ off ∈ [0x00, 0x04, 0x08, 0x0C], addr = Config.regBase + off)) :
    regAtBus addr bytes = none := by
  refine Option.eq_none_iff_forall_ne_some.mpr fun r reached => other ?_
  obtain ⟨width, place⟩ := regAtBus_eq_some.mp reached
  exact ⟨width, r.offset, offset_mem r, place⟩

/-- What stands in the HOST's program decides neither whose turn it is nor what taking the turn does. -/
theorem takeTurn_dropAction (p : List HostAction) (s : State) :
    takeTurn (dropAction p s) = ((takeTurn s).1, dropAction p (takeTurn s).2) := by
  cases turns : s.host.turns <;> simp [takeTurn, dropAction, turns]

/-- Where the first action `a` does what `b` does in its place, the HOST's step is the one with `b` in its place. -/
theorem step_eq_of_hostAct_eq {s : State} {a b : HostAction} {rest : List HostAction} (turn : hostTurn s)
    (program : s.host.program = a :: rest)
    (same : ∀ s', hostAct a rest s' = hostAct b rest (dropAction (b :: rest) s')) :
    step s = step (dropAction (b :: rest) s) := by
  have turn' : hostTurn (dropAction (b :: rest) s) := by
    rw [hostTurn, takeTurn_dropAction]
    exact turn
  rw [step_hostAct turn program, step_hostAct turn' rfl, takeTurn_dropAction, same]

/-- Settles O38: the window's address decides which register an access reaches, and with none it is refused. -/
theorem onlyAlignedWordAccessesReachARegister : Obligations.OnlyAlignedWordAccessesReachARegister := by
  intro s rest addr bytes v turn
  refine ⟨fun other => ?refused, fun r width place => ?reached⟩
  case refused =>
    have outside := regAtBus_eq_none other
    constructor <;> intro program <;> simp [step_hostAct turn program, hostAct, outside]
  case reached =>
    have reached : regAtBus addr bytes = some r := regAtBus_eq_some.mpr ⟨width, place⟩
    constructor <;> intro program <;>
      exact step_eq_of_hostAct_eq turn program fun s' => by simp [hostAct, reached, dropAction]

end Sys2Proof.Machine
end

section
/-! SUPPORT. Every command ends (70_reset_and_hazards.md R131): COMPRESS phase by phase, and DECOMPRESS by a budget that
each of its steps lowers. -/

namespace Sys2Proof.Machine

/-- Some run from `s` ends the command: IDLE with DONE = 1. -/
def Ends (s : State) : Prop := ∃ u, Reaches s u ∧ u.seq = .idle ∧ u.status.done = true

theorem Ends.of_reaches {s t : State} (run : Reaches s t) (h : Ends t) : Ends s := by
  obtain ⟨u, more, idle, done⟩ := h
  exact ⟨u, run.trans more, idle, done⟩

/-- CLOSING ends the command, whatever its error (R97, R110). -/
theorem ends_of_close {s : State} {e : ErrCode} (alone : undisturbed s) (place : s.seq = .close e) : Ends s :=
  ⟨_, (Reaches.refl s).finished alone place, rfl, rfl⟩

/-! ## COMPRESS -/

section
variable {s : State} (alone : undisturbed s)
include alone

/-- An input above MAX_LEN ends COUNT with INPUT_TOO_LONG (R68, R111). -/
theorem ends_of_maxLen_lt (place : s.seq = .countClear 0) (pass : s.inp.rewound = false) (start : s.inp.pos = 0)
    (long : Config.maxLen < s.inp.first.length) : Ends s := by
  have full : (s.inp.first.take Config.maxLen).length = Config.maxLen := List.length_take_of_le long.le
  have bytes := (List.take_append_drop Config.maxLen s.inp.first).symm
  rw [List.drop_eq_getElem_cons long] at bytes
  have counted := reaches_counted place alone pass start bytes full.le
  have error := reaches_countByte alone pass bytes
  rw [countByte_of_eq ((toNat_ofNat_of_le_maxLen full.le).trans full)] at error
  exact .of_reaches (counted.trans error) (ends_of_close alone rfl)

/-- C_ENCODE ends with success, or with INPUT_MISMATCH at the first byte without a code (R95). -/
theorem ends_of_encodeRead (place : s.seq = .encodeRead) (pass : s.inp.rewound = true) (start : s.inp.pos = 0) :
    Ends s := by
  cases first : s.inp.second.find? fun b => !s.codes[symOfByte b].valid with
  | none =>
    have valid : ∀ b ∈ s.inp.second, s.codes[symOfByte b].valid = true := by simpa using first
    exact ⟨_, reaches_payload alone place pass start valid, rfl, rfl⟩
  | some b =>
    obtain ⟨invalid, pre, post, bytes, before⟩ := List.find?_eq_some_iff_append.mp first
    obtain ⟨-, mismatch⟩ := encodeWritesEachBytesCode s place alone pass start
    have run := mismatch pre post b bytes (by simpa using before) (by simpa using invalid)
    exact .of_reaches run (ends_of_close alone rfl)

/-- With a tree at ROOT the marker and the header are written and IN is rewound (R93, R94). -/
theorem Builds.reaches_encodeRead {t : Tree} (builds : Builds s.nodes s.root t) (place : s.seq = .magicWrite) :
    ∃ u, Reaches s u ∧ u = { s with seq := .encodeRead, walk := [], inp := s.inp.rewind, out := u.out } := by
  have marker : Reaches s { s with out := s.out.writeBits Config.huffMagic, seq := .headerStart } :=
    reaches_move alone place nofun rfl
  have header := marker.trans (writeHeaderWritesTheTreeInPreorder _ t rfl alone builds)
  exact ⟨_, header.trans (reaches_move alone rfl nofun rfl), rfl⟩

/-- An input up to MAX_LEN has its tree built and written, and the second pass is encoded (R92). -/
theorem ends_of_le_maxLen (place : s.seq = .countClear 0) (pass : s.inp.rewound = false) (start : s.inp.pos = 0)
    (short : s.inp.first.length ≤ Config.maxLen) : Ends s := by
  obtain ⟨c, counted, counts⟩ := reaches_inputCounts alone place pass start short
  have aloneCounted : undisturbed c := by rw [counts]; exact alone
  obtain ⟨m, tree, made, holds, frame⟩ :=
    reaches_holdsTree aloneCounted (by rw [counts]) (by rw [counts]) short
  have aloneMade : undisturbed m := by rw [frame]; exact aloneCounted
  obtain ⟨r, written, rewound⟩ := holds.builds.reaches_encodeRead aloneMade (by rw [frame])
  have aloneStill : undisturbed r := by rw [rewound]; exact aloneMade
  have encoded : Ends r := by
    refine ends_of_encodeRead aloneStill ?_ ?_ ?_ <;> rw [rewound] <;> rfl
  exact .of_reaches ((counted.trans made).trans written) encoded

end

/-! ## DECOMPRESS -/

/-- A phase of DECOMPRESS before CLOSING (R100). -/
def Phase.decompresses : Phase → Bool
  | .dMagic | .dHeader | .dDecode => true
  | _ => false

/-- A place's rank among those of DECOMPRESS: a step that neither reads IN nor touches the HDES stack lowers it. -/
def Seq.rank : Seq → Nat
  | .magicRead => 5
  | .magicField _ => 4
  | .treeClear => 3
  | .treeTag => 2
  | .treeBit _ => 6
  | .treeSym _ => 5
  | .treeLeaf _ _ => 4
  | .treeReturn _ => 3
  | .treeBuild _ _ _ => 4
  | .decodeBit => 2
  | .decodeStep _ => 5
  | .decodeEmit _ => 4
  | .decodeReset => 3
  | _ => 0

/-- What bounds the steps of DECOMPRESS still to come: the bits of IN that remain count 5 each, as a read raises the
rank by 4 at most; a pending call of readTree counts 2, as its return raises the rank by 1. -/
def budget (s : State) : Nat := 5 * (s.inp.bits.length - s.inp.pos) + 2 * s.hdes.length + s.seq.rank

/-- A step of DECOMPRESS leads to CLOSING, or goes on with a smaller budget. -/
inductive Descends (s t : State) : Prop where
  | close (e : ErrCode) (place : t.seq = .close e)
  | go (phase : t.seq.phase.decompresses = true) (less : budget t < budget s)

theorem descends_raise (e : ErrCode) (s t : State) : Descends s (raise e t) := .close e rfl

/-- Where IN stays, the budget is lowered by the rank and the HDES stack. -/
theorem Descends.of_rank {s t : State} (phase : t.seq.phase.decompresses = true) (inp : t.inp = s.inp)
    (less : 2 * t.hdes.length + t.seq.rank < 2 * s.hdes.length + s.seq.rank) : Descends s t := by
  refine .go phase ?_
  rw [budget, budget, inp]
  omega

/-- Reading a field pays for a rank higher by up to 4. -/
theorem descends_readField {n : Nat} {hold : BitVec n → Seq} {e : ErrCode} {s : State} (positive : 0 < n)
    (phase : ∀ v, (hold v).phase.decompresses = true) (rank : ∀ v, (hold v).rank < s.seq.rank + 5) :
    Answers (Descends s) (readField n hold (raise e) s).outcome := by
  refine answers_readField (fun v enough => .go (phase v) ?_) (descends_raise e _ _)
  have := rank v
  simp only [budget, bits_with_pos]
  omega

theorem descends_treeReturn {j : NodeIdx} {s : State} (place : s.seq = .treeReturn j) :
    Descends s (treeReturn j s) := by
  unfold treeReturn
  split
  · exact .of_rank rfl rfl (by simp [place, Seq.rank.eq_def])
  next f rest pending =>
    split
    · exact .of_rank rfl rfl (by simp [place, pending, Seq.rank.eq_def])
    · exact .of_rank rfl rfl (by simp [place, pending, Seq.rank.eq_def]; omega)

theorem descends_desInternal {i : NodeIdx} {s : State} (place : s.seq = .treeBit false) (n : BitVec 10) :
    Descends s (desInternal i { s with next := n }) := by
  unfold desInternal
  dsimp only
  split
  · exact descends_raise _ _ _
  · exact .of_rank rfl rfl (by simp [place, Seq.rank.eq_def]; omega)

theorem descends_arrive {t : Bool} {s : State} (place : s.seq = .decodeStep t) (c : NodeIdx) :
    Descends s (arrive c s) := by
  unfold arrive
  split
  · split <;> exact .of_rank rfl rfl (by simp [place, Seq.rank.eq_def])
  · exact .of_rank rfl rfl (by simp [place, Seq.rank.eq_def])

/-- Every step of DECOMPRESS before CLOSING leads there or lowers the budget. -/
theorem engineMove_descends {s : State} (running : s.seq.phase.decompresses = true) :
    Answers (Descends s) (engineMove s s.seq) := by
  cases place : s.seq with
  | magicRead | treeTag | treeSym =>
    exact descends_readField (by decide) (fun _ => rfl) fun _ => by simp [place, Seq.rank.eq_def]
  | decodeBit =>
    dsimp only [engineMove]
    split
    · exact answers_next.mpr (.close .none rfl)
    · exact descends_readField (by decide) (fun _ => rfl) fun _ => by simp [place, Seq.rank.eq_def]
  | magicField m =>
    refine answers_next.mpr ?_
    split
    · exact .of_rank rfl rfl (by simp [place, Seq.rank.eq_def])
    · exact descends_raise _ _ _
  | treeClear => exact answers_next.mpr (.of_rank rfl rfl (by simp [place, treeClear, Seq.rank.eq_def]))
  | treeBit t =>
    cases t with
    | false =>
      dsimp only [engineMove]
      exact answers_allocNode fun i _ => answers_next.mpr (descends_desInternal place _)
    | true =>
      dsimp only [engineMove]
      exact answers_allocNode fun i _ => answers_next.mpr (.of_rank rfl rfl (by simp [place, Seq.rank.eq_def]))
  | treeLeaf i v =>
    refine answers_next.mpr ?_
    cases symOfField v with
    | none => exact descends_raise _ _ _
    | some y => exact .of_rank rfl rfl (by simp [place, desLeaf, Seq.rank.eq_def])
  | treeReturn j => exact answers_next.mpr (descends_treeReturn place)
  | treeBuild i l r => exact answers_next.mpr (.of_rank rfl rfl (by simp [place, treeBuild, Seq.rank.eq_def]))
  | decodeStep t =>
    dsimp only [engineMove]
    split
    · exact answers_refused
    · cases nextCur t s with
      | none => exact answers_fault
      | some c => exact answers_next.mpr (descends_arrive place c)
  | decodeEmit b => exact answers_next.mpr (.of_rank rfl rfl (by simp [place, Seq.rank.eq_def]))
  | decodeReset => exact answers_next.mpr (.of_rank rfl rfl (by simp [place, decodeReset, Seq.rank.eq_def]))
  | _ => rw [place] at running; cases running

/-- DECOMPRESS ends from every place before CLOSING: no move faults, and the budget runs out. -/
theorem ends_of_decompressing {s : State} (inv : Inv s) (alone : undisturbed s)
    (running : s.seq.phase.decompresses = true) : Ends s := by
  obtain ⟨-, -, tables⟩ := inv_iff.mp inv
  obtain ⟨t, move⟩ := tables.proceeds
  have notIdle : s.seq ≠ .idle := fun idle => by rw [idle] at running; cases running
  have run : Reaches s t := reaches_move alone rfl notIdle move
  have aloneStill : undisturbed t := by
    rw [undisturbed, (engineMove_tableMove _ _ t move).host]
    exact alone
  cases engineMove_descends running t move with
  | close e place => exact .of_reaches run (ends_of_close aloneStill place)
  | go phase less => exact .of_reaches run (ends_of_decompressing (inv.engine move) aloneStill phase)
termination_by budget s

/-! ## The statement -/

/-- DECOMPRESS accepted in any state meets the invariant. -/
theorem inv_acceptDecompress (s : State) : Inv (acceptCommand 2 .magicRead s) :=
  inv_iff.mpr ⟨⟨iff_of_true rfl nofun, fun _ => rfl, iff_of_true rfl rfl⟩,
    ⟨Nat.zero_le _, nofun, nofun, nofun⟩, .of_free rfl⟩

/-- Settles O59: COMPRESS ends on both sides of MAX_LEN, and DECOMPRESS as its budget runs out. -/
theorem everyCommandReachesIdle : Obligations.EveryCommandReachesIdle := by
  intro s idle alone
  have compress : Ends (acceptCommand 1 (.countClear 0) s) := by
    obtain long | short := Nat.lt_or_ge Config.maxLen s.inp.first.length
    · exact ends_of_maxLen_lt alone rfl rfl rfl long
    · exact ends_of_le_maxLen alone rfl rfl rfl short
  have decompress : Ends (acceptCommand 2 .magicRead s) :=
    ends_of_decompressing (inv_acceptDecompress s) alone rfl
  obtain ⟨u, runC, endedC⟩ := compress
  obtain ⟨v, runD, endedD⟩ := decompress
  exact ⟨⟨_, u, whenIdle_of_idle idle, runC, endedC⟩, _, v, whenIdle_of_idle idle, runD, endedD⟩

end Sys2Proof.Machine
end
